-- ==== Sys2Proof/Word.lean ====
section
/-! DEFINITION. The widths of the core (00_scope R9) and the small operand alphabets of the
instruction set (30_encoding R172). -/

namespace Sys2Proof

/-- DATA_WIDTH: every data cell, W and every register byte (R9). -/
abbrev Byte := BitVec 8

/-- INSN_WIDTH: one instruction is one 14-bit word (R9, R160). -/
abbrev Word := BitVec 14

/-- PC_BITS: the program counter and a return-address slot (R9, R50, R60). -/
abbrev Pc := BitVec 15

/-- PC_USABLE_BITS: an address of program memory, pc[10:0] (R9, R52). -/
abbrev PmAddr := BitVec 11

/-- FSR_BITS: a pointer of the unified indirect space (R9, R112). -/
abbrev Addr := BitVec 16

/-- The 7-bit direct file operand f (R172). -/
abbrev FileReg := BitVec 7

/-- The destination choice d: the working register or the file register (R172). -/
inductive Dest where
  | w
  | f
  deriving DecidableEq, Repr

/-- The pointer choice n: FSR0 or FSR1 (R172). -/
inductive Fsr where
  | fsr0
  | fsr1
  deriving DecidableEq, Repr

/-- The four pointer modes of the m field (48_indirect R380). -/
inductive PtrMode where
  | preInc
  | preDec
  | postInc
  | postDec
  deriving DecidableEq, Repr

end Sys2Proof
end

