-- ==== Sys2Proof/Machine/Cell.lean ====
section
/-! DEFINITION. The cells of data memory and the names of those that are registers
(10_state R41, R42, R65). -/

namespace Sys2Proof.Machine

/-- One byte of data storage: special-register cell (bank, location) or general-register cell
(10_state R41). The index types are the sizes of the two stores: 32 x 32 and 0xA00. -/
inductive Cell where
  | sfr (bank loc : Fin 32)
  | gpr (i : Fin 0xA00)
  deriving DecidableEq, Repr

/-- How many cells there are: SFR_CELLS + GPR_CELLS (00_scope R9). -/
def Cell.count : Nat := 1024 + 0xA00

/-- A cell's place in the model's one list of data memory: bank*32 + location (R41), the general
store after it. -/
def Cell.key : Cell → Nat
  | .sfr bank loc => bank.val * 32 + loc.val
  | .gpr i => 1024 + i.val

/-- The cell at a place of the list; inverse of `Cell.key` below `Cell.count`. -/
def Cell.ofKey (k : Nat) : Cell :=
  if k < 1024 then .sfr (Fin.ofNat 32 (k / 32)) (Fin.ofNat 32 k) else .gpr (Fin.ofNat 0xA00 (k - 1024))

/-! The register map (10_state R65). -/

abbrev Cell.indf0 : Cell := .sfr 0 0x00
abbrev Cell.indf1 : Cell := .sfr 0 0x01
abbrev Cell.pcl : Cell := .sfr 0 0x02
abbrev Cell.status : Cell := .sfr 0 0x03
abbrev Cell.fsr0l : Cell := .sfr 0 0x04
abbrev Cell.fsr0h : Cell := .sfr 0 0x05
abbrev Cell.fsr1l : Cell := .sfr 0 0x06
abbrev Cell.fsr1h : Cell := .sfr 0 0x07
abbrev Cell.bsr : Cell := .sfr 0 0x08
abbrev Cell.wreg : Cell := .sfr 0 0x09
abbrev Cell.pclath : Cell := .sfr 0 0x0A
abbrev Cell.intcon : Cell := .sfr 0 0x0B
abbrev Cell.trisa : Cell := .sfr 1 0x0C
abbrev Cell.trisb : Cell := .sfr 1 0x0D
abbrev Cell.trisc : Cell := .sfr 1 0x0E
abbrev Cell.optionReg : Cell := .sfr 1 0x15
abbrev Cell.pcon : Cell := .sfr 1 0x16
abbrev Cell.statusShad : Cell := .sfr 31 0x14
abbrev Cell.wregShad : Cell := .sfr 31 0x15
abbrev Cell.bsrShad : Cell := .sfr 31 0x16
abbrev Cell.pclathShad : Cell := .sfr 31 0x17
abbrev Cell.fsr0lShad : Cell := .sfr 31 0x18
abbrev Cell.fsr0hShad : Cell := .sfr 31 0x19
abbrev Cell.fsr1lShad : Cell := .sfr 31 0x1A
abbrev Cell.fsr1hShad : Cell := .sfr 31 0x1B
abbrev Cell.stkptr : Cell := .sfr 31 0x1D
abbrev Cell.tosl : Cell := .sfr 31 0x1E
abbrev Cell.tosh : Cell := .sfr 31 0x1F

/-- The low byte of pointer FSRn (R48). -/
def Cell.fsrLow : Fsr → Cell
  | .fsr0 => .fsr0l
  | .fsr1 => .fsr1l

/-- The high byte of pointer FSRn (R48). -/
def Cell.fsrHigh : Fsr → Cell
  | .fsr0 => .fsr0h
  | .fsr1 => .fsr1h

/-- The shadow registers 0xFE4-0xFEB (R57). -/
def Cell.shadows : List Cell :=
  [.statusShad, .wregShad, .bsrShad, .pclathShad, .fsr0lShad, .fsr0hShad, .fsr1lShad, .fsr1hShad]

end Sys2Proof.Machine
end

