-- ==== Sys2Proof/Config.lean ====
section
/-! DEFINITION. The OPEN parameters of the spec (00_scope R9) and the free values a reset draws
(R10). None has a body that a proof can see: a claim holds whatever they are. -/

namespace Sys2Proof

open Sys2Proof.Machine

/-- POWER_ON_DEFAULTS (R9, D34): the power-on default of a data cell that the reset table does not
list, or none where it is unspecified. Log entry 5. -/
opaque Config.powerOnDefault : Cell → Option Byte

/-- PCON_RESET_LOW (R9, D26): PCON[3:0] after a reset. Log entry 5. -/
opaque Config.pconResetLow : BitVec 4

/-- PERIPH_PENDING (R9, D36): does data memory, given as the byte of every cell, request a
peripheral interrupt? Log entry 5. -/
opaque Config.periphPending : (Cell → Byte) → Bool

/-- FREE VALUE: the draw that the n-th reset leaves in a data cell (R10, R70). Log entry 4. -/
opaque Config.resetDraw : Nat → Cell → Byte

/-- FREE VALUE: the draw that the n-th reset, if a power-on reset, leaves in a stack slot (R71, D35).
Log entry 4. -/
opaque Config.stackDraw : Nat → Fin 16 → Pc

end Sys2Proof
end

