-- ==== Sys2Proof/Syntax.lean ====
section
/-! DEFINITION. The decoded instruction: one constructor per row of the opcode table
(30_encoding R171), its arguments the fields of the row's template (R172). -/

namespace Sys2Proof

/-- A decoded instruction (R165). Signed fields (BRA's k, the 6-bit k) are kept as the bits the
decoder extracts; the instruction's rule reads them as signed. -/
inductive Instr where
  -- 40_add_sub
  | addwf (d : Dest) (f : FileReg)
  | addwfc (d : Dest) (f : FileReg)
  | addlw (k : Byte)
  | subwf (d : Dest) (f : FileReg)
  | subwfb (d : Dest) (f : FileReg)
  | sublw (k : Byte)
  -- 41_logic
  | andwf (d : Dest) (f : FileReg)
  | andlw (k : Byte)
  | iorwf (d : Dest) (f : FileReg)
  | iorlw (k : Byte)
  | xorwf (d : Dest) (f : FileReg)
  | xorlw (k : Byte)
  -- 42_incdec
  | incf (d : Dest) (f : FileReg)
  | decf (d : Dest) (f : FileReg)
  | incfsz (d : Dest) (f : FileReg)
  | decfsz (d : Dest) (f : FileReg)
  -- 43_rotate_shift
  | rlf (d : Dest) (f : FileReg)
  | rrf (d : Dest) (f : FileReg)
  | lslf (d : Dest) (f : FileReg)
  | lsrf (d : Dest) (f : FileReg)
  | asrf (d : Dest) (f : FileReg)
  -- 44_bit
  | bcf (b : BitVec 3) (f : FileReg)
  | bsf (b : BitVec 3) (f : FileReg)
  | btfsc (b : BitVec 3) (f : FileReg)
  | btfss (b : BitVec 3) (f : FileReg)
  -- 45_move
  | movf (d : Dest) (f : FileReg)
  | movwf (f : FileReg)
  | movlw (k : Byte)
  | comf (d : Dest) (f : FileReg)
  | swapf (d : Dest) (f : FileReg)
  | clrf (f : FileReg)
  | clrw (x : BitVec 2)
  -- 46_control
  | goto (k : BitVec 11)
  | call (k : BitVec 11)
  | callw
  | bra (k : BitVec 9)
  | brw
  | ret
  | retlw (k : Byte)
  | retfie
  -- 47_system
  | movlb (k : BitVec 5)
  | movlp (k : BitVec 7)
  | option
  | tris (f : BitVec 3)
  | nop
  | reset
  | sleep
  | clrwdt
  -- 48_indirect
  | moviw (n : Fsr) (m : PtrMode)
  | moviwk (n : Fsr) (k : BitVec 6)
  | movwi (n : Fsr) (m : PtrMode)
  | movwik (n : Fsr) (k : BitVec 6)
  | addfsr (n : Fsr) (k : BitVec 6)
  deriving DecidableEq, Repr

end Sys2Proof
end

