-- ==== Sys2Proof/WellFormed.lean ====
section
/-! DEFINITION. The legal instantiations of the catalog's templates (30_encoding R169). Every field
width is a type; what is left to check is TRIS's constraint. -/

namespace Sys2Proof

/-- A legal instantiation (R169): TRIS needs f in 5, 6, 7 (R175); every other template admits every
value of its fields (R172). -/
def Instr.wellFormed : Instr → Bool
  | .tris f => 5 ≤ f.toNat
  | .addwf _ _ | .addwfc _ _ | .addlw _ | .subwf _ _ | .subwfb _ _ | .sublw _ => true
  | .andwf _ _ | .andlw _ | .iorwf _ _ | .iorlw _ | .xorwf _ _ | .xorlw _ => true
  | .incf _ _ | .decf _ _ | .incfsz _ _ | .decfsz _ _ => true
  | .rlf _ _ | .rrf _ _ | .lslf _ _ | .lsrf _ _ | .asrf _ _ => true
  | .bcf _ _ | .bsf _ _ | .btfsc _ _ | .btfss _ _ => true
  | .movf _ _ | .movwf _ | .movlw _ | .comf _ _ | .swapf _ _ | .clrf _ | .clrw _ => true
  | .goto _ | .call _ | .callw | .bra _ | .brw | .ret | .retlw _ | .retfie => true
  | .movlb _ | .movlp _ | .option | .nop | .reset | .sleep | .clrwdt => true
  | .moviw _ _ | .moviwk _ _ | .movwi _ _ | .movwik _ _ | .addfsr _ _ => true

end Sys2Proof
end

