-- ==== Sys2Proof/Decode.lean ====
section
/-! DEFINITION. The instruction catalog, the decoder and the encoder (30_encoding). -/

namespace Sys2Proof

/-! ## Fields -/

/-- The template's field letters in canonical order (R161, R176). -/
inductive FieldName where
  | b
  | d
  | f
  | n
  | m
  | k
  | x
  deriving DecidableEq, Repr

/-- A field's place in the word (R162). -/
structure Field where
  name : FieldName
  hi : Nat
  lo : Nat
  deriving DecidableEq, Repr

def Field.width (F : Field) : Nat := F.hi - F.lo + 1

/-- The status flags an instruction may modify (R162). -/
inductive FlagName where
  | c
  | dc
  | z
  | nPD
  | nTO
  deriving DecidableEq, Repr

/-- The catalog's cycle cost: one value, or two for a data-dependent extra cycle (R162, R454). -/
inductive Cost where
  | one (n : Nat)
  | two (n skipped : Nat)
  deriving DecidableEq, Repr

/-- `Cost(ins, skipped)` (70_reset R455). -/
def Cost.cycles : Cost → Bool → Nat
  | .one n, _ => n
  | .two n _, false => n
  | .two _ n, true => n

/-- d = 0 is W, d = 1 the file register (R172). -/
def destOfBit (d : BitVec 1) : Dest := if d = 0 then .w else .f

def destBit : Dest → BitVec 1
  | .w => 0
  | .f => 1

/-- n = 0 is FSR0, n = 1 FSR1 (R172). -/
def fsrOfBit (n : BitVec 1) : Fsr := if n = 0 then .fsr0 else .fsr1

def fsrBit : Fsr → BitVec 1
  | .fsr0 => 0
  | .fsr1 => 1

/-- m: 0 ++FSRn, 1 --FSRn, 2 FSRn++, 3 FSRn-- (R172, 48_indirect R380). -/
def modeOfBits (m : BitVec 2) : PtrMode :=
  if m = 0 then .preInc else if m = 1 then .preDec else if m = 2 then .postInc else .postDec

def modeBits : PtrMode → BitVec 2
  | .preInc => 0
  | .preDec => 1
  | .postInc => 2
  | .postDec => 3

/-! ## The catalog -/

/-- One entry of the catalog (R162): mnemonic, fixed bits (`bits`, zeros below the prefix) and mask,
fields in canonical order, cost, flags, the constraint (only TRIS has one, R175), and the
instruction its fields make. -/
structure Template where
  mnemonic : String
  bits : Word
  mask : Word
  fields : List Field
  cost : Cost
  flags : List FlagName
  ok : Word → Bool
  build : Word → Instr

/-- `(w & e.mask) = e.match and e.constraint(w)` (R164). -/
def Template.matches (e : Template) (w : Word) : Bool := (w &&& e.mask) == e.bits && e.ok w

/-! The formats of R163. -/

def fmtByteFd (name : String) (bits : Word) (cost : Cost) (flags : List FlagName)
    (mk : Dest → FileReg → Instr) : Template :=
  ⟨name, bits, 0x3F00, [⟨.d, 7, 7⟩, ⟨.f, 6, 0⟩], cost, flags, fun _ => true,
    fun w => mk (destOfBit (w.extractLsb' 7 1)) (w.extractLsb' 0 7)⟩

def fmtByteF (name : String) (bits : Word) (flags : List FlagName) (mk : FileReg → Instr) : Template :=
  ⟨name, bits, 0x3F80, [⟨.f, 6, 0⟩], .one 1, flags, fun _ => true, fun w => mk (w.extractLsb' 0 7)⟩

def fmtClrw (name : String) (bits : Word) (flags : List FlagName) (mk : BitVec 2 → Instr) : Template :=
  ⟨name, bits, 0x3FFC, [⟨.x, 1, 0⟩], .one 1, flags, fun _ => true, fun w => mk (w.extractLsb' 0 2)⟩

def fmtBitBf (name : String) (bits : Word) (cost : Cost) (mk : BitVec 3 → FileReg → Instr) : Template :=
  ⟨name, bits, 0x3C00, [⟨.b, 9, 7⟩, ⟨.f, 6, 0⟩], cost, [], fun _ => true,
    fun w => mk (w.extractLsb' 7 3) (w.extractLsb' 0 7)⟩

def fmtLit8 (name : String) (bits : Word) (cost : Cost) (flags : List FlagName)
    (mk : Byte → Instr) : Template :=
  ⟨name, bits, 0x3F00, [⟨.k, 7, 0⟩], cost, flags, fun _ => true, fun w => mk (w.extractLsb' 0 8)⟩

def fmtLit11 (name : String) (bits : Word) (mk : BitVec 11 → Instr) : Template :=
  ⟨name, bits, 0x3800, [⟨.k, 10, 0⟩], .one 2, [], fun _ => true, fun w => mk (w.extractLsb' 0 11)⟩

def fmtRel9 (name : String) (bits : Word) (mk : BitVec 9 → Instr) : Template :=
  ⟨name, bits, 0x3E00, [⟨.k, 8, 0⟩], .one 2, [], fun _ => true, fun w => mk (w.extractLsb' 0 9)⟩

def fmtLit7 (name : String) (bits : Word) (mk : BitVec 7 → Instr) : Template :=
  ⟨name, bits, 0x3F80, [⟨.k, 6, 0⟩], .one 1, [], fun _ => true, fun w => mk (w.extractLsb' 0 7)⟩

def fmtLit5 (name : String) (bits : Word) (mk : BitVec 5 → Instr) : Template :=
  ⟨name, bits, 0x3FE0, [⟨.k, 4, 0⟩], .one 1, [], fun _ => true, fun w => mk (w.extractLsb' 0 5)⟩

def fmtIndNm (name : String) (bits : Word) (flags : List FlagName) (mk : Fsr → PtrMode → Instr) : Template :=
  ⟨name, bits, 0x3FF8, [⟨.n, 2, 2⟩, ⟨.m, 1, 0⟩], .one 1, flags, fun _ => true,
    fun w => mk (fsrOfBit (w.extractLsb' 2 1)) (modeOfBits (w.extractLsb' 0 2))⟩

def fmtIndNk (name : String) (bits : Word) (flags : List FlagName) (mk : Fsr → BitVec 6 → Instr) : Template :=
  ⟨name, bits, 0x3F80, [⟨.n, 6, 6⟩, ⟨.k, 5, 0⟩], .one 1, flags, fun _ => true,
    fun w => mk (fsrOfBit (w.extractLsb' 6 1)) (w.extractLsb' 0 6)⟩

def fmtTris (name : String) (bits : Word) (mk : BitVec 3 → Instr) : Template :=
  ⟨name, bits, 0x3FF8, [⟨.f, 2, 0⟩], .one 1, [], fun w => 5 ≤ (w.extractLsb' 0 3).toNat,
    fun w => mk (w.extractLsb' 0 3)⟩

def fmtInherent (name : String) (bits : Word) (cost : Cost) (flags : List FlagName) (i : Instr) : Template :=
  ⟨name, bits, 0x3FFF, [], cost, flags, fun _ => true, fun _ => i⟩

/-! The rows of R171, with the costs of R454 and the flags of R69. -/

def catalogAddSub : List Template :=
  [ fmtByteFd "ADDWF" 0x0700 (.one 1) [.c, .dc, .z] .addwf,
    fmtByteFd "ADDWFC" 0x3D00 (.one 1) [.c, .dc, .z] .addwfc,
    fmtLit8 "ADDLW" 0x3E00 (.one 1) [.c, .dc, .z] .addlw,
    fmtByteFd "SUBWF" 0x0200 (.one 1) [.c, .dc, .z] .subwf,
    fmtByteFd "SUBWFB" 0x3B00 (.one 1) [.c, .dc, .z] .subwfb,
    fmtLit8 "SUBLW" 0x3C00 (.one 1) [.c, .dc, .z] .sublw ]

def catalogLogic : List Template :=
  [ fmtByteFd "ANDWF" 0x0500 (.one 1) [.z] .andwf,
    fmtLit8 "ANDLW" 0x3900 (.one 1) [.z] .andlw,
    fmtByteFd "IORWF" 0x0400 (.one 1) [.z] .iorwf,
    fmtLit8 "IORLW" 0x3800 (.one 1) [.z] .iorlw,
    fmtByteFd "XORWF" 0x0600 (.one 1) [.z] .xorwf,
    fmtLit8 "XORLW" 0x3A00 (.one 1) [.z] .xorlw ]

def catalogIncDec : List Template :=
  [ fmtByteFd "INCF" 0x0A00 (.one 1) [.z] .incf,
    fmtByteFd "DECF" 0x0300 (.one 1) [.z] .decf,
    fmtByteFd "INCFSZ" 0x0F00 (.two 1 2) [] .incfsz,
    fmtByteFd "DECFSZ" 0x0B00 (.two 1 2) [] .decfsz ]

def catalogRotateShift : List Template :=
  [ fmtByteFd "RLF" 0x0D00 (.one 1) [.c] .rlf,
    fmtByteFd "RRF" 0x0C00 (.one 1) [.c] .rrf,
    fmtByteFd "LSLF" 0x3500 (.one 1) [.c, .z] .lslf,
    fmtByteFd "LSRF" 0x3600 (.one 1) [.c, .z] .lsrf,
    fmtByteFd "ASRF" 0x3700 (.one 1) [.c, .z] .asrf ]

def catalogBit : List Template :=
  [ fmtBitBf "BCF" 0x1000 (.one 1) .bcf,
    fmtBitBf "BSF" 0x1400 (.one 1) .bsf,
    fmtBitBf "BTFSC" 0x1800 (.two 1 2) .btfsc,
    fmtBitBf "BTFSS" 0x1C00 (.two 1 2) .btfss ]

def catalogMove : List Template :=
  [ fmtByteFd "MOVF" 0x0800 (.one 1) [.z] .movf,
    fmtByteF "MOVWF" 0x0080 [] .movwf,
    fmtLit8 "MOVLW" 0x3000 (.one 1) [] .movlw,
    fmtByteFd "COMF" 0x0900 (.one 1) [.z] .comf,
    fmtByteFd "SWAPF" 0x0E00 (.one 1) [] .swapf,
    fmtByteF "CLRF" 0x0180 [.z] .clrf,
    fmtClrw "CLRW" 0x0100 [.z] .clrw ]

def catalogControl : List Template :=
  [ fmtLit11 "GOTO" 0x2800 .goto,
    fmtLit11 "CALL" 0x2000 .call,
    fmtInherent "CALLW" 0x000A (.one 2) [] .callw,
    fmtRel9 "BRA" 0x3200 .bra,
    fmtInherent "BRW" 0x000B (.one 2) [] .brw,
    fmtInherent "RETURN" 0x0008 (.one 2) [] .ret,
    fmtLit8 "RETLW" 0x3400 (.one 2) [] .retlw,
    fmtInherent "RETFIE" 0x0009 (.one 2) [.c, .dc, .z] .retfie ]

def catalogSystem : List Template :=
  [ fmtLit5 "MOVLB" 0x0020 .movlb,
    fmtLit7 "MOVLP" 0x3180 .movlp,
    fmtInherent "OPTION" 0x0062 (.one 1) [] .option,
    fmtTris "TRIS" 0x0060 .tris,
    fmtInherent "NOP" 0x0000 (.one 1) [] .nop,
    fmtInherent "RESET" 0x0001 (.one 1) [.c, .dc, .z, .nPD, .nTO] .reset,
    fmtInherent "SLEEP" 0x0063 (.one 1) [.nPD, .nTO] .sleep,
    fmtInherent "CLRWDT" 0x0064 (.one 1) [.nPD, .nTO] .clrwdt ]

def catalogIndirect : List Template :=
  [ fmtIndNm "MOVIW" 0x0010 [.z] .moviw,
    fmtIndNk "MOVIWK" 0x3F00 [.z] .moviwk,
    fmtIndNm "MOVWI" 0x0018 [] .movwi,
    fmtIndNk "MOVWIK" 0x3F80 [] .movwik,
    fmtIndNk "ADDFSR" 0x3100 [] .addfsr ]

/-- The catalog (R162, R171), constant. -/
def catalog : List Template :=
  catalogAddSub ++ catalogLogic ++ catalogIncDec ++ catalogRotateShift ++ catalogBit ++ catalogMove
    ++ catalogControl ++ catalogSystem ++ catalogIndirect

/-! ## The decoder -/

/-- Why the decoder gives no instruction: not exactly one template matches (R164, R173). -/
inductive DecodeReject where
  | reserved (w : Word)
  | ambiguous (w : Word)
  deriving DecidableEq, Repr

/-- `Decode(w)` (R164, R166): total on all words; exactly one template must match. -/
def decode (w : Word) : Except DecodeReject Instr :=
  match catalog.filter (·.matches w) with
  | [] => .error (.reserved w)
  | [e] => .ok (e.build w)
  | _ :: _ :: _ => .error (.ambiguous w)

/-- The host's view of the decoder: an instruction is one 14-bit word, so a number of more bits is
none (log entry 11). -/
def decodeTableWord (_nbits w : Nat) : Option Instr :=
  if w < 2 ^ 14 then
    match decode (BitVec.ofNat 14 w) with
    | .ok i => some i
    | .error _ => none
  else none

/-! ## The encoder -/

/-- The word of an instruction, from the templates of R171: opcode bits and fields concatenated
(R168). -/
def encode : Instr → Word
  | .addwf d f => 0b000111#6 ++ destBit d ++ f
  | .addwfc d f => 0b111101#6 ++ destBit d ++ f
  | .addlw k => 0b111110#6 ++ k
  | .subwf d f => 0b000010#6 ++ destBit d ++ f
  | .subwfb d f => 0b111011#6 ++ destBit d ++ f
  | .sublw k => 0b111100#6 ++ k
  | .andwf d f => 0b000101#6 ++ destBit d ++ f
  | .andlw k => 0b111001#6 ++ k
  | .iorwf d f => 0b000100#6 ++ destBit d ++ f
  | .iorlw k => 0b111000#6 ++ k
  | .xorwf d f => 0b000110#6 ++ destBit d ++ f
  | .xorlw k => 0b111010#6 ++ k
  | .incf d f => 0b001010#6 ++ destBit d ++ f
  | .decf d f => 0b000011#6 ++ destBit d ++ f
  | .incfsz d f => 0b001111#6 ++ destBit d ++ f
  | .decfsz d f => 0b001011#6 ++ destBit d ++ f
  | .rlf d f => 0b001101#6 ++ destBit d ++ f
  | .rrf d f => 0b001100#6 ++ destBit d ++ f
  | .lslf d f => 0b110101#6 ++ destBit d ++ f
  | .lsrf d f => 0b110110#6 ++ destBit d ++ f
  | .asrf d f => 0b110111#6 ++ destBit d ++ f
  | .bcf b f => 0b0100#4 ++ b ++ f
  | .bsf b f => 0b0101#4 ++ b ++ f
  | .btfsc b f => 0b0110#4 ++ b ++ f
  | .btfss b f => 0b0111#4 ++ b ++ f
  | .movf d f => 0b001000#6 ++ destBit d ++ f
  | .movwf f => 0b0000001#7 ++ f
  | .movlw k => 0b110000#6 ++ k
  | .comf d f => 0b001001#6 ++ destBit d ++ f
  | .swapf d f => 0b001110#6 ++ destBit d ++ f
  | .clrf f => 0b0000011#7 ++ f
  | .clrw x => 0b000001000000#12 ++ x
  | .goto k => 0b101#3 ++ k
  | .call k => 0b100#3 ++ k
  | .callw => 0b00000000001010#14
  | .bra k => 0b11001#5 ++ k
  | .brw => 0b00000000001011#14
  | .ret => 0b00000000001000#14
  | .retlw k => 0b110100#6 ++ k
  | .retfie => 0b00000000001001#14
  | .movlb k => 0b000000001#9 ++ k
  | .movlp k => 0b1100011#7 ++ k
  | .option => 0b00000001100010#14
  | .tris f => 0b00000001100#11 ++ f
  | .nop => 0b00000000000000#14
  | .reset => 0b00000000000001#14
  | .sleep => 0b00000001100011#14
  | .clrwdt => 0b00000001100100#14
  | .moviw n m => 0b00000000010#11 ++ fsrBit n ++ modeBits m
  | .moviwk n k => 0b1111110#7 ++ fsrBit n ++ k
  | .movwi n m => 0b00000000011#11 ++ fsrBit n ++ modeBits m
  | .movwik n k => 0b1111111#7 ++ fsrBit n ++ k
  | .addfsr n k => 0b1100010#7 ++ fsrBit n ++ k

/-- Field values as a caller of the encoder or a reader of the decoded-instruction port sees them: a
field the template lacks is absent, not zero (R165). -/
structure Fields where
  b : Option Int := none
  d : Option Int := none
  f : Option Int := none
  n : Option Int := none
  m : Option Int := none
  k : Option Int := none
  x : Option Int := none
  deriving DecidableEq, Repr

def Fields.get (v : Fields) : FieldName → Option Int
  | .b => v.b
  | .d => v.d
  | .f => v.f
  | .n => v.n
  | .m => v.m
  | .k => v.k
  | .x => v.x

def Fields.set (v : Fields) (name : FieldName) (n : Int) : Fields :=
  match name with
  | .b => { v with b := some n }
  | .d => { v with d := some n }
  | .f => { v with f := some n }
  | .n => { v with n := some n }
  | .m => { v with m := some n }
  | .k => { v with k := some n }
  | .x => { v with x := some n }

/-- Why the encoder gives no word (R168, R170, R419). -/
inductive EncodeError where
  | unknownMnemonic
  | missingField (name : FieldName)
  deriving DecidableEq, Repr

/-- The value a field takes in an encoding: the one supplied, else 0b11 for x (R176), else an
error (R168). -/
def fieldValue (v : Fields) (F : Field) : Except EncodeError Int :=
  match v.get F.name with
  | some n => .ok n
  | none => if F.name = .x then .ok 0b11 else .error (.missingField F.name)

/-- One field's bits in place, truncated to its width (R168). -/
def placeField (F : Field) (n : Int) : Word :=
  BitVec.ofNat 14 ((n % (2 ^ F.width : Nat)).toNat <<< F.lo)

/-- The fields of a template, in canonical order, put into the word (R168). -/
def encodeFields (v : Fields) : List Field → Word → Except EncodeError Word
  | [], w => .ok w
  | F :: rest, w =>
    match fieldValue v F with
    | .ok n => encodeFields v rest (w ||| placeField F n)
    | .error e => .error e

/-- `Encode(mnemonic, fields)` (R168), the lookup not minding capitals. -/
def encodeNamed (mnemonic : String) (v : Fields) : Except EncodeError Word :=
  match catalog.find? (fun e => e.mnemonic.toList == mnemonic.toList.map Char.toUpper) with
  | none => .error .unknownMnemonic
  | some e => encodeFields v e.fields e.bits

/-- A decoded instruction as its template's mnemonic and field values (R165, R167); none for a word
that does not decode. -/
def decodeView (w : Word) : Option (String × Fields) :=
  match catalog.filter (·.matches w) with
  | [e] => some (e.mnemonic,
      e.fields.foldl (fun v F => v.set F.name (w.extractLsb' F.lo F.width).toNat) {})
  | _ => none

end Sys2Proof
end

