-- ==== Sys2Proof/Machine/State.lean ====
section
/-! DEFINITION. The state record (10_state R40), the fault kinds (60_exceptions R400) and the state
after reset (10_state R70, R71). -/

namespace Sys2Proof.Machine

/-- The fault kinds with the information each records (60_exceptions R400). An instruction's meaning
raises one by answering `fault`; the step then takes it (`takeFault`, R401), so a step itself never
ends in a fault. Each is safe: the spec gives exactly this effect. -/
inductive Fault where
  /-- A word that matches no template: raised by every step's fetch, and by the program-window reads of
  MOVIW, MOVIWK and the instructions that read a file operand through INDF (20_memory R115). Safe. -/
  | decodeError (a : PmAddr) (w : Word)
  /-- An indirect address 0x1000-0x1FFF, or a program-window read at 0x8800 or above (20_memory R112,
  R115): raised by MOVIW, MOVIWK, MOVWI, MOVWIK and by file operands through INDF; a host access by
  name to an address outside both ranges reports it (R103, R449). Safe. -/
  | addressError (p : Addr)
  /-- A program word never loaded: raised by every step's fetch and by program-window reads
  (10_state R61). Safe. -/
  | unloadedProgramWord (a : PmAddr)
  /-- A data access that resolves to TOSL or TOSH (10_state R59): raised by every instruction that
  reads or writes such a cell. Safe. -/
  | unmodelledRegister (c : Cell)
  /-- An interrupt the device would take or wake for is pending at the start of a step (R407, R408).
  Safe. -/
  | interruptNotModelled (intcon : Byte)
  deriving DecidableEq, Repr

/-- Why a machine has no meaning for an instruction. -/
inductive Refusal where
  /-- Raised by no arm of exec: every row of the opcode table has its meaning. Safe. -/
  | notModelled (mnemonic : String)
  deriving DecidableEq, Repr

/-- The execution status (10_state R62). -/
inductive Mode where
  | running
  | asleep
  | faulted (f : Fault)
  deriving DecidableEq, Repr

/-- The complete state of the core (10_state R40). -/
structure State where
  /-- Data memory, `sfr` and `gpr` (R41): the written cells by `Cell.key`, in canonical form. W, STATUS,
  BSR, PCLATH, FSR0, FSR1, INTCON, PCON, OPTION_REG, the TRIS registers, the shadow registers and
  STKPTR are cells of it (R42). -/
  mem : List Host.Cell
  /-- The MODEL's own field, not the spec's: how many resets there have been. What a cell that is not
  listed in `mem` reads as is its value after the last of them (`resetValue`, log entry 4). -/
  resets : Nat
  /-- The program counter, pch and PCL in one (R50); the cell PCL is a view of it (R51, log entry 7). -/
  pc : Pc
  /-- The return-address slots (R60). -/
  stack : Vector Pc 16
  /-- Program memory: the loaded words by address, in canonical form; an address not listed is
  `Unloaded` (R61). -/
  pmem : List (Nat × Word)
  /-- Running, Asleep or Faulted (R62). -/
  mode : Mode
  /-- Instruction cycles charged so far (R63). -/
  cycles : Nat
  deriving DecidableEq, Repr

/-- The core after its first power-on reset with no program loaded (10_state R70, R71; 70_reset R445).
No cell is listed, so each reads as its reset value; the draws are the values that log entries 1,
2 and 3 name. -/
def State.reset : State where
  mem := []
  resets := 0
  pc := 0
  stack := Vector.replicate 16 0
  pmem := []
  mode := .running
  cycles := 0

end Sys2Proof.Machine
end

