-- ==== Sys2Proof/Machine/Flags.lean ====
section
/-! DEFINITION. What the arithmetic unit computes: results with the flags they write
(40_add_sub R200, 10_state R44, R69). -/

namespace Sys2Proof.Machine

/-- The flags an instruction writes, each with its new value; `none` leaves the flag (R69). -/
structure FlagWrite where
  c : Option Bool := none
  dc : Option Bool := none
  z : Option Bool := none
  deriving DecidableEq, Repr

/-- Does the instruction write any of C, DC, Z (20_memory R110)? -/
def FlagWrite.any (F : FlagWrite) : Bool := F.c.isSome || F.dc.isSome || F.z.isSome

/-- A byte with one bit set to a value. -/
def putBit (v : Byte) (i : Nat) (b : Bool) : Byte :=
  if b then v ||| (1#8 <<< i) else v &&& ~~~(1#8 <<< i)

/-- A byte with one bit set to a value, or left as it is. -/
def putBit? (v : Byte) (i : Nat) : Option Bool → Byte
  | some b => putBit v i b
  | none => v

/-- STATUS with the flags written: C is bit 0, DC bit 1, Z bit 2 (10_state R44). -/
def FlagWrite.onStatus (F : FlagWrite) (status : Byte) : Byte :=
  putBit? (putBit? (putBit? status 0 F.c) 1 F.dc) 2 F.z

/-- A result byte and the flags that come with it. -/
structure AluResult where
  value : Byte
  flags : FlagWrite := {}
  deriving DecidableEq, Repr

/-- `AddC(a, b, cin)` (40_add_sub R200) with Z, which is `r = 0` in every instruction of that file. -/
def addC (a b : Byte) (cin : Bool) : AluResult :=
  let s := a.toNat + b.toNat + cin.toNat
  let r := BitVec.ofNat 8 (s % 256)
  let c := s / 256
  let dc := (a.toNat % 16 + b.toNat % 16 + cin.toNat) / 16
  ⟨r, { c := some (c == 1), dc := some (dc == 1), z := some (r == 0) }⟩

/-- A result that writes Z only (41_logic R220, 42_incdec R241, 45_move R301). -/
def withZ (r : Byte) : AluResult := ⟨r, { z := some (r == 0) }⟩

/-- A result that writes no flag (42_incdec R243, 45_move R305). -/
def plain (r : Byte) : AluResult := ⟨r, {}⟩

/-- A rotate's result: the bit shifted out goes to C (43_rotate_shift R260). -/
def withC (r : Byte) (c : Bool) : AluResult := ⟨r, { c := some c }⟩

/-- A shift's result: the bit shifted out goes to C, and Z is set (43_rotate_shift R260). -/
def withCZ (r : Byte) (c : Bool) : AluResult := ⟨r, { c := some c, z := some (r == 0) }⟩

end Sys2Proof.Machine
end

