-- ==== Sys2Proof/Machine/Ops.lean ====
section
/-! DEFINITION. The named operations over memory and registers: data storage, program memory, the
registers, the program counter, the return-address stack, reset, and taking a fault. -/

namespace Sys2Proof.Machine

abbrev Exec := Host.Outcome State Fault Refusal

/-! ## Lists of (address, value) pairs in canonical form -/

/-- The value listed at an address. -/
def Assoc.find {α : Type} : List (Nat × α) → Nat → Option α
  | [], _ => none
  | (k, b) :: m, a => if a = k then some b else Assoc.find m a

/-- List a value at an address, in its place. -/
def Assoc.insert {α : Type} (a : Nat) (v : α) : List (Nat × α) → List (Nat × α)
  | [] => [(a, v)]
  | (k, b) :: m =>
    if a < k then (a, v) :: (k, b) :: m
    else if a = k then (a, v) :: m
    else (k, b) :: Assoc.insert a v m

/-- List nothing at an address. -/
def Assoc.erase {α : Type} (a : Nat) (m : List (Nat × α)) : List (Nat × α) :=
  m.filter (fun e => e.1 != a)

/-- Addresses strictly rising. -/
abbrev Assoc.rising {α : Type} (m : List (Nat × α)) : Prop := (m.map Prod.fst).Pairwise (· < ·)

/-- What memory holds at an address: the byte listed there, else what an unlisted address reads as. -/
def Memory.read (base : Nat → Byte) (m : List Host.Cell) (a : Nat) : Byte :=
  (Assoc.find m a).getD (base a)

/-- Write a byte. Writing what an unlisted address reads as removes the entry. -/
def Memory.write (base : Nat → Byte) (m : List Host.Cell) (a : Nat) (v : Byte) : List Host.Cell :=
  if v = base a then Assoc.erase a m else Assoc.insert a v m

/-- The canonical form: addresses strictly rising, all of them cells, and no entry equal to what an
unlisted address reads as. -/
abbrev Memory.wf (base : Nat → Byte) (m : List Host.Cell) : Prop :=
  Assoc.rising m ∧ ∀ e ∈ m, e.1 < Cell.count ∧ e.2 ≠ base e.1

/-- The canonical form of program memory: addresses strictly rising, all below PMEM_WORDS (R9). -/
abbrev Pmem.wf (m : List (Nat × Word)) : Prop :=
  Assoc.rising m ∧ ∀ e ∈ m, e.1 < 2048

/-! ## Reset values (10_state R70) -/

/-- A draw that the n-th reset leaves in a cell: a free value, but for the state the model starts from
(n = 0), where it is 0. DESIGN CHOICE, log entries 1 and 4. -/
def resetDraw (n : Nat) (c : Cell) : Byte := if n = 0 then 0 else Config.resetDraw n c

/-- POWER_ON_DEFAULTS(c), a draw where the parameter says unspecified (R441), and 0 in the state the
model starts from. DESIGN CHOICE, log entries 1 and 4. -/
def powerOnValue (n : Nat) (c : Cell) : Byte :=
  if n = 0 then 0 else (Config.powerOnDefault c).getD (Config.resetDraw n c)

/-- PCON_RESET_LOW (R70), and 0 in the state the model starts from. DESIGN CHOICE, log entry 2. -/
def pconResetLow (n : Nat) : BitVec 4 := if n = 0 then 0 else Config.pconResetLow

/-- What a data cell holds after the n-th reset (10_state R70, 70_reset R441). This is what a cell that
nothing has written since reads as. -/
def resetValue (n : Nat) (c : Cell) : Byte :=
  if c = .status then 0x18 ||| (resetDraw n c &&& 0x07)
  else if c ∈ [.wreg, .bsr, .pclath, .fsr0l, .fsr0h, .fsr1l, .fsr1h, .pcl] then 0x00
  else if c = .intcon then resetDraw n c &&& 0x01
  else if c = .pcon then 0#4 ++ pconResetLow n
  else if c = .stkptr then 0x1F
  else if c ∈ [.optionReg, .trisa, .trisb] then 0xFF
  else if c ∈ Cell.shadows then resetDraw n c
  else powerOnValue n c

/-- `resetValue` by place in the list. -/
def resetBase (n : Nat) : Nat → Byte := fun k => resetValue n (Cell.ofKey k)

/-! ## Data cells (20_memory R104) -/

/-- The byte stored in a cell. -/
def State.stored (s : State) (c : Cell) : Byte := Memory.read (resetBase s.resets) s.mem c.key

/-- Store a byte in a cell; no register behaviour. -/
def State.store (s : State) (c : Cell) (v : Byte) : State :=
  { s with mem := Memory.write (resetBase s.resets) s.mem c.key v }

/-- The byte of every cell as the record of R40 has it: PCL's is pc[7:0] (R51). -/
def State.cellByte (s : State) (c : Cell) : Byte :=
  if c = .pcl then s.pc.extractLsb' 0 8 else s.stored c

/-! ## Registers (10_state §2, §4) -/

def State.w (s : State) : Byte := s.stored .wreg
def State.setW (s : State) (v : Byte) : State := s.store .wreg v

def State.status (s : State) : Byte := s.stored .status

/-- STATUS.C, the carry in (R44). -/
def State.carry (s : State) : Bool := s.status.getLsbD 0

/-- Set the flags of F (20_memory R110: after the destination write). -/
def State.setFlags (s : State) (F : FlagWrite) : State :=
  if F.any then s.store .status (F.onStatus s.status) else s

/-- Set STATUS.nPD (bit 3) and STATUS.nTO (bit 4) (47_system R357, R358). -/
def State.setPdTo (s : State) (nPD nTO : Bool) : State :=
  s.store .status (putBit (putBit s.status 3 nPD) 4 nTO)

def State.bsr (s : State) : BitVec 5 := (s.stored .bsr).extractLsb' 0 5
def State.setBsr (s : State) (v : BitVec 5) : State := s.store .bsr (v.setWidth 8)

def State.pclath (s : State) : BitVec 7 := (s.stored .pclath).extractLsb' 0 7
def State.setPclath (s : State) (v : BitVec 7) : State := s.store .pclath (v.setWidth 8)

/-- FSRn as a 16-bit pointer, FSRnH : FSRnL (R48). -/
def State.fsr (s : State) (n : Fsr) : Addr := s.stored (.fsrHigh n) ++ s.stored (.fsrLow n)

/-- Write FSRn: p[7:0] to FSRnL and p[15:8] to FSRnH (R48, 48_indirect R380). -/
def State.setFsr (s : State) (n : Fsr) (p : Addr) : State :=
  (s.store (.fsrLow n) (p.extractLsb' 0 8)).store (.fsrHigh n) (p.extractLsb' 8 8)

def State.intcon (s : State) : Byte := s.stored .intcon
def State.gie (s : State) : Bool := s.intcon.getLsbD 7

/-! ## The program counter (10_state §3, 46_control R320) -/

def State.setPc (s : State) (p : Pc) : State := { s with pc := p }

/-- pc + 1 (15 bits): the fetch's advance (70_reset R447). -/
def State.advance (s : State) : State := s.setPc (s.pc + 1)

/-- `Skip()` (00_scope R14). -/
def State.skip (s : State) : State := s.setPc (s.pc + 1)

/-- The target of GOTO and CALL: PCLATH[6:3] : k (46_control R321, R322). -/
def State.pageTarget (s : State) (k : BitVec 11) : Pc := s.pclath.extractLsb' 3 4 ++ k

/-- The target of CALLW and of a write to PCL: PCLATH[6:0] : v (46_control R323, 20_memory R109). -/
def State.latchTarget (s : State) (v : Byte) : Pc := s.pclath ++ v

def State.charge (s : State) (n : Nat) : State := { s with cycles := s.cycles + n }

def State.setMode (s : State) (m : Mode) : State := { s with mode := m }

/-! ## The return-address stack (10_state §5) -/

/-- STKPTR, 5 bits (R58). -/
def State.sp (s : State) : BitVec 5 := (s.stored .stkptr).extractLsb' 0 5

/-- Write STKPTR with a slot number. -/
def State.setSp (s : State) (i : BitVec 4) : State := s.store .stkptr (i.setWidth 8)

def State.slot (s : State) (i : BitVec 4) : Pc := s.stack[i.toNat]'i.isLt

def State.setSlot (s : State) (i : BitVec 4) (v : Pc) : State :=
  { s with stack := s.stack.set i.toNat v i.isLt }

/-- Set a sticky bit of PCON: 7 is STKOVF, 6 is STKUNF (R55). -/
def State.setSticky (s : State) (i : Nat) : State := s.store .pcon (putBit (s.stored .pcon) i true)

/-- `Push(v)` (10_state R66). -/
def State.push (s : State) (v : Pc) : State :=
  let sp := s.sp
  let s := if sp = 15 then s.setSticky 7 else s
  let i : BitVec 4 := (sp + 1).setWidth 4
  (s.setSp i).setSlot i v

/-- The slot that `Pop()` reads: STKPTR mod 16 (10_state R67). -/
def State.top (s : State) : Pc := s.slot (s.sp.setWidth 4)

/-- `Pop()` but for the value it returns, which is `top` (10_state R67). -/
def State.pop (s : State) : State :=
  let sp := s.sp
  let s := if sp = 0 then s.setSticky 6 else s
  s.setSp ((sp - 1).setWidth 4)

/-! ## Program memory (10_state R61) -/

/-- `PmRead(a)`. -/
def State.pmRead (s : State) (a : PmAddr) : Except Fault Word :=
  match Assoc.find s.pmem a.toNat with
  | some w => .ok w
  | none => .error (.unloadedProgramWord a)

/-- The fetch address: only the low 11 bits of pc (10_state R52). -/
def State.fetchAddr (s : State) : PmAddr := s.pc.extractLsb' 0 11

/-- Read the word at the fetch address and decode it (70_reset R447). -/
def State.fetch (s : State) : Except Fault Instr :=
  match s.pmRead s.fetchAddr with
  | .error e => .error e
  | .ok w =>
    match decode w with
    | .ok i => .ok i
    | .error _ => .error (.decodeError s.fetchAddr w)

/-! ## Reset (70_reset R441) -/

inductive ResetCause where
  | powerOn
  | software
  deriving DecidableEq, Repr

/-- `ResetState(cause)`. Every cell takes its value after this reset: none stays listed, and the count
of resets moves on, so that the draws are fresh. Program memory is kept. -/
def State.resetState (s : State) (cause : ResetCause) : State :=
  let s := { s with mem := [], resets := s.resets + 1, pc := 0, mode := .running }
  match cause with
  | .software => s
  | .powerOn => { s with stack := Vector.ofFn (Config.stackDraw s.resets), cycles := 0 }

/-! ## Faults and interrupts (60_exceptions) -/

/-- Taking a fault: the state before the step, in mode Faulted(kind, info) (R401). -/
def State.takeFault (s : State) (f : Fault) : State := s.setMode (.faulted f)

/-- The pending test (R406). -/
def State.pending (s : State) : Bool :=
  (s.intcon.extractLsb' 3 3 &&& s.intcon.extractLsb' 0 3) != 0
    || (s.intcon.getLsbD 6 && Config.periphPending s.cellByte)

/-- A step's outcome from the state before it and what the instruction answered: a fault undoes the
whole step and is taken (R401). -/
def State.settle (s : State) : Exec → Exec
  | .next t => .next t
  | .fault f => .next (s.takeFault f)
  | .refused r => .refused r

/-- `Step()` (70_reset R447, 60_exceptions R402, R404, R407, R408) over the instructions' meanings. In
mode Faulted, and Asleep with nothing pending, the state stays as it is and its mode is the report. -/
def State.cycle (run : Instr → State → Exec) (s : State) : Exec :=
  match s.mode with
  | .faulted _ => .next s
  | .asleep => if s.pending then .next (s.takeFault (.interruptNotModelled s.intcon)) else .next s
  | .running =>
    if s.gie && s.pending then .next (s.takeFault (.interruptNotModelled s.intcon))
    else
      match s.fetch with
      | .error f => .next (s.takeFault f)
      | .ok i => s.settle (run i s.advance)

/-- What a meaning answers: the next state, or the fault it raised. -/
def outcome : Except Fault State → Exec
  | .ok s => .next s
  | .error f => .fault f

end Sys2Proof.Machine
end

