-- ==== Sys2Proof/Machine/Operands.lean ====
section
/-! DEFINITION. Address translation and the operand forms of the instructions (20_memory). -/

namespace Sys2Proof.Machine

/-! ## The translator (20_memory §2) -/

/-- Translate(a) in the traditional regime, the cases in order (R101). -/
def translateTraditional (a : BitVec 12) : Cell :=
  have := a.isLt
  let bank := a.toNat / 128
  let loc := a.toNat % 128
  if h1 : loc ≤ 0x0B then .sfr 0 ⟨loc, by omega⟩
  else if h2 : loc < 0x20 then .sfr ⟨bank, by omega⟩ ⟨loc, by omega⟩
  else if h3 : bank = 0 ∨ loc ≥ 0x70 then .gpr ⟨loc - 0x20, by omega⟩
  else if h4 : bank = 31 ∧ loc ≥ 0x60 then .sfr 31 ⟨loc - 0x50, by omega⟩
  else .gpr ⟨0x10 + bank * 0x50 + (loc - 0x20), by omega⟩

/-- Translate(a) in the linear regime, for 0x2000 + o (R102). -/
def translateLinear (o : Fin 0x9B0) : Cell :=
  have := o.isLt
  let bank := o.val / 0x50
  let loc := o.val % 0x50
  if bank = 0 then .gpr ⟨loc, by omega⟩ else .gpr ⟨o.val + 0x10, by omega⟩

/-- Translate(a) (R101, R102, R103). -/
def translateAddr (a : Addr) : Except Fault Cell :=
  if a.toNat ≤ 0x0FFF then .ok (translateTraditional (a.extractLsb' 0 12))
  else if h : 0x2000 ≤ a.toNat ∧ a.toNat ≤ 0x29AF then
    .ok (translateLinear ⟨a.toNat - 0x2000, by omega⟩)
  else .error (.addressError a)

/-! ## Core-level cell access (20_memory R108, R109) -/

/-- `CellRead(c)` (R108). -/
def State.cellRead (s : State) (c : Cell) : Except Fault Byte :=
  if c = .pcl then .ok (s.pc.extractLsb' 0 8)
  else if c = .indf0 ∨ c = .indf1 then .ok 0
  else if c = .tosl ∨ c = .tosh then .error (.unmodelledRegister c)
  else if c = .status then .ok ((s.status.extractLsb' 0 5).setWidth 8)
  else .ok (s.stored c)

/-- `CellWrite(c, v)` (R109). -/
def State.cellWrite (s : State) (c : Cell) (v : Byte) : Except Fault State :=
  if c = .pcl then .ok (s.setPc (s.latchTarget v))
  else if c = .indf0 ∨ c = .indf1 then .ok s
  else if c = .tosl ∨ c = .tosh then .error (.unmodelledRegister c)
  else if c = .status then .ok (s.store .status ((s.status &&& 0x18) ||| (v &&& 0x07)))
  else if c = .bsr then .ok (s.store .bsr (v &&& 0x1F))
  else if c = .pclath then .ok (s.store .pclath (v &&& 0x7F))
  else if c = .stkptr then .ok (s.store .stkptr (v &&& 0x1F))
  else .ok (s.store c v)

/-- `MemRead(a, 1)` (R108). -/
def State.memRead (s : State) (a : Addr) : Except Fault Byte :=
  match translateAddr a with
  | .ok c => s.cellRead c
  | .error e => .error e

/-- `MemWrite(a, 1, v)` (R109). -/
def State.memWrite (s : State) (a : Addr) (v : Byte) : Except Fault State :=
  match translateAddr a with
  | .ok c => s.cellWrite c v
  | .error e => .error e

/-! ## Targets (20_memory R111 to R115) -/

/-- What an operand resolves to (R112). -/
inductive Target where
  | cell (c : Cell)
  | null
  | prog (a : BitVec 15)
  deriving DecidableEq, Repr

/-- `IndTarget(p)` (R112). -/
def indTarget (p : Addr) : Except Fault Target :=
  if p.toNat ≤ 0x0FFF ∨ (0x2000 ≤ p.toNat ∧ p.toNat ≤ 0x29AF) then
    match translateAddr p with
    | .ok c => .ok (.cell c)
    | .error e => .error e
  else if p.toNat ≤ 0x1FFF then .error (.addressError p)
  else if p.toNat ≤ 0x7FFF then .ok .null
  else .ok (.prog (p.extractLsb' 0 15))

/-- `FileAddr(f)`: BSR[4:0] : f[6:0] (R107). -/
def State.fileAddr (s : State) (f : FileReg) : BitVec 12 := s.bsr ++ f

/-- `FileTarget(f)`: a direct file operand, INDF0 and INDF1 going through their pointer (R111). -/
def State.fileTarget (s : State) (f : FileReg) : Except Fault Target :=
  let c := translateTraditional (s.fileAddr f)
  if c = .indf0 then indTarget (s.fsr .fsr0)
  else if c = .indf1 then indTarget (s.fsr .fsr1)
  else .ok (.cell c)

/-- `ProgByte(a)`: a read of the program window (R115). -/
def State.progByte (s : State) (a : BitVec 15) : Except Fault Byte :=
  if 2048 ≤ a.toNat then .error (.addressError (BitVec.ofNat 16 (0x8000 + a.toNat)))
  else
    match s.pmRead (a.extractLsb' 0 11) with
    | .error e => .error e
    | .ok w =>
      match decode w with
      | .error _ => .error (.decodeError (a.extractLsb' 0 11) w)
      | .ok _ => .ok (w.extractLsb' 0 8)

/-- `TRead(t)` (R113). -/
def State.tRead (s : State) : Target → Except Fault Byte
  | .cell c => s.cellRead c
  | .null => .ok 0
  | .prog a => s.progByte a

/-- `TWrite(t, v)` (R114). -/
def State.tWrite (s : State) (t : Target) (v : Byte) : Except Fault State :=
  match t with
  | .cell c => s.cellWrite c v
  | .null => .ok s
  | .prog _ => .ok s

/-- `IndRead(p)` (R113). -/
def State.indRead (s : State) (p : Addr) : Except Fault Byte :=
  match indTarget p with
  | .ok t => s.tRead t
  | .error e => .error e

/-- `IndWrite(p, v)` (R114). -/
def State.indWrite (s : State) (p : Addr) (v : Byte) : Except Fault State :=
  match indTarget p with
  | .ok t => s.tWrite t v
  | .error e => .error e

/-- `WriteDest(d, t, v, F)`: STATUS as the destination of a flag-writing instruction takes no result
(R110). -/
def State.writeDest (s : State) (d : Dest) (t : Target) (r : AluResult) : Except Fault State :=
  match d with
  | .w => .ok (s.setW r.value)
  | .f => if t = .cell .status ∧ r.flags.any then .ok s else s.tWrite t r.value

/-! ## The shared shapes of the instructions' pseudocode -/

/-- The shape of every instruction with a file operand and a result: resolve the operand once, read it,
compute, write the destination, then the flags (R110). -/
def State.fileUpdate (s : State) (d : Dest) (f : FileReg) (op : Byte → AluResult) :
    Except Fault (AluResult × State) := do
  let t ← s.fileTarget f
  let v ← s.tRead t
  let r := op v
  let s ← s.writeDest d t r
  return (r, s.setFlags r.flags)

/-- A file instruction of cost 1. -/
def State.fileOp (s : State) (d : Dest) (f : FileReg) (op : Byte → AluResult) : Exec := outcome do
  let (_, s) ← s.fileUpdate d f op
  return s.charge 1

/-- A file instruction that skips when its result is 0: cost 2 when it skips, else 1
(42_incdec R240). -/
def State.fileOpSkip (s : State) (d : Dest) (f : FileReg) (op : Byte → AluResult) : Exec := outcome do
  let (r, s) ← s.fileUpdate d f op
  return if r.value = 0 then s.skip.charge 2 else s.charge 1

/-- A literal instruction of cost 1 whose result goes to W (40_add_sub R203, 41_logic R220). -/
def State.literalOp (s : State) (r : AluResult) : Exec :=
  .next (((s.setW r.value).setFlags r.flags).charge 1)

/-- A file instruction that only writes its operand, with the protection of STATUS that its flags ask
for (45_move R300, R306). -/
def State.fileStore (s : State) (f : FileReg) (r : AluResult) : Exec := outcome do
  let t ← s.fileTarget f
  let s ← s.writeDest .f t r
  return (s.setFlags r.flags).charge 1

/-- A bit test that skips (44_bit R280). -/
def State.bitTest (s : State) (b : BitVec 3) (f : FileReg) (skipIf : Bool) : Exec := outcome do
  let t ← s.fileTarget f
  let v ← s.tRead t
  return if v.getLsbD b.toNat = skipIf then s.skip.charge 2 else s.charge 1

/-- The pointer of a mode after its update (48_indirect R380), modulo 2^16. -/
def updatedPointer (m : PtrMode) (p : Addr) : Addr :=
  match m with
  | .preInc | .postInc => p + 1
  | .preDec | .postDec => p - 1

/-- A pre-mode updates the pointer before the access, a post-mode after it (48_indirect R380). -/
def isPre : PtrMode → Bool
  | .preInc | .preDec => true
  | .postInc | .postDec => false

/-- The address a pointer mode accesses (48_indirect R381, R383). -/
def accessPointer (m : PtrMode) (p : Addr) : Addr := if isPre m then updatedPointer m p else p

/-- The state a pointer mode accesses in: a pre-mode has written FSRn (48_indirect R380). -/
def State.beforeAccess (s : State) (n : Fsr) (m : PtrMode) : State :=
  if isPre m then s.setFsr n (updatedPointer m (s.fsr n)) else s

/-- The last write of a post-mode: FSRn from the old pointer `p` (48_indirect R380). -/
def State.afterAccess (s : State) (n : Fsr) (m : PtrMode) (p : Addr) : State :=
  if isPre m then s else s.setFsr n (updatedPointer m p)

/-- The address of an indexed access: FSRn + sext_16(k) (48_indirect R382, R384). -/
def State.indexed (s : State) (n : Fsr) (k : BitVec 6) : Addr := s.fsr n + k.signExtend 16

end Sys2Proof.Machine
end

