-- ==== Sys2Proof/Machine/AddSub.lean ====
section
/-! DEFINITION. Add and subtract instructions (40_add_sub). -/

namespace Sys2Proof.Machine

/-- ADDWF f,d (R201). -/
def execAddwf (d : Dest) (f : FileReg) (s : State) : Exec := s.fileOp d f fun v => addC v s.w false

/-- ADDWFC f,d (R202). -/
def execAddwfc (d : Dest) (f : FileReg) (s : State) : Exec := s.fileOp d f fun v => addC v s.w s.carry

/-- ADDLW k (R203). -/
def execAddlw (k : Byte) (s : State) : Exec := s.literalOp (addC s.w k false)

/-- SUBWF f,d: f - W (R204, R208). -/
def execSubwf (d : Dest) (f : FileReg) (s : State) : Exec := s.fileOp d f fun v => addC v (~~~s.w) true

/-- SUBWFB f,d: f - W - (1 - C) (R205). -/
def execSubwfb (d : Dest) (f : FileReg) (s : State) : Exec :=
  s.fileOp d f fun v => addC v (~~~s.w) s.carry

/-- SUBLW k: k - W (R206). -/
def execSublw (k : Byte) (s : State) : Exec := s.literalOp (addC k (~~~s.w) true)

end Sys2Proof.Machine
end

