-- ==== Sys2Proof/Machine/Bit.lean ====
section
/-! DEFINITION. Bit instructions (44_bit). -/

namespace Sys2Proof.Machine

/-- BCF f,b (R281): no flag is written, so STATUS is written through TWrite (R280). -/
def execBcf (b : BitVec 3) (f : FileReg) (s : State) : Exec :=
  s.fileOp .f f fun v => plain (putBit v b.toNat false)

/-- BSF f,b (R282). -/
def execBsf (b : BitVec 3) (f : FileReg) (s : State) : Exec :=
  s.fileOp .f f fun v => plain (putBit v b.toNat true)

/-- BTFSC f,b: skip if clear (R283). -/
def execBtfsc (b : BitVec 3) (f : FileReg) (s : State) : Exec := s.bitTest b f false

/-- BTFSS f,b: skip if set (R284). -/
def execBtfss (b : BitVec 3) (f : FileReg) (s : State) : Exec := s.bitTest b f true

end Sys2Proof.Machine
end

