-- ==== Sys2Proof/Machine/Control.lean ====
section
/-! DEFINITION. Control-transfer instructions (46_control). Inside an instruction pc already holds the
address of the next one (00_scope R16). -/

namespace Sys2Proof.Machine

/-- GOTO k (R321). -/
def execGoto (k : BitVec 11) (s : State) : Exec := .next ((s.setPc (s.pageTarget k)).charge 2)

/-- CALL k (R322). -/
def execCall (k : BitVec 11) (s : State) : Exec :=
  let s := s.push s.pc
  .next ((s.setPc (s.pageTarget k)).charge 2)

/-- CALLW (R323). -/
def execCallw (s : State) : Exec :=
  let s := s.push s.pc
  .next ((s.setPc (s.latchTarget s.w)).charge 2)

/-- BRA k: pc + sext_15(k) (R324). -/
def execBra (k : BitVec 9) (s : State) : Exec := .next ((s.setPc (s.pc + k.signExtend 15)).charge 2)

/-- BRW: pc + zext_15(W) (R325). -/
def execBrw (s : State) : Exec := .next ((s.setPc (s.pc + s.w.setWidth 15)).charge 2)

/-- pc <- Pop() (10_state R67). -/
def State.popPc (s : State) : State := s.pop.setPc s.top

/-- RETURN (R326). -/
def execReturn (s : State) : Exec := .next (s.popPc.charge 2)

/-- RETLW k (R327). -/
def execRetlw (k : Byte) (s : State) : Exec := .next ((s.setW k).popPc.charge 2)

/-- A register takes its shadow's bits under a mask (R328). -/
def State.copyCell (s : State) (src dst : Cell) (mask : Byte) : State := s.store dst (s.stored src &&& mask)

/-- C, DC and Z come from STATUS_SHAD; nTO and nPD stay (R328). -/
def State.restoreStatus (s : State) : State :=
  s.store .status ((s.status &&& 0xF8) ||| (s.stored .statusShad &&& 0x07))

/-- Restore the registers from the shadow cells (R328). -/
def State.restoreShadows (s : State) : State :=
  (((((((s.copyCell .wregShad .wreg 0xFF).restoreStatus.copyCell .bsrShad .bsr 0x1F).copyCell
    .pclathShad .pclath 0x7F).copyCell .fsr0lShad .fsr0l 0xFF).copyCell
    .fsr0hShad .fsr0h 0xFF).copyCell .fsr1lShad .fsr1l 0xFF).copyCell .fsr1hShad .fsr1h 0xFF)

/-- Set INTCON.GIE (R328). -/
def State.setGie (s : State) : State := s.store .intcon (putBit s.intcon 7 true)

/-- RETFIE: the return from an interrupt (R328, 60_exceptions R410). -/
def execRetfie (s : State) : Exec := .next (s.popPc.restoreShadows.setGie.charge 2)

end Sys2Proof.Machine
end

