-- ==== Sys2Proof/Machine/IncDec.lean ====
section
/-! DEFINITION. Increment and decrement instructions (42_incdec). -/

namespace Sys2Proof.Machine

/-- INCF f,d (R241). -/
def execIncf (d : Dest) (f : FileReg) (s : State) : Exec := s.fileOp d f fun v => withZ (v + 1)

/-- DECF f,d (R242). -/
def execDecf (d : Dest) (f : FileReg) (s : State) : Exec := s.fileOp d f fun v => withZ (v - 1)

/-- INCFSZ f,d (R243). -/
def execIncfsz (d : Dest) (f : FileReg) (s : State) : Exec := s.fileOpSkip d f fun v => plain (v + 1)

/-- DECFSZ f,d (R244). -/
def execDecfsz (d : Dest) (f : FileReg) (s : State) : Exec := s.fileOpSkip d f fun v => plain (v - 1)

end Sys2Proof.Machine
end

