-- ==== Sys2Proof/Machine/Indirect.lean ====
section
/-! DEFINITION. Indirect-addressing instructions (48_indirect). -/

namespace Sys2Proof.Machine

/-- MOVIW mode FSRn (R381). -/
def execMoviw (n : Fsr) (m : PtrMode) (s : State) : Exec := outcome do
  let p := s.fsr n
  let s := s.beforeAccess n m
  let v ← s.indRead (accessPointer m p)
  let s := (s.setW v).setFlags (withZ v).flags
  return (s.afterAccess n m p).charge 1

/-- MOVIW k[FSRn] (R382). -/
def execMoviwk (n : Fsr) (k : BitVec 6) (s : State) : Exec := outcome do
  let v ← s.indRead (s.indexed n k)
  return ((s.setW v).setFlags (withZ v).flags).charge 1

/-- MOVWI mode FSRn (R383). -/
def execMovwi (n : Fsr) (m : PtrMode) (s : State) : Exec := outcome do
  let p := s.fsr n
  let s := s.beforeAccess n m
  let s ← s.indWrite (accessPointer m p) s.w
  return (s.afterAccess n m p).charge 1

/-- MOVWI k[FSRn] (R384). -/
def execMovwik (n : Fsr) (k : BitVec 6) (s : State) : Exec := outcome do
  let s ← s.indWrite (s.indexed n k) s.w
  return s.charge 1

/-- ADDFSR FSRn,k (R385). -/
def execAddfsr (n : Fsr) (k : BitVec 6) (s : State) : Exec :=
  .next ((s.setFsr n (s.indexed n k)).charge 1)

end Sys2Proof.Machine
end

