-- ==== Sys2Proof/Machine/Logic.lean ====
section
/-! DEFINITION. Logic instructions (41_logic). -/

namespace Sys2Proof.Machine

/-- ANDWF f,d (R221). -/
def execAndwf (d : Dest) (f : FileReg) (s : State) : Exec := s.fileOp d f fun v => withZ (v &&& s.w)

/-- ANDLW k (R222). -/
def execAndlw (k : Byte) (s : State) : Exec := s.literalOp (withZ (s.w &&& k))

/-- IORWF f,d (R223). -/
def execIorwf (d : Dest) (f : FileReg) (s : State) : Exec := s.fileOp d f fun v => withZ (v ||| s.w)

/-- IORLW k (R224). -/
def execIorlw (k : Byte) (s : State) : Exec := s.literalOp (withZ (s.w ||| k))

/-- XORWF f,d (R225). -/
def execXorwf (d : Dest) (f : FileReg) (s : State) : Exec := s.fileOp d f fun v => withZ (v ^^^ s.w)

/-- XORLW k (R226). -/
def execXorlw (k : Byte) (s : State) : Exec := s.literalOp (withZ (s.w ^^^ k))

end Sys2Proof.Machine
end

