-- ==== Sys2Proof/Machine/Move.lean ====
section
/-! DEFINITION. Move, complement, swap and clear instructions (45_move). -/

namespace Sys2Proof.Machine

/-- MOVF f,d (R301). -/
def execMovf (d : Dest) (f : FileReg) (s : State) : Exec := s.fileOp d f fun v => withZ v

/-- MOVWF f: the operand is written, not read (R302). -/
def execMovwf (f : FileReg) (s : State) : Exec := s.fileStore f (plain s.w)

/-- MOVLW k (R303). -/
def execMovlw (k : Byte) (s : State) : Exec := s.literalOp (plain k)

/-- COMF f,d (R304). -/
def execComf (d : Dest) (f : FileReg) (s : State) : Exec := s.fileOp d f fun v => withZ (~~~v)

/-- SWAPF f,d: v[3:0] : v[7:4] (R305). -/
def execSwapf (d : Dest) (f : FileReg) (s : State) : Exec :=
  s.fileOp d f fun v => plain (v.extractLsb' 0 4 ++ v.extractLsb' 4 4)

/-- CLRF f: the operand is written, not read; Z becomes 1 (R306). -/
def execClrf (f : FileReg) (s : State) : Exec := s.fileStore f (withZ 0)

/-- CLRW: the field x is ignored (R307). -/
def execClrw (_x : BitVec 2) (s : State) : Exec := s.literalOp (withZ 0)

end Sys2Proof.Machine
end

