-- ==== Sys2Proof/Machine/RotateShift.lean ====
section
/-! DEFINITION. Rotate and shift instructions (43_rotate_shift). -/

namespace Sys2Proof.Machine

/-- RLF f,d: v[6:0] : C (R261). -/
def execRlf (d : Dest) (f : FileReg) (s : State) : Exec :=
  s.fileOp d f fun v => withC (v.extractLsb' 0 7 ++ BitVec.ofBool s.carry) (v.getLsbD 7)

/-- RRF f,d: C : v[7:1] (R262). -/
def execRrf (d : Dest) (f : FileReg) (s : State) : Exec :=
  s.fileOp d f fun v => withC (BitVec.ofBool s.carry ++ v.extractLsb' 1 7) (v.getLsbD 0)

/-- LSLF f,d: v[6:0] : 0 (R263). -/
def execLslf (d : Dest) (f : FileReg) (s : State) : Exec :=
  s.fileOp d f fun v => withCZ (v.extractLsb' 0 7 ++ 0#1) (v.getLsbD 7)

/-- LSRF f,d: 0 : v[7:1] (R264). -/
def execLsrf (d : Dest) (f : FileReg) (s : State) : Exec :=
  s.fileOp d f fun v => withCZ (0#1 ++ v.extractLsb' 1 7) (v.getLsbD 0)

/-- ASRF f,d: v[7] : v[7:1] (R265). -/
def execAsrf (d : Dest) (f : FileReg) (s : State) : Exec :=
  s.fileOp d f fun v => withCZ (v.extractLsb' 7 1 ++ v.extractLsb' 1 7) (v.getLsbD 0)

end Sys2Proof.Machine
end

