-- ==== Sys2Proof/Machine/System.lean ====
section
/-! DEFINITION. Bank, page, legacy and system instructions (47_system). The registers they write are
written directly, not through the data-write path (R350). -/

namespace Sys2Proof.Machine

/-- MOVLB k (R351). -/
def execMovlb (k : BitVec 5) (s : State) : Exec := .next ((s.setBsr k).charge 1)

/-- MOVLP k (R352). -/
def execMovlp (k : BitVec 7) (s : State) : Exec := .next ((s.setPclath k).charge 1)

/-- OPTION (R353). -/
def execOption (s : State) : Exec := .next ((s.store .optionReg s.w).charge 1)

/-- The cell that TRIS f writes: sfr[1][0x07 + f] (R354). -/
def trisCell (f : BitVec 3) : Cell :=
  have := f.isLt
  .sfr 1 ⟨0x07 + f.toNat, by omega⟩

/-- TRIS f (R354). Only f in 5, 6, 7 decodes (30_encoding R175, log entry 13). -/
def execTris (f : BitVec 3) (s : State) : Exec := .next ((s.store (trisCell f) s.w).charge 1)

/-- NOP (R355). -/
def execNop (s : State) : Exec := .next (s.charge 1)

/-- RESET (R356): `cycles` keeps counting. -/
def execReset (s : State) : Exec := .next ((s.resetState .software).charge 1)

/-- SLEEP (R357). -/
def execSleep (s : State) : Exec := .next (((s.setPdTo false true).setMode .asleep).charge 1)

/-- CLRWDT (R358). -/
def execClrwdt (s : State) : Exec := .next ((s.setPdTo true true).charge 1)

end Sys2Proof.Machine
end

