-- ==== Sys2Proof/Machine/Dispatch.lean ====
section
/-! DEFINITION. Dispatch: one meaning per instruction of the catalog (30_encoding R171). -/

namespace Sys2Proof.Machine

def exec (i : Instr) (s : State) : Host.Outcome State Fault Refusal :=
  match i with
  | .addwf d f => Sys2Proof.Machine.execAddwf d f s
  | .addwfc d f => Sys2Proof.Machine.execAddwfc d f s
  | .addlw k => Sys2Proof.Machine.execAddlw k s
  | .subwf d f => Sys2Proof.Machine.execSubwf d f s
  | .subwfb d f => Sys2Proof.Machine.execSubwfb d f s
  | .sublw k => Sys2Proof.Machine.execSublw k s
  | .andwf d f => Sys2Proof.Machine.execAndwf d f s
  | .andlw k => Sys2Proof.Machine.execAndlw k s
  | .iorwf d f => Sys2Proof.Machine.execIorwf d f s
  | .iorlw k => Sys2Proof.Machine.execIorlw k s
  | .xorwf d f => Sys2Proof.Machine.execXorwf d f s
  | .xorlw k => Sys2Proof.Machine.execXorlw k s
  | .incf d f => Sys2Proof.Machine.execIncf d f s
  | .decf d f => Sys2Proof.Machine.execDecf d f s
  | .incfsz d f => Sys2Proof.Machine.execIncfsz d f s
  | .decfsz d f => Sys2Proof.Machine.execDecfsz d f s
  | .rlf d f => Sys2Proof.Machine.execRlf d f s
  | .rrf d f => Sys2Proof.Machine.execRrf d f s
  | .lslf d f => Sys2Proof.Machine.execLslf d f s
  | .lsrf d f => Sys2Proof.Machine.execLsrf d f s
  | .asrf d f => Sys2Proof.Machine.execAsrf d f s
  | .bcf b f => Sys2Proof.Machine.execBcf b f s
  | .bsf b f => Sys2Proof.Machine.execBsf b f s
  | .btfsc b f => Sys2Proof.Machine.execBtfsc b f s
  | .btfss b f => Sys2Proof.Machine.execBtfss b f s
  | .movf d f => Sys2Proof.Machine.execMovf d f s
  | .movwf f => Sys2Proof.Machine.execMovwf f s
  | .movlw k => Sys2Proof.Machine.execMovlw k s
  | .comf d f => Sys2Proof.Machine.execComf d f s
  | .swapf d f => Sys2Proof.Machine.execSwapf d f s
  | .clrf f => Sys2Proof.Machine.execClrf f s
  | .clrw x => Sys2Proof.Machine.execClrw x s
  | .goto k => Sys2Proof.Machine.execGoto k s
  | .call k => Sys2Proof.Machine.execCall k s
  | .callw => Sys2Proof.Machine.execCallw s
  | .bra k => Sys2Proof.Machine.execBra k s
  | .brw => Sys2Proof.Machine.execBrw s
  | .ret => Sys2Proof.Machine.execReturn s
  | .retlw k => Sys2Proof.Machine.execRetlw k s
  | .retfie => Sys2Proof.Machine.execRetfie s
  | .movlb k => Sys2Proof.Machine.execMovlb k s
  | .movlp k => Sys2Proof.Machine.execMovlp k s
  | .option => Sys2Proof.Machine.execOption s
  | .tris f => Sys2Proof.Machine.execTris f s
  | .nop => Sys2Proof.Machine.execNop s
  | .reset => Sys2Proof.Machine.execReset s
  | .sleep => Sys2Proof.Machine.execSleep s
  | .clrwdt => Sys2Proof.Machine.execClrwdt s
  | .moviw n m => Sys2Proof.Machine.execMoviw n m s
  | .moviwk n k => Sys2Proof.Machine.execMoviwk n k s
  | .movwi n m => Sys2Proof.Machine.execMovwi n m s
  | .movwik n k => Sys2Proof.Machine.execMovwik n k s
  | .addfsr n k => Sys2Proof.Machine.execAddfsr n k s

end Sys2Proof.Machine
end

