-- ==== Sys2Proof/Machine/Step.lean ====
section
/-! DEFINITION. The step (70_reset R447). -/

namespace Sys2Proof.Machine

/-- One step: `State.cycle` over the instructions' meanings. -/
def step (s : State) : Host.Outcome State Fault Refusal := s.cycle exec

/-- The instruction word w loaded at the fetch address, as the host's Load would (70_reset R446, log
entry 10). -/
def State.withFetchWord (s : State) (_nbits w : Nat) : State :=
  { s with pmem := Assoc.insert s.fetchAddr.toNat (BitVec.ofNat 14 w) s.pmem }

end Sys2Proof.Machine
end

