-- ==== Sys2Proof/Machine/HostPort.lean ====
section
/-! DEFINITION. What the host can do to the core (70_reset §2): power-on reset, program load, run, the
named accessors and the decoded-instruction port. No instruction calls any of these. -/

namespace Sys2Proof.Machine

/-- A power-on reset, at any time and in any mode (70_reset R441, R445). -/
def State.powerOnReset (s : State) : State := s.resetState .powerOn

/-- Why a host request is rejected, the core staying as it was (60_exceptions R419). -/
inductive HostError where
  /-- A program load that does not fit (70_reset R446). -/
  | loadError
  /-- A name the register-name map does not hold (70_reset R449). -/
  | nameError
  /-- A bit number outside the byte (log entry 14). -/
  | bitError
  /-- An address wider than 16 bits, which no address space has (log entry 12). -/
  | noAddress (n : Nat)
  /-- The access reached an address or a register that has no value (70_reset R449, log entry 12). -/
  | accessFault (f : Fault)
  deriving DecidableEq, Repr

/-- Write words contiguously into program memory. -/
def Pmem.load (base : Nat) : List Nat → List (Nat × Word) → List (Nat × Word)
  | [], m => m
  | w :: ws, m => Pmem.load (base + 1) ws (Assoc.insert base (BitVec.ofNat 14 w) m)

/-- `Load(base, words)`, all or nothing (70_reset R446). -/
def State.load (s : State) (base : Nat) (words : List Nat) : Except HostError State :=
  if base + words.length > 2048 ∨ words.any (· > 0x3FFF) then .error .loadError
  else .ok { s with pmem := Pmem.load base words s.pmem }

/-- The loop of `Run(n)`, with the host's halt address, if any, compared with pc before each step
(70_reset R448, log entry 15). -/
def runLoop (halt : Option Pc) : Nat → State → Exec
  | 0, s => .next s
  | n + 1, s =>
    if halt = some s.pc then .next s
    else
      match step s with
      | .next t => if t.mode = .running then runLoop halt n t else .next t
      | .fault f => .fault f
      | .refused r => .refused r

/-- `Run(n)` (70_reset R448). -/
def State.run (s : State) (n : Nat) (halt : Option Pc := none) : Exec := runLoop halt n s

/-- The register-name map: from an uppercase name to an address or a bit index (70_reset R449). -/
abbrev NameMap := List (String × Nat)

/-- `Map(name)`: the first entry of that name (log entry 14). -/
def NameMap.get (map : NameMap) (name : String) : Except HostError Nat :=
  match map.find? (fun e => e.1 == name) with
  | some e => .ok e.2
  | none => .error .nameError

/-- `Map(upper(name))` (70_reset R449). -/
def NameMap.getUpper (map : NameMap) (name : String) : Except HostError Nat :=
  map.get (String.ofList (name.toList.map Char.toUpper))

/-- A host access that meets a fault is rejected; the core does not take the fault (log entry 12). -/
def hostAccess {α : Type} : Except Fault α → Except HostError α
  | .ok v => .ok v
  | .error f => .error (.accessFault f)

/-- An address the host gives, as a data address (log entry 12). -/
def hostAddr (n : Nat) : Except HostError Addr :=
  if n < 2 ^ 16 then .ok (BitVec.ofNat 16 n) else .error (.noAddress n)

/-- `NamedRead(name)` (70_reset R449). -/
def State.namedRead (s : State) (map : NameMap) (name : String) : Except HostError Byte := do
  let n ← map.getUpper name
  let a ← hostAddr n
  hostAccess (s.memRead a)

/-- `NamedWrite(name, v)` (70_reset R449). -/
def State.namedWrite (s : State) (map : NameMap) (name : String) (v : Byte) : Except HostError State := do
  let n ← map.getUpper name
  let a ← hostAddr n
  hostAccess (s.memWrite a v)

/-- `NamedBit(reg, bit)` (70_reset R449). DESIGN CHOICE, log entry 18: where two rejections apply, the first
of these is the one given: a missing register name, an address wider than 16 bits, a missing bit name, a
fault of the read, a bit number above 7. -/
def State.namedBit (s : State) (map : NameMap) (reg bit : String) : Except HostError Bool := do
  let n ← map.get reg
  let a ← hostAddr n
  let i ← map.get bit
  let v ← hostAccess (s.memRead a)
  if i < 8 then return v.getLsbD i else throw .bitError

/-- What the decoded-instruction port shows of a program address (30_encoding R167). -/
inductive PortView where
  | unloaded
  | decodeError (w : Word)
  | instruction (mnemonic : String) (fields : Fields)
  deriving DecidableEq, Repr

/-- The decoded-instruction port (30_encoding R167). -/
def State.decodedPort (s : State) (a : PmAddr) : PortView :=
  match Assoc.find s.pmem a.toNat with
  | none => .unloaded
  | some w =>
    match decodeView w with
    | some (name, v) => .instruction name v
    | none => .decodeError w

end Sys2Proof.Machine
end

