-- ==== Sys2Proof/Safety.lean ====
section
/-! DEFINITION. What a good state and a safe run are, and how a step's effect is described, in the terms
the statements use. -/

namespace Sys2Proof.Machine

/-- The register bits that read 0 are stored as 0 (10_state R44, R46, R47, R58). -/
structure State.WidthsOk (s : State) : Prop where
  status : s.stored .status &&& 0xE0 = 0
  bsr : s.stored .bsr &&& 0xE0 = 0
  pclath : s.stored .pclath &&& 0x80 = 0
  stkptr : s.stored .stkptr &&& 0xE0 = 0

/-- The invariant of the machine: both memories in canonical form and the registers within their
widths. -/
structure State.Inv (s : State) : Prop where
  mem : Memory.wf (resetBase s.resets) s.mem
  pmem : Pmem.wf s.pmem
  widths : s.WidthsOk

/-- The core has not stopped in a fault (60_exceptions R402): what a safe run keeps. -/
def State.Sound (s : State) : Prop := ∀ f, s.mode ≠ .faulted f

/-- The whole of an effect: every data cell of `u`, its pc, its cycles and its stack and mode, program
memory and the count of resets being those of `s`. The cell PCL is pc's low byte and not a storage of its
own (10_state R51), so pc says what it holds. -/
structure State.Becomes (s u : State) (cells : Cell → Byte) (pc : Pc) (n : Nat)
    (stack : Vector Pc 16 := s.stack) (mode : Mode := s.mode) : Prop where
  cells : ∀ c, u.stored c = cells c
  pc : u.pc = pc
  cycles : u.cycles = s.cycles + n
  stack : u.stack = stack
  mode : u.mode = mode
  pmem : u.pmem = s.pmem
  resets : u.resets = s.resets

end Sys2Proof.Machine

namespace Sys2Proof.Claims

open Sys2Proof.Machine

/-! ## The terms of the statements, written from the rules and not from the meanings -/

/-- STATUS with C, DC and Z at these values, its other bits as they were (10_state R44). -/
def flagByte (old : Byte) (c dc z : Bool) : Byte :=
  (old &&& 0xF8) ||| BitVec.ofNat 8 (c.toNat + 2 * dc.toNat + 4 * z.toNat)

/-- A data cell's byte after a data write of v to it (20_memory R109). -/
def dataWrite (c : Cell) (old v : Byte) : Byte :=
  if c = .pcl ∨ c = .indf0 ∨ c = .indf1 then old
  else if c = .status then (old &&& 0x18) ||| (v &&& 0x07)
  else if c = .bsr ∨ c = .stkptr then v &&& 0x1F
  else if c = .pclath then v &&& 0x7F
  else v

/-- All data cells after a data write of v to a target (20_memory R114). -/
def targetCells (m : Cell → Byte) (t : Target) (v : Byte) : Cell → Byte :=
  match t with
  | .cell c => Function.update m c (dataWrite c (m c) v)
  | .null => m
  | .prog _ => m

/-- pc after a data write of v to a target: a write of PCL jumps (20_memory R109). -/
def targetPc (s : State) (t : Target) (v : Byte) : Pc :=
  if t = .cell .pcl then (s.stored .pclath).extractLsb' 0 7 ++ v else s.pc

/-- The old value of a flag: 0 is C, 1 DC, 2 Z (10_state R44). -/
def flag (s : State) (i : Nat) : Bool := (s.stored .status).getLsbD i

/-- All data cells after C, DC and Z take the values F (20_memory R110). -/
def withFlags (m : Cell → Byte) (F : Bool × Bool × Bool) : Cell → Byte :=
  Function.update m .status (flagByte (m .status) F.1 F.2.1 F.2.2)

/-- All data cells after the result r of an instruction that writes a flag goes to its destination and C,
DC, Z take the values F: STATUS as the destination takes the flags only (20_memory R110). -/
def flaggedCells (s : State) (d : Dest) (t : Target) (r : Byte) (F : Bool × Bool × Bool) : Cell → Byte :=
  withFlags
    (if d = .w then Function.update s.stored .wreg r
      else if t = .cell .status then s.stored else targetCells s.stored t r) F

/-- pc after that. -/
def flaggedPc (s : State) (d : Dest) (t : Target) (r : Byte) : Pc := if d = .w then s.pc else targetPc s t r

/-- All data cells after the result r of an instruction that writes no flag goes to its destination
(20_memory R110). -/
def plainCells (s : State) (d : Dest) (t : Target) (r : Byte) : Cell → Byte :=
  if d = .w then Function.update s.stored .wreg r else targetCells s.stored t r

/-- The operand byte of a file instruction and where it came from (20_memory R111, R113). -/
def operand (s : State) (f : FileReg) : Except Fault (Target × Byte) :=
  match s.fileTarget f with
  | .error e => .error e
  | .ok t =>
    match s.tRead t with
    | .error e => .error e
    | .ok v => .ok (t, v)

/-- A target that no data access may reach (10_state R59). -/
def forbidden (t : Target) : Prop := t = .cell .tosl ∨ t = .cell .tosh

/-- STKPTR's 5 bits as a number (10_state R58). -/
def spNat (s : State) : Nat := (s.stored .stkptr).toNat % 32

/-- All data cells after Push (10_state R66). -/
def pushCells (s : State) : Cell → Byte :=
  Function.update
    (if spNat s = 15 then Function.update s.stored .pcon (s.stored .pcon ||| 0x80) else s.stored)
    .stkptr (BitVec.ofNat 8 ((spNat s + 1) % 16))

/-- The stack after Push(v) (10_state R66). -/
def pushStack (s : State) (v : Pc) : Vector Pc 16 :=
  s.stack.set ((spNat s + 1) % 16) v (Nat.mod_lt _ (by decide))

/-- All data cells after Pop (10_state R67). -/
def popCells (s : State) : Cell → Byte :=
  Function.update
    (if spNat s = 0 then Function.update s.stored .pcon (s.stored .pcon ||| 0x40) else s.stored)
    .stkptr (BitVec.ofNat 8 ((spNat s + 15) % 16))

/-- The value Pop returns (10_state R67). -/
def popValue (s : State) : Pc := s.stack[spNat s % 16]'(Nat.mod_lt _ (by decide))

/-- The cells after RETFIE (R328), by cell. -/
def retfieCells (s : State) (c : Cell) : Byte :=
  if c = .wreg then s.stored .wregShad
  else if c = .status then (s.stored .status &&& 0xF8) ||| (s.stored .statusShad &&& 0x07)
  else if c = .bsr then s.stored .bsrShad &&& 0x1F
  else if c = .pclath then s.stored .pclathShad &&& 0x7F
  else if c = .fsr0l then s.stored .fsr0lShad
  else if c = .fsr0h then s.stored .fsr0hShad
  else if c = .fsr1l then s.stored .fsr1lShad
  else if c = .fsr1h then s.stored .fsr1hShad
  else if c = .intcon then s.stored .intcon ||| 0x80
  else popCells s c

/-- The values of n pops (10_state R67). -/
def popList : Nat → State → List Pc
  | 0, _ => []
  | n + 1, s => popValue s :: popList n s.pop

/-- All data cells after FSRn is written (10_state R48). -/
def pointerCells (m : Cell → Byte) (n : Fsr) (p : Addr) : Cell → Byte :=
  Function.update (Function.update m (.fsrLow n) (p.extractLsb' 0 8)) (.fsrHigh n) (p.extractLsb' 8 8)

/-- FSRn (10_state R48). -/
def pointer (s : State) (n : Fsr) : Addr := s.stored (.fsrHigh n) ++ s.stored (.fsrLow n)

/-- FSRn after a pointer mode's update, modulo 2^16 (48_indirect R380). -/
def movedPointer (m : PtrMode) (p : Addr) : Addr :=
  match m with
  | .preInc => p + 1
  | .preDec => p - 1
  | .postInc => p + 1
  | .postDec => p - 1

/-- The address a pointer mode accesses (48_indirect R381). -/
def accessedAddr (m : PtrMode) (p : Addr) : Addr :=
  match m with
  | .preInc => p + 1
  | .preDec => p - 1
  | .postInc => p
  | .postDec => p

/-- The cells a pointer mode accesses in: a pre-mode has written FSRn (48_indirect R380). -/
def cellsBefore (s : State) (n : Fsr) (m : PtrMode) : Cell → Byte :=
  match m with
  | .preInc | .preDec => pointerCells s.stored n (movedPointer m (pointer s n))
  | .postInc | .postDec => s.stored

/-- The cells after the last write of a pointer mode (48_indirect R380). -/
def cellsLast (s : State) (n : Fsr) (m : PtrMode) (cells : Cell → Byte) : Cell → Byte :=
  match m with
  | .preInc | .preDec => cells
  | .postInc | .postDec => pointerCells cells n (movedPointer m (pointer s n))

/-- The data target of an instruction that may write data memory through an operand: a file destination,
or an indirect write. -/
def dataTarget (s : State) : Instr → Option Target
  | .addwf .f f | .addwfc .f f | .subwf .f f | .subwfb .f f | .andwf .f f | .iorwf .f f | .xorwf .f f
  | .incf .f f | .decf .f f | .incfsz .f f | .decfsz .f f | .rlf .f f | .rrf .f f | .lslf .f f
  | .lsrf .f f | .asrf .f f | .movf .f f | .comf .f f | .swapf .f f | .bcf _ f | .bsf _ f | .movwf f
  | .clrf f => (s.fileTarget f).toOption
  | .movwi n m => (indTarget (accessedAddr m (pointer s n))).toOption
  | .movwik n k => (indTarget (pointer s n + k.signExtend 16)).toOption
  | _ => none

/-- What either reset leaves in the registers (10_state R70); C, DC, Z, IOCIF and the shadow registers are
draws, of which nothing is said, as is a cell whose POWER_ON_DEFAULTS is unspecified. -/
structure ResetRegisters (u : State) : Prop where
  pc : u.pc = 0
  mode : u.mode = .running
  zeros : ∀ c ∈ [Cell.wreg, .bsr, .pclath, .fsr0l, .fsr0h, .fsr1l, .fsr1h], u.stored c = 0
  status : u.stored .status &&& 0xF8 = 0x18
  intcon : u.stored .intcon &&& 0xFE = 0
  pcon : u.stored .pcon = 0#4 ++ Config.pconResetLow
  stkptr : u.stored .stkptr = 0x1F
  ones : ∀ c ∈ [Cell.optionReg, .trisa, .trisb], u.stored c = 0xFF
  others : ∀ c, c ∉ [Cell.wreg, .bsr, .pclath, .fsr0l, .fsr0h, .fsr1l, .fsr1h, .pcl, .status, .intcon, .pcon,
      .stkptr, .optionReg, .trisa, .trisb] → c ∉ Cell.shadows →
    u.stored c = (Config.powerOnDefault c).getD (u.stored c)

/-- No interrupt stops a running core at the start of a step (60_exceptions R407). -/
def noInterrupt (s : State) : Prop := (s.gie && s.pending) = false

/-- The program word at the fetch address pc[10:0], if loaded (10_state R52). -/
def fetched (s : State) : Option Word := Assoc.find s.pmem (s.pc.toNat % 2048)

/-- The reserved words of R173. -/
def reservedWord (w : Nat) : Bool :=
  (0x0002 ≤ w && w ≤ 0x0007) || (0x000C ≤ w && w ≤ 0x000F) || (0x0040 ≤ w && w ≤ 0x0061)
    || (0x0068 ≤ w && w ≤ 0x007F) || (0x0104 ≤ w && w ≤ 0x017F)

/-- A legal instantiation of a template (R169): every field of the template within its width, no field
it lacks, and TRIS's f in 5, 6, 7. -/
def Legal (e : Template) (v : Fields) : Prop :=
  (∀ F ∈ e.fields, ∃ n : Nat, v.get F.name = some (n : Int) ∧ n < 2 ^ F.width) ∧
  (∀ name, (∀ F ∈ e.fields, F.name ≠ name) → v.get name = none) ∧
  (e.mnemonic = "TRIS" → ∃ n : Int, v.f = some n ∧ 5 ≤ n)

end Sys2Proof.Claims
end

