-- ==== Sys2Proof/Certificates/Slice0/Obligations.lean ====
section
/-! DEFINITION. The statements for the provers, from the numbered rules of the spec. -/

namespace Sys2Proof.Claims

open Sys2Proof.Machine

/-! ## The shapes of the instructions' rules -/

/-- The fields d and f of the format byte_fd, in place (30_encoding R163). -/
def fdBits (d : Dest) (f : FileReg) : Word := (destBit d ++ f).setWidth 14

/-- The whole rule of an instruction `MNEM f,d` that writes a flag: its encoding, its faults, and its
effect and cost of 1 cycle when the operand v is readable. `res s v` is the result, `F s v` the values of
C, DC and Z afterwards. -/
def FlaggedFileRule (bits : Word) (mk : Dest → FileReg → Instr) (res : State → Byte → Byte)
    (F : State → Byte → Bool × Bool × Bool) : Prop :=
  ∀ (s : State) (d : Dest) (f : FileReg),
    decode (bits ||| fdBits d f) = .ok (mk d f) ∧
    (∀ e, operand s f = .error e → exec (mk d f) s = .fault e) ∧
    (∀ t v, operand s f = .ok (t, v) → ∃ u, exec (mk d f) s = .next u ∧
      s.Becomes u (flaggedCells s d t (res s v) (F s v)) (flaggedPc s d t (res s v)) 1)

/-- The whole rule of an instruction `MNEM k` with an 8-bit literal and the destination W. -/
def LiteralRule (bits : Word) (mk : Byte → Instr) (res : State → Byte → Byte)
    (F : State → Byte → Bool × Bool × Bool) : Prop :=
  ∀ (s : State) (k : Byte),
    decode (bits ||| k.setWidth 14) = .ok (mk k) ∧
    ∃ u, exec (mk k) s = .next u ∧
      s.Becomes u (withFlags (Function.update s.stored .wreg (res s k)) (F s k)) s.pc 1

/-- The whole rule of an instruction `MNEM f,d` that writes no flag and skips when `skips s v`: 2 cycles
when it skips, else 1 (42_incdec R240). -/
def SkipFileRule (bits : Word) (mk : Dest → FileReg → Instr) (res : Byte → Byte) : Prop :=
  ∀ (s : State) (d : Dest) (f : FileReg),
    decode (bits ||| fdBits d f) = .ok (mk d f) ∧
    (∀ e, operand s f = .error e → exec (mk d f) s = .fault e) ∧
    (∀ t v, operand s f = .ok (t, v) → ∃ u, exec (mk d f) s = .next u ∧
      s.Becomes u (plainCells s d t (res v))
        ((if d = .w then s.pc else targetPc s t (res v)) + (if res v = 0 then 1 else 0))
        (if res v = 0 then 2 else 1))

/-- The whole rule of BCF and BSF. -/
def BitChangeRule (bits : Word) (mk : BitVec 3 → FileReg → Instr) (res : Byte → Nat → Byte) : Prop :=
  ∀ (s : State) (b : BitVec 3) (f : FileReg),
    decode (bits ||| (b ++ f).setWidth 14) = .ok (mk b f) ∧
    (∀ e, operand s f = .error e → exec (mk b f) s = .fault e) ∧
    (∀ t v, operand s f = .ok (t, v) → ∃ u, exec (mk b f) s = .next u ∧
      s.Becomes u (targetCells s.stored t (res v b.toNat)) (targetPc s t (res v b.toNat)) 1)

/-- The whole rule of BTFSC and BTFSS: skip when the bit is `on`. -/
def BitTestRule (bits : Word) (mk : BitVec 3 → FileReg → Instr) (on : Bool) : Prop :=
  ∀ (s : State) (b : BitVec 3) (f : FileReg),
    decode (bits ||| (b ++ f).setWidth 14) = .ok (mk b f) ∧
    (∀ e, operand s f = .error e → exec (mk b f) s = .fault e) ∧
    (∀ t v, operand s f = .ok (t, v) → ∃ u, exec (mk b f) s = .next u ∧
      s.Becomes u s.stored (s.pc + (if (v >>> b.toNat) % 2 = (if on then 1 else 0) then 1 else 0))
        (if (v >>> b.toNat) % 2 = (if on then 1 else 0) then 2 else 1))

end Sys2Proof.Claims

open Sys2Proof Sys2Proof.Machine Sys2Proof.Claims

/-! ## Encoding -/

/-- Words written out from the templates of 30_encoding §4, one of each family, decode to the
instruction they stand for. -/
def Obligations.SampleWordsDecode : Prop :=
  decode 0x07A0 = .ok (.addwf .f 0x20) ∧ decode 0x3C10 = .ok (.sublw 0x10) ∧
  decode 0x0520 = .ok (.andwf .w 0x20) ∧ decode 0x0BA0 = .ok (.decfsz .f 0x20) ∧
  decode 0x3720 = .ok (.asrf .w 0x20) ∧ decode 0x14A4 = .ok (.bsf 1 0x24) ∧
  decode 0x00A0 = .ok (.movwf 0x20) ∧ decode 0x0103 = .ok (.clrw 3) ∧
  decode 0x2923 = .ok (.goto 0x123) ∧ decode 0x33FE = .ok (.bra 0x1FE) ∧
  decode 0x0066 = .ok (.tris 6) ∧ decode 0x3188 = .ok (.movlp 0x08) ∧
  decode 0x001D = .ok (.movwi .fsr1 .preDec) ∧ decode 0x3F42 = .ok (.moviwk .fsr1 2) ∧
  decode 0x3160 = .ok (.addfsr .fsr1 0x20)

/-- Decode and encode agree in both directions (30_encoding §3): every legal instruction's word decodes
to it, and every word that decodes is the word of the legal instruction it gives. -/
def Obligations.DecodeEncodeInverse : Prop :=
  (∀ i : Instr, i.wellFormed = true → decode (encode i) = .ok i) ∧
  (∀ (w : Word) (i : Instr), decode w = .ok i → encode i = w ∧ i.wellFormed = true)

/-- R169, whose converse the spec marks as its own derivation: the named encoder and the decoder's view are
inverse on every legal instantiation, the encoder rejects an instantiation that lacks a mandatory field, and
encoding the view of a word that decodes gives the word. -/
def Obligations.NamedEncoderRoundTrip : Prop :=
  (∀ e ∈ catalog, ∀ v, Legal e v →
    ∃ w, encodeNamed e.mnemonic v = .ok w ∧ decodeView w = some (e.mnemonic, v)) ∧
  (∀ e ∈ catalog, ∀ v, ∀ F ∈ e.fields, F.name ≠ .x → v.get F.name = none →
    ∃ name, encodeNamed e.mnemonic v = .error (.missingField name)) ∧
  (∀ w name v, decodeView w = some (name, v) → encodeNamed name v = .ok w)

/-- R173, which the spec marks as its own derivation: exactly the 192 listed words match no row; decoding
one is the decode error, and fetching one faults. -/
def Obligations.ReservedWordsFault : Prop :=
  (∀ w : Word, (∃ i, decode w = .ok i) ↔ reservedWord w.toNat = false) ∧
  (List.range 16384).countP reservedWord = 192 ∧
  (∀ (s : State) (w : Word), s.mode = .running → noInterrupt s → fetched s = some w →
    reservedWord w.toNat = true →
    step s = .next (s.takeFault (.decodeError (s.pc.extractLsb' 0 11) w)))

/-- The decoder is unambiguous (30_encoding §2): at most one template matches a word, and the decoded
instruction is the one that template's fields make. -/
def Obligations.OneTemplateMatches : Prop :=
  ∀ w : Word, (catalog.filter (·.matches w)).length ≤ 1 ∧
    ∀ i, decode w = .ok i ↔ ∃ e ∈ catalog, e.matches w = true ∧ e.build w = i

/-! ## Address translation and data access -/

/-- R105, which the spec marks as derived from R101 and R102: the four aliasing laws of the translator. -/
def Obligations.TranslatorAliases : Prop :=
  (∀ b1 b2 l : Nat, b1 < 32 → b2 < 32 → (hl : l ≤ 0x0B) →
    translateTraditional (BitVec.ofNat 12 (b1 * 128 + l)) = .sfr 0 ⟨l, by omega⟩ ∧
    translateTraditional (BitVec.ofNat 12 (b1 * 128 + l)) =
      translateTraditional (BitVec.ofNat 12 (b2 * 128 + l))) ∧
  (∀ b l : Nat, b < 32 → 0x70 ≤ l → (hl : l ≤ 0x7F) →
    translateTraditional (BitVec.ofNat 12 (b * 128 + l)) = .gpr ⟨l - 0x20, by omega⟩) ∧
  (∀ a : Nat, 0x2000 ≤ a → a ≤ 0x29AF →
    translateAddr (BitVec.ofNat 16 a) = .ok (translateTraditional
      (BitVec.ofNat 12 ((a - 0x2000) / 0x50 * 128 + 0x20 + (a - 0x2000) % 0x50))) ∧
    ∀ i : Fin 0xA00, translateAddr (BitVec.ofNat 16 a) = .ok (.gpr i) →
      (i.val < 0x50 ∨ 0x5F < i.val) ∧ i.val < 0x9C0) ∧
  (∀ l : Nat, 0x20 ≤ l → (hl : l ≤ 0x6F) →
    translateTraditional (BitVec.ofNat 12 l) = .gpr ⟨l - 0x20, by omega⟩) ∧
  (∀ b l : Nat, 1 ≤ b → (hb : b ≤ 30) → 0x20 ≤ l → (hl : l ≤ 0x6F) →
    translateTraditional (BitVec.ofNat 12 (b * 128 + l)) =
      .gpr ⟨0x10 + b * 0x50 + (l - 0x20), by omega⟩) ∧
  (∀ l : Nat, 0x20 ≤ l → (hl : l ≤ 0x5F) →
    translateTraditional (BitVec.ofNat 12 (0xF80 + l)) = .gpr ⟨0x9C0 + (l - 0x20), by omega⟩)

/-- R106, which the spec marks as derived from R101: the data addresses 0xF90-0xF9F and 0xFE0-0xFEF reach
the same sixteen cells, among them STKPTR, TOSL, TOSH and the shadow registers. -/
def Obligations.BankThirtyOneSharesCells : Prop :=
  (∀ k : Fin 16, translateTraditional (BitVec.ofNat 12 (0xF90 + k.val)) =
      .sfr 31 ⟨0x10 + k.val, by omega⟩ ∧
    translateTraditional (BitVec.ofNat 12 (0xFE0 + k.val)) = .sfr 31 ⟨0x10 + k.val, by omega⟩) ∧
  translateTraditional 0xF9D = .stkptr ∧ translateTraditional 0xF9E = .tosl ∧
  translateTraditional 0xF9F = .tosh ∧
  (∀ k : Fin 8, Cell.shadows[k.val]? = some (translateTraditional (BitVec.ofNat 12 (0xF94 + k.val))))

/-- R112: the unified indirect space by region: what a pointer reaches, what a read gives and what a write
does there. -/
def Obligations.IndirectSpaceRegions : Prop :=
  ∀ (s : State) (p : Addr) (v : Byte),
    if p.toNat ≤ 0x0FFF then
      indTarget p = .ok (.cell (translateTraditional (p.extractLsb' 0 12))) ∧
      s.indRead p = s.cellRead (translateTraditional (p.extractLsb' 0 12)) ∧
      s.indWrite p v = s.cellWrite (translateTraditional (p.extractLsb' 0 12)) v ∧
      ((p.toNat % 128 = 0 ∨ p.toNat % 128 = 1) → s.indRead p = .ok 0 ∧ s.indWrite p v = .ok s)
    else if p.toNat ≤ 0x1FFF then
      indTarget p = .error (.addressError p) ∧ s.indRead p = .error (.addressError p) ∧
      s.indWrite p v = .error (.addressError p)
    else if p.toNat ≤ 0x29AF then
      ∃ c, translateAddr p = .ok c ∧ indTarget p = .ok (.cell c) ∧ s.indRead p = .ok (s.stored c) ∧
        s.indWrite p v = .ok (s.store c v)
    else if p.toNat ≤ 0x7FFF then
      indTarget p = .ok .null ∧ s.indRead p = .ok 0 ∧ s.indWrite p v = .ok s
    else
      indTarget p = .ok (.prog (BitVec.ofNat 15 (p.toNat - 0x8000))) ∧
      s.indRead p = s.progByte (BitVec.ofNat 15 (p.toNat - 0x8000)) ∧ s.indWrite p v = .ok s

/-- R115: a read of the program window by address and by what the word there is. -/
def Obligations.ProgramWindowRead : Prop :=
  ∀ (s : State) (p : Addr), 0x8000 ≤ p.toNat →
    if 0x8800 ≤ p.toNat then s.indRead p = .error (.addressError p)
    else
      match Assoc.find s.pmem (p.toNat - 0x8000) with
      | none => s.indRead p = .error (.unloadedProgramWord (p.extractLsb' 0 11))
      | some w =>
        (∀ r, decode w = .error r → s.indRead p = .error (.decodeError (p.extractLsb' 0 11) w)) ∧
        (∀ i, decode w = .ok i → s.indRead p = .ok (w.extractLsb' 0 8))

/-- R108, R109: what a core-level read of any cell gives, what a core-level write of any cell leaves in
every cell and in pc, and that an access by address is that of the cell the address translates to. -/
def Obligations.CellAccessBehaviour : Prop :=
  (∀ (s : State) (a : Addr) (c : Cell) (v : Byte), translateAddr a = .ok c →
    s.memRead a = s.cellRead c ∧ s.memWrite a v = s.cellWrite c v) ∧
  ∀ (s : State) (c : Cell) (v : Byte),
    if c = .tosl ∨ c = .tosh then
      s.cellRead c = .error (.unmodelledRegister c) ∧ s.cellWrite c v = .error (.unmodelledRegister c)
    else
      s.cellRead c = .ok (if c = .pcl then s.pc.extractLsb' 0 8
        else if c = .indf0 ∨ c = .indf1 then 0
        else if c = .status then s.stored c &&& 0x1F
        else s.stored c) ∧
      ∃ u, s.cellWrite c v = .ok u ∧
        s.Becomes u (targetCells s.stored (.cell c) v) (targetPc s (.cell c) v) 0

/-- R207, which the spec marks as derived from R108 to R115: exactly when the operand of a file instruction
cannot be read. -/
def Obligations.FileOperandFaults : Prop :=
  ∀ (s : State) (f : FileReg),
    if f = 0 ∨ f = 1 then
      let p := pointer s (if f = 0 then .fsr0 else .fsr1)
      if p = 0x0F9E ∨ p = 0x0FEE then
        operand s f = .error (.unmodelledRegister .tosl) ∧ s.fileTarget f = .ok (.cell .tosl)
      else if p = 0x0F9F ∨ p = 0x0FEF then
        operand s f = .error (.unmodelledRegister .tosh) ∧ s.fileTarget f = .ok (.cell .tosh)
      else if 0x1000 ≤ p.toNat ∧ p.toNat ≤ 0x1FFF then s.fileTarget f = .error (.addressError p)
      else if 0x8800 ≤ p.toNat then
        operand s f = .error (.addressError p) ∧ ∃ a, s.fileTarget f = .ok (.prog a)
      else if 0x8000 ≤ p.toNat then
        (∃ a, s.fileTarget f = .ok (.prog a)) ∧
        match Assoc.find s.pmem (p.toNat - 0x8000) with
        | none => operand s f = .error (.unloadedProgramWord (p.extractLsb' 0 11))
        | some w => if reservedWord w.toNat then operand s f = .error (.decodeError (p.extractLsb' 0 11) w)
            else ∃ t v, operand s f = .ok (t, v)
      else ∃ t v, operand s f = .ok (t, v) ∧ ¬ forbidden t
    else if s.bsr = 31 ∧ (f = 0x1E ∨ f = 0x6E) then
      operand s f = .error (.unmodelledRegister .tosl) ∧ s.fileTarget f = .ok (.cell .tosl)
    else if s.bsr = 31 ∧ (f = 0x1F ∨ f = 0x6F) then
      operand s f = .error (.unmodelledRegister .tosh) ∧ s.fileTarget f = .ok (.cell .tosh)
    else ∃ t v, operand s f = .ok (t, v) ∧ ¬ forbidden t

/-! ## Add and subtract -/

/-- R200: the adder's result and flags, and what they mean for a subtraction: C is 1 iff there is no
borrow, DC is 1 iff there is no borrow out of bit 3. -/
def Obligations.AdderResult : Prop :=
  ∀ (a b : Byte) (cin : Bool),
    (addC a b cin).value = a + b + (if cin then 1 else 0) ∧
    (addC a b cin).flags.c = some (decide (256 ≤ a.toNat + b.toNat + cin.toNat)) ∧
    (addC a b cin).flags.dc = some (decide (16 ≤ a.toNat % 16 + b.toNat % 16 + cin.toNat)) ∧
    (addC a b cin).flags.z = some (decide ((addC a b cin).value = 0)) ∧
    (addC a (~~~b) cin).value = a - b - (if cin then 0 else 1) ∧
    (addC a (~~~b) cin).flags.c = some (decide (b.toNat + (if cin then 0 else 1) ≤ a.toNat)) ∧
    (addC a (~~~b) cin).flags.dc =
      some (decide (b.toNat % 16 + (if cin then 0 else 1) ≤ a.toNat % 16))

/-- R201, R202: ADDWF and ADDWFC. -/
def Obligations.AddFileRules : Prop :=
  FlaggedFileRule 0x0700 .addwf (fun s v => v + s.stored .wreg)
    (fun s v => (decide (256 ≤ v.toNat + (s.stored .wreg).toNat),
      decide (16 ≤ v.toNat % 16 + (s.stored .wreg).toNat % 16), decide (v + s.stored .wreg = 0))) ∧
  FlaggedFileRule 0x3D00 .addwfc (fun s v => v + s.stored .wreg + (if flag s 0 then 1 else 0))
    (fun s v => (decide (256 ≤ v.toNat + (s.stored .wreg).toNat + (flag s 0).toNat),
      decide (16 ≤ v.toNat % 16 + (s.stored .wreg).toNat % 16 + (flag s 0).toNat),
      decide (v + s.stored .wreg + (if flag s 0 then 1 else 0) = 0)))

/-- R204, R205: SUBWF and SUBWFB, f the minuend and W the subtrahend. -/
def Obligations.SubtractFileRules : Prop :=
  FlaggedFileRule 0x0200 .subwf (fun s v => v - s.stored .wreg)
    (fun s v => (decide (s.stored .wreg ≤ v),
      decide ((s.stored .wreg).toNat % 16 ≤ v.toNat % 16), decide (v = s.stored .wreg))) ∧
  FlaggedFileRule 0x3B00 .subwfb (fun s v => v - s.stored .wreg - (if flag s 0 then 0 else 1))
    (fun s v => (decide ((s.stored .wreg).toNat + (if flag s 0 then 0 else 1) ≤ v.toNat),
      decide ((s.stored .wreg).toNat % 16 + (if flag s 0 then 0 else 1) ≤ v.toNat % 16),
      decide (v - s.stored .wreg - (if flag s 0 then 0 else 1) = 0)))

/-- R203, R206: ADDLW and SUBLW (k - W). -/
def Obligations.AddSubLiteralRules : Prop :=
  LiteralRule 0x3E00 .addlw (fun s k => s.stored .wreg + k)
    (fun s k => (decide (256 ≤ (s.stored .wreg).toNat + k.toNat),
      decide (16 ≤ (s.stored .wreg).toNat % 16 + k.toNat % 16), decide (s.stored .wreg + k = 0))) ∧
  LiteralRule 0x3C00 .sublw (fun s k => k - s.stored .wreg)
    (fun s k => (decide (s.stored .wreg ≤ k),
      decide ((s.stored .wreg).toNat % 16 ≤ k.toNat % 16), decide (k = s.stored .wreg)))

/-! ## Logic, increment and decrement, rotate and shift -/

/-- R221, R223, R225: ANDWF, IORWF, XORWF. -/
def Obligations.LogicFileRules : Prop :=
  FlaggedFileRule 0x0500 .andwf (fun s v => v &&& s.stored .wreg)
    (fun s v => (flag s 0, flag s 1, decide (v &&& s.stored .wreg = 0))) ∧
  FlaggedFileRule 0x0400 .iorwf (fun s v => v ||| s.stored .wreg)
    (fun s v => (flag s 0, flag s 1, decide (v = 0 ∧ s.stored .wreg = 0))) ∧
  FlaggedFileRule 0x0600 .xorwf (fun s v => v ^^^ s.stored .wreg)
    (fun s v => (flag s 0, flag s 1, decide (v = s.stored .wreg)))

/-- R222, R224, R226: ANDLW, IORLW, XORLW. -/
def Obligations.LogicLiteralRules : Prop :=
  LiteralRule 0x3900 .andlw (fun s k => s.stored .wreg &&& k)
    (fun s k => (flag s 0, flag s 1, decide (s.stored .wreg &&& k = 0))) ∧
  LiteralRule 0x3800 .iorlw (fun s k => s.stored .wreg ||| k)
    (fun s k => (flag s 0, flag s 1, decide (s.stored .wreg = 0 ∧ k = 0))) ∧
  LiteralRule 0x3A00 .xorlw (fun s k => s.stored .wreg ^^^ k)
    (fun s k => (flag s 0, flag s 1, decide (s.stored .wreg = k)))

/-- R241, R242: INCF and DECF. -/
def Obligations.IncrementDecrementRules : Prop :=
  FlaggedFileRule 0x0A00 .incf (fun _ v => v + 1)
    (fun s v => (flag s 0, flag s 1, decide (v = 0xFF))) ∧
  FlaggedFileRule 0x0300 .decf (fun _ v => v - 1)
    (fun s v => (flag s 0, flag s 1, decide (v = 1)))

/-- R243, R244: INCFSZ and DECFSZ. -/
def Obligations.SkipOnZeroRules : Prop :=
  SkipFileRule 0x0F00 .incfsz (fun v => v + 1) ∧ SkipFileRule 0x0B00 .decfsz (fun v => v - 1)

/-- R261, R262: RLF and RRF, through the carry. -/
def Obligations.RotateRules : Prop :=
  FlaggedFileRule 0x0D00 .rlf (fun s v => (v <<< 1) ||| (if flag s 0 then 0x01 else 0))
    (fun s v => (v.getLsbD 7, flag s 1, flag s 2)) ∧
  FlaggedFileRule 0x0C00 .rrf (fun s v => (v >>> 1) ||| (if flag s 0 then 0x80 else 0))
    (fun s v => (v.getLsbD 0, flag s 1, flag s 2))

/-- R263, R264, R265: LSLF, LSRF, ASRF. -/
def Obligations.ShiftRules : Prop :=
  FlaggedFileRule 0x3500 .lslf (fun _ v => v <<< 1)
    (fun s v => (v.getLsbD 7, flag s 1, decide (v <<< 1 = 0))) ∧
  FlaggedFileRule 0x3600 .lsrf (fun _ v => v >>> 1)
    (fun s v => (v.getLsbD 0, flag s 1, decide (v >>> 1 = 0))) ∧
  FlaggedFileRule 0x3700 .asrf (fun _ v => v.sshiftRight 1)
    (fun s v => (v.getLsbD 0, flag s 1, decide (v.sshiftRight 1 = 0)))

/-! ## Bit, move, complement, swap, clear -/

/-- R281, R282: BCF and BSF. -/
def Obligations.BitChangeRules : Prop :=
  BitChangeRule 0x1000 .bcf (fun v b => v &&& ~~~(1#8 <<< b)) ∧
  BitChangeRule 0x1400 .bsf (fun v b => v ||| (1#8 <<< b))

/-- R283, R284: BTFSC and BTFSS. -/
def Obligations.BitTestRules : Prop :=
  BitTestRule 0x1800 .btfsc false ∧ BitTestRule 0x1C00 .btfss true

/-- R301, R304: MOVF and COMF. -/
def Obligations.MoveComplementRules : Prop :=
  FlaggedFileRule 0x0800 .movf (fun _ v => v) (fun s v => (flag s 0, flag s 1, decide (v = 0))) ∧
  FlaggedFileRule 0x0900 .comf (fun _ v => ~~~v) (fun s v => (flag s 0, flag s 1, decide (v = 0xFF)))

/-- R305: SWAPF. -/
def Obligations.SwapRule : Prop :=
  ∀ (s : State) (d : Dest) (f : FileReg),
    decode (0x0E00 ||| fdBits d f) = .ok (.swapf d f) ∧
    (∀ e, operand s f = .error e → exec (.swapf d f) s = .fault e) ∧
    (∀ t v, operand s f = .ok (t, v) → ∃ u, exec (.swapf d f) s = .next u ∧
      s.Becomes u (plainCells s d t ((v <<< 4) ||| (v >>> 4)))
        (if d = .w then s.pc else targetPc s t ((v <<< 4) ||| (v >>> 4))) 1)

/-- R302: MOVWF writes W to its operand and never reads it: the only faults are those of the target. -/
def Obligations.MoveToFileRule : Prop :=
  ∀ (s : State) (f : FileReg),
    decode (0x0080 ||| f.setWidth 14) = .ok (.movwf f) ∧
    (∀ e, s.fileTarget f = .error e → exec (.movwf f) s = .fault e) ∧
    (∀ c, s.fileTarget f = .ok (.cell c) → forbidden (.cell c) →
      exec (.movwf f) s = .fault (.unmodelledRegister c)) ∧
    (∀ t, s.fileTarget f = .ok t → ¬ forbidden t → ∃ u, exec (.movwf f) s = .next u ∧
      s.Becomes u (targetCells s.stored t (s.stored .wreg)) (targetPc s t (s.stored .wreg)) 1)

/-- R306, which the spec marks as from general knowledge: CLRF clears its operand without reading it and
sets Z; STATUS as the operand keeps C and DC. -/
def Obligations.ClearFileRule : Prop :=
  ∀ (s : State) (f : FileReg),
    decode (0x0180 ||| f.setWidth 14) = .ok (.clrf f) ∧
    (∀ e, s.fileTarget f = .error e → exec (.clrf f) s = .fault e) ∧
    (∀ c, s.fileTarget f = .ok (.cell c) → forbidden (.cell c) →
      exec (.clrf f) s = .fault (.unmodelledRegister c)) ∧
    (∀ t, s.fileTarget f = .ok t → ¬ forbidden t → ∃ u, exec (.clrf f) s = .next u ∧
      s.Becomes u (flaggedCells s .f t 0 (flag s 0, flag s 1, true)) (targetPc s t 0) 1)

/-- R303, R307 (which the spec marks as from general knowledge): MOVLW and CLRW, whose field x is
ignored. -/
def Obligations.MoveLiteralClearRules : Prop :=
  (∀ (s : State) (k : Byte), decode (0x3000 ||| k.setWidth 14) = .ok (.movlw k) ∧
    ∃ u, exec (.movlw k) s = .next u ∧ s.Becomes u (Function.update s.stored .wreg k) s.pc 1) ∧
  (∀ (s : State) (x : BitVec 2), decode (0x0100 ||| x.setWidth 14) = .ok (.clrw x) ∧
    ∃ u, exec (.clrw x) s = .next u ∧
      s.Becomes u (withFlags (Function.update s.stored .wreg 0) (flag s 0, flag s 1, true)) s.pc 1)

/-! ## Control transfer -/

/-- R321: GOTO jumps to PCLATH[6:3] : k. -/
def Obligations.GotoRule : Prop :=
  ∀ (s : State) (k : BitVec 11), decode (0x2800 ||| k.setWidth 14) = .ok (.goto k) ∧
    ∃ u, exec (.goto k) s = .next u ∧
      s.Becomes u s.stored ((s.stored .pclath).extractLsb' 3 4 ++ k) 2

/-- R322, R323, R66: CALL and CALLW push pc, the address of the next instruction, and jump. -/
def Obligations.CallRules : Prop :=
  (∀ (s : State) (k : BitVec 11), decode (0x2000 ||| k.setWidth 14) = .ok (.call k) ∧
    ∃ u, exec (.call k) s = .next u ∧
      s.Becomes u (pushCells s) ((s.stored .pclath).extractLsb' 3 4 ++ k) 2 (pushStack s s.pc)) ∧
  (∀ s : State, decode 0x000A = .ok .callw ∧
    ∃ u, exec .callw s = .next u ∧
      s.Becomes u (pushCells s) ((s.stored .pclath).extractLsb' 0 7 ++ s.stored .wreg) 2
        (pushStack s s.pc))

/-- R324, R325: BRA and BRW are relative to the address after the instruction. -/
def Obligations.RelativeBranchRules : Prop :=
  (∀ (s : State) (k : BitVec 9), decode (0x3200 ||| k.setWidth 14) = .ok (.bra k) ∧
    ∃ u, exec (.bra k) s = .next u ∧
      s.Becomes u s.stored (BitVec.ofInt 15 ((s.pc.toNat : Int) + k.toInt)) 2) ∧
  (∀ s : State, decode 0x000B = .ok .brw ∧
    ∃ u, exec .brw s = .next u ∧
      s.Becomes u s.stored (BitVec.ofNat 15 (s.pc.toNat + (s.stored .wreg).toNat)) 2)

/-- R326, R327, R67: RETURN and RETLW pop pc. -/
def Obligations.ReturnRules : Prop :=
  (∀ s : State, decode 0x0008 = .ok .ret ∧
    ∃ u, exec .ret s = .next u ∧ s.Becomes u (popCells s) (popValue s) 2) ∧
  (∀ (s : State) (k : Byte), decode (0x3400 ||| k.setWidth 14) = .ok (.retlw k) ∧
    ∃ u, exec (.retlw k) s = .next u ∧
      s.Becomes u (Function.update (popCells s) .wreg k) (popValue s) 2)

/-- R328, whose restore and GIE the spec marks as its decision D24: RETFIE pops pc, restores the registers
from the shadow cells and sets GIE. -/
def Obligations.RetfieRule : Prop :=
  ∀ s : State, decode 0x0009 = .ok .retfie ∧
    ∃ u, exec .retfie s = .next u ∧ s.Becomes u (retfieCells s) (popValue s) 2

/-- A consequence of R66 and R67, over Push and Pop themselves: the values of up to 16 pushes are popped
last in first out, whatever the stack pointer and the slots were. -/
def Obligations.PushesPopInOrder : Prop :=
  ∀ (s : State) (vs : List Pc), vs.length ≤ 16 →
    popList vs.length (vs.foldl State.push s) = vs.reverse

/-- R68, whose idle value the spec marks as derived: from the idle stack pointer, sixteen pushes leave
STKOVF as it was and the seventeenth sets it and writes the slot of the first. -/
def Obligations.SeventeenthPushOverflows : Prop :=
  ∀ (s : State) (vs : List Pc) (v : Pc), s.stored .stkptr = 0x1F → vs.length = 16 →
    (s.stored .pcon).getLsbD 7 = false →
    ((vs.foldl State.push s).stored .pcon).getLsbD 7 = false ∧
    (((vs.foldl State.push s).push v).stored .pcon).getLsbD 7 = true ∧
    (vs.foldl State.push s).stack[0] = vs.headD 0 ∧ ((vs.foldl State.push s).push v).stack[0] = v

/-! ## Bank, page, legacy and system -/

/-- R351, R352: MOVLB and MOVLP. -/
def Obligations.BankPageRules : Prop :=
  (∀ (s : State) (k : BitVec 5), decode (0x0020 ||| k.setWidth 14) = .ok (.movlb k) ∧
    ∃ u, exec (.movlb k) s = .next u ∧
      s.Becomes u (Function.update s.stored .bsr (BitVec.ofNat 8 k.toNat)) s.pc 1) ∧
  (∀ (s : State) (k : BitVec 7), decode (0x3180 ||| k.setWidth 14) = .ok (.movlp k) ∧
    ∃ u, exec (.movlp k) s = .next u ∧
      s.Becomes u (Function.update s.stored .pclath (BitVec.ofNat 8 k.toNat)) s.pc 1)

/-- R353, R354: OPTION and TRIS write W into OPTION_REG and TRISA, TRISB, TRISC. -/
def Obligations.LegacyRules : Prop :=
  (∀ s : State, decode 0x0062 = .ok .option ∧
    ∃ u, exec .option s = .next u ∧
      s.Becomes u (Function.update s.stored .optionReg (s.stored .wreg)) s.pc 1) ∧
  (∀ (s : State) (f : BitVec 3), 5 ≤ f.toNat →
    decode (0x0060 ||| f.setWidth 14) = .ok (.tris f) ∧
    ∃ u, exec (.tris f) s = .next u ∧
      s.Becomes u (Function.update s.stored
        (if f = 5 then .trisa else if f = 6 then .trisb else .trisc) (s.stored .wreg)) s.pc 1)

/-- R355, R357, R358: only the word 0x0000 is NOP and it changes nothing; SLEEP and CLRWDT write nPD and
nTO, and SLEEP enters Asleep. -/
def Obligations.NopSleepClrwdtRules : Prop :=
  (∀ s : State, decode 0x0000 = .ok .nop ∧
    ∃ u, exec .nop s = .next u ∧ s.Becomes u s.stored s.pc 1) ∧
  (∀ w : Word, decode w = .ok .nop → w = 0) ∧
  (∀ s : State, decode 0x0063 = .ok .sleep ∧
    ∃ u, exec .sleep s = .next u ∧
      s.Becomes u (Function.update s.stored .status ((s.stored .status &&& 0xE7) ||| 0x10)) s.pc 1
        s.stack .asleep) ∧
  (∀ s : State, decode 0x0064 = .ok .clrwdt ∧
    ∃ u, exec .clrwdt s = .next u ∧
      s.Becomes u (Function.update s.stored .status (s.stored .status ||| 0x18)) s.pc 1)

/-- R441, R443 and R356: both reset causes leave the same registers; the RESET instruction keeps the
stack slots and counts its cycle, a power-on reset clears the count; program memory is kept by both. -/
def Obligations.ResetEffects : Prop :=
  ∀ s : State,
    decode 0x0001 = .ok .reset ∧
    (∃ u, exec .reset s = .next u ∧ ResetRegisters u ∧ u.pmem = s.pmem ∧ u.stack = s.stack ∧
      u.cycles = s.cycles + 1) ∧
    (ResetRegisters s.powerOnReset ∧ s.powerOnReset.pmem = s.pmem ∧ s.powerOnReset.cycles = 0)

/-! ## Indirect -/

/-- R381: MOVIW with a pointer mode. The byte is read after a pre-mode's update of FSRn; a fault of the
read is raised. -/
def Obligations.MoveIndirectToWRule : Prop :=
  ∀ (s : State) (n : Fsr) (m : PtrMode),
    decode (0x0010 ||| (fsrBit n ++ modeBits m).setWidth 14) = .ok (.moviw n m) ∧
    (∀ e, (s.beforeAccess n m).indRead (accessedAddr m (pointer s n)) = .error e →
      exec (.moviw n m) s = .fault e) ∧
    (∀ v, (s.beforeAccess n m).indRead (accessedAddr m (pointer s n)) = .ok v →
      ∃ u, exec (.moviw n m) s = .next u ∧
        s.Becomes u (cellsLast s n m (withFlags (Function.update (cellsBefore s n m) .wreg v)
          (flag s 0, flag s 1, decide (v = 0)))) s.pc 1)

/-- R382: MOVIW k[FSRn]. -/
def Obligations.MoveIndexedToWRule : Prop :=
  ∀ (s : State) (n : Fsr) (k : BitVec 6),
    decode (0x3F00 ||| (fsrBit n ++ k).setWidth 14) = .ok (.moviwk n k) ∧
    (∀ e, s.indRead (BitVec.ofInt 16 ((pointer s n).toNat + k.toInt)) = .error e →
      exec (.moviwk n k) s = .fault e) ∧
    (∀ v, s.indRead (BitVec.ofInt 16 ((pointer s n).toNat + k.toInt)) = .ok v →
      ∃ u, exec (.moviwk n k) s = .next u ∧
        s.Becomes u (withFlags (Function.update s.stored .wreg v)
          (flag s 0, flag s 1, decide (v = 0))) s.pc 1)

/-- R383: MOVWI with a pointer mode; a post-mode's update is the last write. -/
def Obligations.MoveWToIndirectRule : Prop :=
  ∀ (s : State) (n : Fsr) (m : PtrMode),
    decode (0x0018 ||| (fsrBit n ++ modeBits m).setWidth 14) = .ok (.movwi n m) ∧
    (∀ e, indTarget (accessedAddr m (pointer s n)) = .error e → exec (.movwi n m) s = .fault e) ∧
    (∀ c, indTarget (accessedAddr m (pointer s n)) = .ok (.cell c) → forbidden (.cell c) →
      exec (.movwi n m) s = .fault (.unmodelledRegister c)) ∧
    (∀ t, indTarget (accessedAddr m (pointer s n)) = .ok t → ¬ forbidden t →
      ∃ u, exec (.movwi n m) s = .next u ∧
        s.Becomes u (cellsLast s n m (targetCells (cellsBefore s n m) t (s.stored .wreg)))
          (targetPc s t (s.stored .wreg)) 1)

/-- R384: MOVWI k[FSRn]. -/
def Obligations.MoveWToIndexedRule : Prop :=
  ∀ (s : State) (n : Fsr) (k : BitVec 6),
    decode (0x3F80 ||| (fsrBit n ++ k).setWidth 14) = .ok (.movwik n k) ∧
    (∀ e, indTarget (BitVec.ofInt 16 ((pointer s n).toNat + k.toInt)) = .error e →
      exec (.movwik n k) s = .fault e) ∧
    (∀ c, indTarget (BitVec.ofInt 16 ((pointer s n).toNat + k.toInt)) = .ok (.cell c) →
      forbidden (.cell c) → exec (.movwik n k) s = .fault (.unmodelledRegister c)) ∧
    (∀ t, indTarget (BitVec.ofInt 16 ((pointer s n).toNat + k.toInt)) = .ok t → ¬ forbidden t →
      ∃ u, exec (.movwik n k) s = .next u ∧
        s.Becomes u (targetCells s.stored t (s.stored .wreg)) (targetPc s t (s.stored .wreg)) 1)

/-- R385, which the spec marks as from general knowledge: ADDFSR adds the signed literal to the pointer,
modulo 2^16. -/
def Obligations.AddFsrRule : Prop :=
  ∀ (s : State) (n : Fsr) (k : BitVec 6),
    decode (0x3100 ||| (fsrBit n ++ k).setWidth 14) = .ok (.addfsr n k) ∧
    ∃ u, exec (.addfsr n k) s = .next u ∧
      s.Becomes u (pointerCells s.stored n (BitVec.ofInt 16 ((pointer s n).toNat + k.toInt))) s.pc 1

/-! ## The step, faults and interrupts -/

/-- A step runs the decoded instruction (70_reset R447) in the state with pc advanced by one and nothing
else changed, and takes the fault it raises. -/
def Obligations.StepRunsDecoded : Prop :=
  ∀ (s : State) (w : Word) (i : Instr), s.mode = .running → noInterrupt s → fetched s = some w →
    decode w = .ok i →
    s.advance = { s with pc := s.pc + 1 } ∧
    (∀ t, exec i s.advance = .next t → step s = .next t) ∧
    (∀ e, exec i s.advance = .fault e → step s = .next (s.takeFault e))

/-- R401: a step that faults undoes every change: pc, every cell, the stack, program memory and the
cycles are those before the step, and the mode is Faulted(kind, info). -/
def Obligations.FaultUndoesStep : Prop :=
  ∀ (s t : State) (e : Fault), (∀ e', s.mode ≠ .faulted e') → step s = .next t →
    t.mode = .faulted e →
    t.pc = s.pc ∧ (∀ c, t.stored c = s.stored c) ∧ t.stack = s.stack ∧ t.pmem = s.pmem ∧
    t.cycles = s.cycles ∧ t = { s with mode := .faulted e }

/-- R402: Faulted is terminal; a step and a run leave the core as it is, a program load and a named write
keep the mode, and a power-on reset leaves it. -/
def Obligations.FaultedIsTerminal : Prop :=
  ∀ (s : State) (e : Fault), s.mode = .faulted e →
    step s = .next s ∧ (∀ n halt, s.run n halt = .next s) ∧
    (∀ base words u, s.load base words = .ok u → u.mode = .faulted e) ∧
    (∀ map name v u, s.namedWrite map name v = .ok u → u.mode = .faulted e) ∧
    s.powerOnReset.mode = .running

/-- R407, R408, with the pending test of R406: the fault of a running core with GIE set before its fetch,
and of a sleeping core whatever GIE is; asleep with nothing pending nothing changes. -/
def Obligations.InterruptChecks : Prop :=
  ∀ s : State,
    (s.pending = true ↔
      (((s.stored .intcon).getLsbD 5 = true ∧ (s.stored .intcon).getLsbD 2 = true) ∨
        ((s.stored .intcon).getLsbD 4 = true ∧ (s.stored .intcon).getLsbD 1 = true) ∨
        ((s.stored .intcon).getLsbD 3 = true ∧ (s.stored .intcon).getLsbD 0 = true)) ∨
      ((s.stored .intcon).getLsbD 6 = true ∧ Config.periphPending s.cellByte = true)) ∧
    (s.mode = .running → (s.stored .intcon).getLsbD 7 = true → s.pending = true →
      step s = .next { s with mode := .faulted (.interruptNotModelled (s.stored .intcon)) }) ∧
    (s.mode = .asleep → s.pending = true →
      step s = .next { s with mode := .faulted (.interruptNotModelled (s.stored .intcon)) }) ∧
    (s.mode = .asleep → s.pending = false → step s = .next s)

/-- A running core whose fetch address holds no loaded word takes UnloadedProgramWord (10_state R61,
70_reset R447). -/
def Obligations.UnloadedFetchFaults : Prop :=
  ∀ s : State, s.mode = .running → noInterrupt s → fetched s = none →
    step s = .next { s with mode := .faulted (.unloadedProgramWord (s.pc.extractLsb' 0 11)) }

/-- No instruction is refused, and a step answers a next state whatever the state is. The second clause is
the model's choice: a fault is a next state in mode Faulted (log entry 6), and a step of a core that is
Faulted, or Asleep with nothing pending, answers the same state (log entry 8). It does not say that an
instruction completes. -/
def Obligations.StepAnswersNext : Prop :=
  (∀ (i : Instr) (s : State) (r : Refusal), exec i s ≠ .refused r) ∧
  (∀ s : State, ∃ t, step s = .next t)

/-! ## Invariants and whole-machine rules -/

/-- Every step keeps the canonical form of both memories and the widths of STATUS, BSR, PCLATH and
STKPTR. -/
def Obligations.StepKeepsInvariant : Prop :=
  ∀ s t : State, s.Inv → step s = .next t → t.Inv

/-- The reset state meets the invariant that every step keeps. -/
def Obligations.ResetMeetsInvariant : Prop := State.reset.Inv

/-- What reset leaves, in the values that the spec gives (10_state R70, R71; 70_reset R442, R444). -/
def Obligations.ResetStateValues : Prop :=
  State.reset.pc = 0 ∧ State.reset.mode = .running ∧ State.reset.cycles = 0 ∧
  (∀ c ∈ [Cell.wreg, .bsr, .pclath, .fsr0l, .fsr0h, .fsr1l, .fsr1h], State.reset.stored c = 0) ∧
  State.reset.stored .status &&& 0xF8 = 0x18 ∧ State.reset.stored .intcon &&& 0xFE = 0 ∧
  State.reset.stored .pcon &&& 0xF0 = 0 ∧ State.reset.stored .stkptr = 0x1F ∧
  (∀ c ∈ [Cell.optionReg, .trisa, .trisb], State.reset.stored c = 0xFF) ∧
  (∀ a : PmAddr, State.reset.pmRead a = .error (.unloadedProgramWord a))

/-- Every instruction that completes is charged its catalog cost: the one value of its row or, for the four
skips, one of their two (70_reset R454). Which of the two is SkipOnZeroRules and BitTestRules. -/
def Obligations.CyclesFollowCatalog : Prop :=
  ∀ e ∈ catalog, ∀ (w : Word) (s t : State), exec (e.build w) s = .next t →
    ∃ skipped : Bool, t.cycles = s.cycles + e.cost.cycles skipped

/-- An instruction changes no flag outside its catalog entry unless STATUS is its data target, and nPD and
nTO not even then (10_state R69). -/
def Obligations.FlagsFollowCatalog : Prop :=
  ∀ e ∈ catalog, ∀ (w : Word) (s t : State), exec (e.build w) s = .next t →
    (dataTarget s (e.build w) ≠ some (.cell .status) →
      (FlagName.c ∉ e.flags → flag t 0 = flag s 0) ∧ (FlagName.dc ∉ e.flags → flag t 1 = flag s 1) ∧
      (FlagName.z ∉ e.flags → flag t 2 = flag s 2)) ∧
    (FlagName.nPD ∉ e.flags → flag t 3 = flag s 3) ∧ (FlagName.nTO ∉ e.flags → flag t 4 = flag s 4)

/-- No instruction but a control transfer, a skip and RESET changes pc, unless PCL is its data target
(46_control R320). -/
def Obligations.PcChangesOnlyByTransfer : Prop :=
  ∀ (i : Instr) (s t : State), exec i s = .next t → dataTarget s i ≠ some (.cell .pcl) →
    t.pc = match i with
      | .goto k | .call k => (s.stored .pclath).extractLsb' 3 4 ++ k
      | .callw => (s.stored .pclath).extractLsb' 0 7 ++ s.stored .wreg
      | .bra k => s.pc + k.signExtend 15
      | .brw => s.pc + (s.stored .wreg).setWidth 15
      | .ret | .retlw _ | .retfie => popValue s
      | .reset => 0
      | .incfsz _ _ | .decfsz _ _ | .btfsc _ _ | .btfss _ _ =>
        if t.cycles = s.cycles + 2 then s.pc + 1 else s.pc
      | _ => s.pc

/-- PCLATH changes only by MOVLP, RETFIE, RESET or a data write to it (46_control R320). -/
def Obligations.PclathChangesOnlyBy : Prop :=
  ∀ (i : Instr) (s t : State), exec i s = .next t → dataTarget s i ≠ some (.cell .pclath) →
    (∀ k, i ≠ .movlp k) → i ≠ .retfie → i ≠ .reset → t.stored .pclath = s.stored .pclath

/-- Only CALL and CALLW write a stack slot, only SLEEP and RESET change the mode of a completed
instruction, and no instruction writes program memory (20_memory R118, R123; 10_state R62). -/
def Obligations.PrivateStoresKept : Prop :=
  ∀ (i : Instr) (s t : State), exec i s = .next t →
    t.pmem = s.pmem ∧
    ((∀ k, i ≠ .call k) → i ≠ .callw → t.stack = s.stack) ∧
    (i ≠ .sleep → i ≠ .reset → t.mode = s.mode)

/-- The shadow registers are written by nothing but data writes and resets (10_state R57). -/
def Obligations.ShadowsWrittenOnlyAsData : Prop :=
  ∀ (i : Instr) (s t : State) (c : Cell), exec i s = .next t → i ≠ .reset → c ∈ Cell.shadows →
    dataTarget s i ≠ some (.cell c) → t.stored c = s.stored c

/-! ## The host -/

/-- R446: a program load is all or nothing, and changes program memory only. -/
def Obligations.LoadAllOrNothing : Prop :=
  ∀ (s : State) (base : Nat) (words : List Nat),
    if base + words.length > 2048 ∨ ∃ w ∈ words, 0x3FFF < w then
      s.load base words = .error .loadError
    else
      ∃ u, s.load base words = .ok u ∧ u = { s with pmem := u.pmem } ∧
        ∀ a, Assoc.find u.pmem a =
          if base ≤ a ∧ a < base + words.length then (words[a - base]?).map (BitVec.ofNat 14)
          else Assoc.find s.pmem a
end

