-- ==== Sys2Proof/Laws/Decode.lean ====
section
/-! SUPPORT. The catalog's templates are apart from each other, so a word that one template matches
decodes to the instruction its fields make. -/

namespace Sys2Proof

/-- Two templates that no word can match together: they differ in a bit both fix, or one fixes every bit
and its word is not one the other matches (30_encoding R164, R175). -/
def Template.apart (e e' : Template) : Bool :=
  ((e.bits ^^^ e'.bits) &&& (e.mask &&& e'.mask)) != 0
    || (e'.mask == 0x3FFF && !e.matches e'.bits) || (e.mask == 0x3FFF && !e'.matches e.bits)

theorem Template.matches_iff {e : Template} {w : Word} :
    e.matches w = true ↔ w &&& e.mask = e.bits ∧ e.ok w = true := by
  simp [Template.matches]

theorem Template.eq_bits_of_full {e : Template} {w : Word} (hm : e.mask = 0x3FFF) (h : e.matches w = true) :
    w = e.bits := by
  have := (Template.matches_iff.1 h).1
  rw [hm] at this
  rw [← this]
  exact (BitVec.and_allOnes (x := w)).symm

theorem Template.apart_sound {e e' : Template} (h : e.apart e' = true) (w : Word) :
    ¬ (e.matches w = true ∧ e'.matches w = true) := by
  rintro ⟨h1, h2⟩
  simp only [Template.apart, Bool.or_eq_true, Bool.and_eq_true, bne_iff_ne, beq_iff_eq,
    Bool.not_eq_true'] at h
  rcases h with (h | ⟨hm, h⟩) | ⟨hm, h⟩
  · apply h
    rw [← (Template.matches_iff.1 h1).1, ← (Template.matches_iff.1 h2).1]
    ext i hi
    simp only [BitVec.getElem_and, BitVec.getElem_xor]
    cases w[i] <;> cases e.mask[i] <;> cases e'.mask[i] <;> simp
  · rw [← Template.eq_bits_of_full hm h2, h1] at h; cases h
  · rw [← Template.eq_bits_of_full hm h1, h2] at h; cases h

/-- No two rows of the catalog overlap (R164). -/
theorem catalog_apart : catalog.Pairwise (fun e e' => e.apart e' = true) := by
  decide +kernel

theorem filter_eq_singleton {l : List Template} (hl : l.Pairwise (fun e e' => e.apart e' = true))
    {e : Template} {w : Word} (he : e ∈ l) (hw : e.matches w = true) :
    l.filter (·.matches w) = [e] := by
  induction l with
  | nil => cases he
  | cons x l ih =>
    obtain ⟨hx, hl⟩ := List.pairwise_cons.1 hl
    rcases List.mem_cons.1 he with rfl | he
    · rw [List.filter_cons_of_pos (p := fun x : Template => x.matches w) hw, List.filter_eq_nil_iff.2]
      intro y hy hy'
      exact Template.apart_sound (hx y hy) w ⟨hw, hy'⟩
    · rw [List.filter_cons_of_neg (p := fun x : Template => x.matches w), ih hl he]
      exact fun hx' => Template.apart_sound (hx e he) w ⟨hx', hw⟩

/-- A word that a row matches decodes to the instruction the row's fields make (R164). -/
theorem decode_of_matches {e : Template} {w : Word} (he : e ∈ catalog) (hw : e.matches w = true) :
    decode w = .ok (e.build w) := by
  rw [decode, filter_eq_singleton catalog_apart he hw]

/-- The decoder's view of such a word: the row's mnemonic and fields (R165). -/
theorem decodeView_of_matches {e : Template} {w : Word} (he : e ∈ catalog) (hw : e.matches w = true) :
    decodeView w = some (e.mnemonic,
      e.fields.foldl (fun v F => v.set F.name (w.extractLsb' F.lo F.width).toNat) {}) := by
  rw [decodeView, filter_eq_singleton catalog_apart he hw]

/-- What decodes is the instruction of a row that matches. -/
theorem decode_ok {w : Word} {i : Instr} (h : decode w = .ok i) :
    ∃ e ∈ catalog, e.matches w = true ∧ e.build w = i := by
  unfold decode at h
  split at h
  · cases h
  · next e he =>
    cases h
    have hm : e ∈ catalog.filter (·.matches w) := by rw [he]; exact List.mem_singleton.2 rfl
    exact ⟨e, (List.mem_filter.1 hm).1, (List.mem_filter.1 hm).2, rfl⟩
  · cases h

end Sys2Proof
end

