-- ==== Sys2Proof/Laws/Memory.lean ====
section
/-! SUPPORT. Lists in canonical form: read after write, and that every memory operation keeps the form.
Cells and their places in the list. -/

namespace Sys2Proof.Machine

/-! ## Cells and places -/

theorem Cell.key_lt (c : Cell) : c.key < Cell.count := by
  cases c with
  | sfr b l => have := b.isLt; have := l.isLt; simp only [Cell.key, Cell.count]; omega
  | gpr i => have := i.isLt; simp only [Cell.key, Cell.count]; omega

@[simp] theorem Cell.ofKey_key (c : Cell) : Cell.ofKey c.key = c := by
  cases c with
  | sfr b l =>
    have := b.isLt; have := l.isLt
    have h : b.val * 32 + l.val < 1024 := by omega
    simp only [Cell.key, Cell.ofKey, h, if_true, Cell.sfr.injEq, Fin.ext_iff, Fin.val_ofNat]
    omega
  | gpr i =>
    have h : ¬ 1024 + i.val < 1024 := by omega
    have := i.isLt
    simp only [Cell.key, Cell.ofKey, h, if_false, Cell.gpr.injEq, Fin.ext_iff, Fin.val_ofNat]
    omega

theorem Cell.key_inj {a b : Cell} (h : a.key = b.key) : a = b := by
  simpa using congrArg Cell.ofKey h

@[simp] theorem Cell.key_eq_iff {a b : Cell} : a.key = b.key ↔ a = b :=
  ⟨Cell.key_inj, fun h => by rw [h]⟩

/-! ## Lists by address -/

theorem Assoc.find_insert {α : Type} (a b : Nat) (v : α) (m : List (Nat × α)) :
    Assoc.find (Assoc.insert a v m) b = if b = a then some v else Assoc.find m b := by
  induction m with
  | nil => rfl
  | cons e m ih =>
    obtain ⟨k, x⟩ := e
    simp only [Assoc.insert]
    split
    · rfl
    · split
      · subst_vars
        simp only [Assoc.find]
        split <;> rfl
      · simp only [Assoc.find, ih]
        split <;> split <;> first | rfl | omega

theorem Assoc.find_erase {α : Type} (a b : Nat) (m : List (Nat × α)) :
    Assoc.find (Assoc.erase a m) b = if b = a then none else Assoc.find m b := by
  induction m with
  | nil => simp [Assoc.erase, Assoc.find]
  | cons e m ih =>
    obtain ⟨k, x⟩ := e
    simp only [Assoc.erase] at ih ⊢
    by_cases hk : k = a
    · subst hk
      simp only [List.filter, bne_self_eq_false, ih, Assoc.find]
      split <;> rfl
    · have : (k != a) = true := by simpa using hk
      simp only [List.filter, this, Assoc.find, ih]
      split <;> split <;> first | rfl | omega

theorem Assoc.mem_insert {α : Type} {a : Nat} {v : α} {m : List (Nat × α)} {e : Nat × α}
    (h : e ∈ Assoc.insert a v m) : e = (a, v) ∨ e ∈ m := by
  induction m with
  | nil => simpa [Assoc.insert] using h
  | cons x m ih =>
    obtain ⟨k, b⟩ := x
    simp only [Assoc.insert] at h
    split at h
    · simpa using h
    · split at h
      · rcases List.mem_cons.1 h with h | h <;> simp [h]
      · rcases List.mem_cons.1 h with h | h
        · simp [h]
        · rcases ih h with h | h <;> simp [h]

theorem Assoc.rising_insert {α : Type} (a : Nat) (v : α) {m : List (Nat × α)} (h : Assoc.rising m) :
    Assoc.rising (Assoc.insert a v m) := by
  induction m with
  | nil => simp [Assoc.rising, Assoc.insert]
  | cons x m ih =>
    obtain ⟨k, b⟩ := x
    simp only [Assoc.rising, List.map_cons, List.pairwise_cons, List.mem_map] at h ih
    obtain ⟨hk, hm⟩ := h
    simp only [Assoc.insert]
    split
    · rename_i hak
      simp only [Assoc.rising, List.map_cons, List.pairwise_cons, List.mem_cons, List.mem_map]
      exact ⟨fun y hy => by rcases hy with rfl | hy; exacts [hak, hak.trans (hk y hy)], hk, hm⟩
    · split
      · subst_vars
        simpa only [Assoc.rising, List.map_cons, List.pairwise_cons, List.mem_map] using ⟨hk, hm⟩
      · simp only [Assoc.rising, List.map_cons, List.pairwise_cons, List.mem_map]
        refine ⟨fun y ⟨e, he, hy⟩ => ?_, ih hm⟩
        rcases Assoc.mem_insert he with rfl | he
        · subst hy; dsimp only; omega
        · exact hk y ⟨e, he, hy⟩

theorem Assoc.rising_erase {α : Type} (a : Nat) {m : List (Nat × α)} (h : Assoc.rising m) :
    Assoc.rising (Assoc.erase a m) :=
  List.Pairwise.sublist (List.Sublist.map _ List.filter_sublist) h

/-! ## Data memory -/

/-- A read after a write: the byte written there, and every other address as it was. -/
theorem Memory.read_write (base : Nat → Byte) (m : List Host.Cell) (a b : Nat) (v : Byte) :
    Memory.read base (Memory.write base m a v) b = if b = a then v else Memory.read base m b := by
  unfold Memory.read Memory.write
  by_cases hv : v = base a
  · rw [if_pos hv, Assoc.find_erase]
    split
    · next h => simp [hv, h]
    · rfl
  · rw [if_neg hv, Assoc.find_insert]
    split <;> rfl

/-- A write of a cell keeps the canonical form. -/
theorem Memory.wf_write {base : Nat → Byte} {m : List Host.Cell} {a : Nat} (v : Byte)
    (h : Memory.wf base m) (ha : a < Cell.count) : Memory.wf base (Memory.write base m a v) := by
  unfold Memory.write
  split
  · exact ⟨Assoc.rising_erase a h.1, fun e he => h.2 e (List.mem_filter.1 he).1⟩
  · next hv =>
    refine ⟨Assoc.rising_insert a v h.1, fun e he => ?_⟩
    rcases Assoc.mem_insert he with rfl | he
    · exact ⟨ha, hv⟩
    · exact h.2 e he

/-- A loaded word keeps the canonical form of program memory. -/
theorem Pmem.wf_insert {m : List (Nat × Word)} {a : Nat} (w : Word) (h : Pmem.wf m) (ha : a < 2048) :
    Pmem.wf (Assoc.insert a w m) := by
  refine ⟨Assoc.rising_insert a w h.1, fun e he => ?_⟩
  rcases Assoc.mem_insert he with rfl | he
  · exact ha
  · exact h.2 e he

end Sys2Proof.Machine
end

