-- ==== Sys2Proof/Laws/State.lean ====
section
/-! SUPPORT. One lemma per field per update of the state, and what each named register operation leaves
of the cells and the fields. -/

namespace Sys2Proof.Machine

/-- The law of data storage (20_memory R104): a cell holds what was stored last. -/
@[simp] theorem State.store_stored (s : State) (c : Cell) (v : Byte) (a : Cell) :
    (s.store c v).stored a = if a = c then v else s.stored a := by
  simp only [State.stored, State.store, Memory.read_write, Cell.key_eq_iff]

/-! ## `store` -/

@[simp] theorem State.store_resets (s : State) (c : Cell) (v : Byte) : (s.store c v).resets = s.resets := rfl
@[simp] theorem State.store_pc (s : State) (c : Cell) (v : Byte) : (s.store c v).pc = s.pc := rfl
@[simp] theorem State.store_stack (s : State) (c : Cell) (v : Byte) : (s.store c v).stack = s.stack := rfl
@[simp] theorem State.store_pmem (s : State) (c : Cell) (v : Byte) : (s.store c v).pmem = s.pmem := rfl
@[simp] theorem State.store_mode (s : State) (c : Cell) (v : Byte) : (s.store c v).mode = s.mode := rfl
@[simp] theorem State.store_cycles (s : State) (c : Cell) (v : Byte) : (s.store c v).cycles = s.cycles := rfl

/-! ## `setPc` -/

@[simp] theorem State.setPc_mem (s : State) (p : Pc) : (s.setPc p).mem = s.mem := rfl
@[simp] theorem State.setPc_resets (s : State) (p : Pc) : (s.setPc p).resets = s.resets := rfl
@[simp] theorem State.setPc_pc (s : State) (p : Pc) : (s.setPc p).pc = p := rfl
@[simp] theorem State.setPc_stack (s : State) (p : Pc) : (s.setPc p).stack = s.stack := rfl
@[simp] theorem State.setPc_pmem (s : State) (p : Pc) : (s.setPc p).pmem = s.pmem := rfl
@[simp] theorem State.setPc_mode (s : State) (p : Pc) : (s.setPc p).mode = s.mode := rfl
@[simp] theorem State.setPc_cycles (s : State) (p : Pc) : (s.setPc p).cycles = s.cycles := rfl
@[simp] theorem State.setPc_stored (s : State) (p : Pc) (a : Cell) : (s.setPc p).stored a = s.stored a := rfl

/-! ## `charge` -/

@[simp] theorem State.charge_mem (s : State) (n : Nat) : (s.charge n).mem = s.mem := rfl
@[simp] theorem State.charge_resets (s : State) (n : Nat) : (s.charge n).resets = s.resets := rfl
@[simp] theorem State.charge_pc (s : State) (n : Nat) : (s.charge n).pc = s.pc := rfl
@[simp] theorem State.charge_stack (s : State) (n : Nat) : (s.charge n).stack = s.stack := rfl
@[simp] theorem State.charge_pmem (s : State) (n : Nat) : (s.charge n).pmem = s.pmem := rfl
@[simp] theorem State.charge_mode (s : State) (n : Nat) : (s.charge n).mode = s.mode := rfl
@[simp] theorem State.charge_cycles (s : State) (n : Nat) : (s.charge n).cycles = s.cycles + n := rfl
@[simp] theorem State.charge_stored (s : State) (n : Nat) (a : Cell) : (s.charge n).stored a = s.stored a := rfl

/-! ## `setMode` -/

@[simp] theorem State.setMode_mem (s : State) (m : Mode) : (s.setMode m).mem = s.mem := rfl
@[simp] theorem State.setMode_resets (s : State) (m : Mode) : (s.setMode m).resets = s.resets := rfl
@[simp] theorem State.setMode_pc (s : State) (m : Mode) : (s.setMode m).pc = s.pc := rfl
@[simp] theorem State.setMode_stack (s : State) (m : Mode) : (s.setMode m).stack = s.stack := rfl
@[simp] theorem State.setMode_pmem (s : State) (m : Mode) : (s.setMode m).pmem = s.pmem := rfl
@[simp] theorem State.setMode_mode (s : State) (m : Mode) : (s.setMode m).mode = m := rfl
@[simp] theorem State.setMode_cycles (s : State) (m : Mode) : (s.setMode m).cycles = s.cycles := rfl
@[simp] theorem State.setMode_stored (s : State) (m : Mode) (a : Cell) : (s.setMode m).stored a = s.stored a := rfl

/-! ## `setSlot` -/

@[simp] theorem State.setSlot_mem (s : State) (i : BitVec 4) (v : Pc) : (s.setSlot i v).mem = s.mem := rfl
@[simp] theorem State.setSlot_resets (s : State) (i : BitVec 4) (v : Pc) : (s.setSlot i v).resets = s.resets := rfl
@[simp] theorem State.setSlot_pc (s : State) (i : BitVec 4) (v : Pc) : (s.setSlot i v).pc = s.pc := rfl
@[simp] theorem State.setSlot_stack (s : State) (i : BitVec 4) (v : Pc) : (s.setSlot i v).stack = s.stack.set i.toNat v i.isLt := rfl
@[simp] theorem State.setSlot_pmem (s : State) (i : BitVec 4) (v : Pc) : (s.setSlot i v).pmem = s.pmem := rfl
@[simp] theorem State.setSlot_mode (s : State) (i : BitVec 4) (v : Pc) : (s.setSlot i v).mode = s.mode := rfl
@[simp] theorem State.setSlot_cycles (s : State) (i : BitVec 4) (v : Pc) : (s.setSlot i v).cycles = s.cycles := rfl
@[simp] theorem State.setSlot_stored (s : State) (i : BitVec 4) (v : Pc) (a : Cell) : (s.setSlot i v).stored a = s.stored a := rfl

/-! ## Named registers, by the cells they are -/

theorem State.setW_eq (s : State) (v : Byte) : s.setW v = s.store .wreg v := rfl
theorem State.setBsr_eq (s : State) (v : BitVec 5) : s.setBsr v = s.store .bsr (v.setWidth 8) := rfl
theorem State.setPclath_eq (s : State) (v : BitVec 7) : s.setPclath v = s.store .pclath (v.setWidth 8) := rfl
theorem State.setSp_eq (s : State) (i : BitVec 4) : s.setSp i = s.store .stkptr (i.setWidth 8) := rfl

theorem State.w_eq (s : State) : s.w = s.stored .wreg := rfl
theorem State.status_eq (s : State) : s.status = s.stored .status := rfl
theorem State.carry_eq (s : State) : s.carry = (s.stored .status).getLsbD 0 := rfl
theorem State.bsr_eq (s : State) : s.bsr = (s.stored .bsr).extractLsb' 0 5 := rfl
theorem State.pclath_eq (s : State) : s.pclath = (s.stored .pclath).extractLsb' 0 7 := rfl
theorem State.sp_eq (s : State) : s.sp = (s.stored .stkptr).extractLsb' 0 5 := rfl
theorem State.intcon_eq (s : State) : s.intcon = s.stored .intcon := rfl

end Sys2Proof.Machine
end

