-- ==== Sys2Proof/Laws/Operands.lean ====
section
/-! SUPPORT. What each shared operation of the operand forms can do, said once: the claims' terms on the
right, so that a proof cites these lemmas and unfolds no operation. -/

namespace Sys2Proof.Machine

open Sys2Proof.Claims

/-! ## `Becomes` -/

theorem State.Becomes.refl (s : State) : s.Becomes s s.stored s.pc 0 :=
  ⟨fun _ => rfl, rfl, rfl, rfl, rfl, rfl, rfl⟩

theorem State.Becomes.charge {s u : State} {m : Cell → Byte} {p : Pc} {n : Nat} {st : Vector Pc 16}
    {mo : Mode} (h : s.Becomes u m p n st mo) (k : Nat) : s.Becomes (u.charge k) m p (n + k) st mo where
  cells := h.cells
  pc := h.pc
  cycles := by simp [h.cycles, Nat.add_assoc]
  stack := h.stack
  mode := h.mode
  pmem := h.pmem
  resets := h.resets

theorem State.Becomes.setPc {s u : State} {m : Cell → Byte} {p : Pc} {n : Nat} {st : Vector Pc 16}
    {mo : Mode} (h : s.Becomes u m p n st mo) (q : Pc) : s.Becomes (u.setPc q) m q n st mo where
  cells := h.cells
  pc := rfl
  cycles := h.cycles
  stack := h.stack
  mode := h.mode
  pmem := h.pmem
  resets := h.resets

theorem State.Becomes.setMode {s u : State} {m : Cell → Byte} {p : Pc} {n : Nat} {st : Vector Pc 16}
    {mo : Mode} (h : s.Becomes u m p n st mo) (x : Mode) : s.Becomes (u.setMode x) m p n st x where
  cells := h.cells
  pc := h.pc
  cycles := h.cycles
  stack := h.stack
  mode := rfl
  pmem := h.pmem
  resets := h.resets

theorem State.Becomes.store {s u : State} {m : Cell → Byte} {p : Pc} {n : Nat} {st : Vector Pc 16}
    {mo : Mode} (h : s.Becomes u m p n st mo) (c : Cell) (v : Byte) :
    s.Becomes (u.store c v) (Function.update m c v) p n st mo where
  cells := fun a => by
    rw [State.store_stored, h.cells, Function.update_apply]
  pc := h.pc
  cycles := h.cycles
  stack := h.stack
  mode := h.mode
  pmem := h.pmem
  resets := h.resets

theorem State.Becomes.setSlot {s u : State} {m : Cell → Byte} {p : Pc} {n : Nat} {st : Vector Pc 16}
    {mo : Mode} (h : s.Becomes u m p n st mo) (i : BitVec 4) (v : Pc) :
    s.Becomes (u.setSlot i v) m p n (st.set i.toNat v i.isLt) mo where
  cells := h.cells
  pc := h.pc
  cycles := h.cycles
  stack := by rw [State.setSlot_stack, h.stack]
  mode := h.mode
  pmem := h.pmem
  resets := h.resets

/-- The same effect in other words. -/
theorem State.Becomes.congr {s u : State} {m m' : Cell → Byte} {p p' : Pc} {n n' : Nat}
    {st st' : Vector Pc 16} {mo mo' : Mode} (h : s.Becomes u m p n st mo) (hm : ∀ c, m c = m' c)
    (hp : p = p') (hn : n = n') (hst : st = st') (hmo : mo = mo') : s.Becomes u m' p' n' st' mo' := by
  subst hp hn hst hmo
  exact ⟨fun c => (h.cells c).trans (hm c), h.pc, h.cycles, h.stack, h.mode, h.pmem, h.resets⟩

/-! ## Flags -/

theorem FlagWrite.onStatus_eq (F : FlagWrite) (old : Byte) :
    F.onStatus old = flagByte old (F.c.getD (old.getLsbD 0)) (F.dc.getD (old.getLsbD 1))
      (F.z.getD (old.getLsbD 2)) := by
  obtain ⟨c, dc, z⟩ := F
  rcases c with _ | _ | _ <;> rcases dc with _ | _ | _ <;> rcases z with _ | _ | _ <;>
    (revert old; decide +kernel)

theorem flagByte_old (old : Byte) :
    flagByte old (old.getLsbD 0) (old.getLsbD 1) (old.getLsbD 2) = old := by
  revert old; decide +kernel

/-- Writing flags, as the claims say it: a flag the write leaves alone keeps its value. -/
theorem State.Becomes.setFlags {s u : State} {m : Cell → Byte} {p : Pc} {n : Nat} {st : Vector Pc 16}
    {mo : Mode} (h : s.Becomes u m p n st mo) (F : FlagWrite) :
    s.Becomes (u.setFlags F) (withFlags m (F.c.getD ((m .status).getLsbD 0),
      F.dc.getD ((m .status).getLsbD 1), F.z.getD ((m .status).getLsbD 2))) p n st mo := by
  unfold State.setFlags
  split
  · have hs : F.onStatus u.status = F.onStatus (m .status) := by rw [State.status_eq, h.cells]
    rw [hs, FlagWrite.onStatus_eq]
    exact h.store _ _
  · next hF =>
    obtain ⟨c, dc, z⟩ := F
    simp only [FlagWrite.any, Bool.or_eq_true, Option.isSome_iff_ne_none, not_or, not_not] at hF
    obtain ⟨⟨rfl, rfl⟩, rfl⟩ := hF
    refine h.congr (fun a => ?_) rfl rfl rfl rfl
    simp only [withFlags, Option.getD_none, flagByte_old, Function.update_eq_self]

/-! ## Data accesses -/

theorem State.cellRead_not_forbidden {s : State} {c : Cell} {v : Byte} (h : s.cellRead c = .ok v) :
    ¬ forbidden (.cell c) := by
  rintro (hc | hc) <;> cases hc <;> cases h

/-- A target that can be read is not TOSL or TOSH. -/
theorem State.tRead_not_forbidden {s : State} {t : Target} {v : Byte} (h : s.tRead t = .ok v) :
    ¬ forbidden t := by
  cases t with
  | cell c => exact State.cellRead_not_forbidden h
  | null => rintro (h | h) <;> cases h
  | prog a => rintro (h | h) <;> cases h

/-- A write to TOSL or TOSH raises the fault (10_state R59). -/
theorem State.cellWrite_forbidden {s : State} {c : Cell} {v : Byte} (h : forbidden (.cell c)) :
    s.cellWrite c v = .error (.unmodelledRegister c) := by
  rcases h with h | h <;> cases h <;> rfl

/-- All that a data write of a cell does (20_memory R109). -/
theorem State.cellWrite_becomes (s : State) (c : Cell) (v : Byte) (h : ¬ forbidden (.cell c)) :
    ∃ u, s.cellWrite c v = .ok u ∧
      s.Becomes u (targetCells s.stored (.cell c) v) (targetPc s (.cell c) v) 0 := by
  have hf : ¬ (c = .tosl ∨ c = .tosh) := fun h' => h (by simpa [forbidden] using h')
  unfold State.cellWrite
  have store : ∀ w, w = dataWrite c (s.stored c) v → c ≠ .pcl →
      s.Becomes (s.store c w) (targetCells s.stored (.cell c) v) (targetPc s (.cell c) v) 0 := by
    rintro w rfl hp
    exact ((State.Becomes.refl s).store c _).congr (fun _ => rfl) (by simp [targetPc, hp]) rfl rfl rfl
  by_cases h1 : c = .pcl
  · subst h1
    exact ⟨_, rfl, ((State.Becomes.refl s).setPc _).congr
      (fun a => by simp [targetCells, dataWrite]) (by simp [targetPc, State.latchTarget, State.pclath_eq]) rfl rfl rfl⟩
  rw [if_neg h1]
  by_cases h2 : c = .indf0 ∨ c = .indf1
  · rw [if_pos h2]
    refine ⟨_, rfl, (State.Becomes.refl s).congr (fun a => ?_) (by simp [targetPc, h1]) rfl rfl rfl⟩
    simp [targetCells, dataWrite, h1, h2]
  rw [if_neg h2, if_neg hf]
  by_cases h3 : c = .status
  · subst h3; exact ⟨_, rfl, store _ rfl h1⟩
  rw [if_neg h3]
  by_cases h4 : c = .bsr
  · subst h4; exact ⟨_, rfl, store _ rfl h1⟩
  rw [if_neg h4]
  by_cases h5 : c = .pclath
  · subst h5; exact ⟨_, rfl, store _ rfl h1⟩
  rw [if_neg h5]
  by_cases h6 : c = .stkptr
  · subst h6; exact ⟨_, rfl, store _ rfl h1⟩
  rw [if_neg h6]
  refine ⟨_, rfl, store _ ?_ h1⟩
  have h2' := not_or.1 h2
  simp [dataWrite, h1, h2'.1, h2'.2, h3, h4, h5, h6]

/-- All that a data write of a target does (20_memory R114). -/
theorem State.tWrite_becomes (s : State) (t : Target) (v : Byte) (h : ¬ forbidden t) :
    ∃ u, s.tWrite t v = .ok u ∧ s.Becomes u (targetCells s.stored t v) (targetPc s t v) 0 := by
  cases t with
  | cell c => exact s.cellWrite_becomes c v h
  | null => exact ⟨s, rfl, (State.Becomes.refl s).congr (fun _ => rfl) (by simp [targetPc]) rfl rfl rfl⟩
  | prog a => exact ⟨s, rfl, (State.Becomes.refl s).congr (fun _ => rfl) (by simp [targetPc]) rfl rfl rfl⟩

/-- Every outcome of a data write (20_memory R114). -/
theorem State.tWrite_cases (s : State) (t : Target) (v : Byte) :
    (∃ c, t = .cell c ∧ forbidden t ∧ s.tWrite t v = .error (.unmodelledRegister c)) ∨
    (¬ forbidden t ∧ ∃ u, s.tWrite t v = .ok u ∧
      s.Becomes u (targetCells s.stored t v) (targetPc s t v) 0) := by
  by_cases h : forbidden t
  · left
    rcases h with rfl | rfl
    · exact ⟨_, rfl, Or.inl rfl, rfl⟩
    · exact ⟨_, rfl, Or.inr rfl, rfl⟩
  · exact .inr ⟨h, s.tWrite_becomes t v h⟩

/-- The destination write of an instruction that writes a flag (20_memory R110). -/
theorem State.writeDest_flagged (s : State) (d : Dest) (t : Target) (r : AluResult)
    (hr : r.flags.any = true) (h : ¬ forbidden t) :
    ∃ u, s.writeDest d t r = .ok u ∧
      s.Becomes u (if d = .w then Function.update s.stored .wreg r.value
        else if t = .cell .status then s.stored else targetCells s.stored t r.value)
        (flaggedPc s d t r.value) 0 := by
  cases d with
  | w => exact ⟨_, rfl, ((State.Becomes.refl s).store .wreg r.value).congr (fun _ => rfl)
      (by simp [flaggedPc]) rfl rfl rfl⟩
  | f =>
    by_cases ht : t = .cell .status
    · subst ht
      refine ⟨s, by simp [State.writeDest, hr], (State.Becomes.refl s).congr (fun _ => rfl) ?_ rfl rfl rfl⟩
      simp [flaggedPc, targetPc]
    · obtain ⟨u, hu, hb⟩ := s.tWrite_becomes t r.value h
      refine ⟨u, by simp [State.writeDest, ht, hu], hb.congr (fun a => by simp [ht]) ?_ rfl rfl rfl⟩
      simp [flaggedPc]

/-- The destination write of an instruction that writes no flag (20_memory R110). -/
theorem State.writeDest_plain (s : State) (d : Dest) (t : Target) (r : Byte) (h : ¬ forbidden t) :
    ∃ u, s.writeDest d t (plain r) = .ok u ∧
      s.Becomes u (plainCells s d t r) (flaggedPc s d t r) 0 := by
  cases d with
  | w => exact ⟨_, rfl, ((State.Becomes.refl s).store .wreg r).congr (fun a => by simp [plainCells])
      (by simp [flaggedPc]) rfl rfl rfl⟩
  | f =>
    obtain ⟨u, hu, hb⟩ := s.tWrite_becomes t r h
    refine ⟨u, by simp [State.writeDest, plain, FlagWrite.any, hu],
      hb.congr (fun a => by simp [plainCells]) ?_ rfl rfl rfl⟩
    simp [flaggedPc]

/-! ## The shapes of the file instructions -/

theorem operand_error {s : State} {f : FileReg} {e : Fault} (h : operand s f = .error e) :
    s.fileTarget f = .error e ∨ ∃ t, s.fileTarget f = .ok t ∧ s.tRead t = .error e := by
  unfold operand at h
  split at h
  · next h' => cases h; exact .inl h'
  · next t h' =>
    split at h
    · next h'' => cases h; exact .inr ⟨t, h', h''⟩
    · cases h

theorem operand_ok {s : State} {f : FileReg} {t : Target} {v : Byte} (h : operand s f = .ok (t, v)) :
    s.fileTarget f = .ok t ∧ s.tRead t = .ok v := by
  unfold operand at h
  split at h
  · cases h
  · next h' =>
    split at h
    · cases h
    · next h'' => cases h; exact ⟨h', h''⟩

/-- A file instruction whose operand cannot be read raises that fault. -/
theorem State.fileUpdate_error {s : State} {f : FileReg} {e : Fault} (h : operand s f = .error e)
    (d : Dest) (op : Byte → AluResult) : s.fileUpdate d f op = .error e := by
  unfold State.fileUpdate
  rcases operand_error h with h | ⟨t, h, h'⟩
  · rw [h]; rfl
  · rw [h]; simp only [bind, Except.bind, h']

/-- A file instruction that writes a flag, its operand readable (20_memory R110). -/
theorem State.fileUpdate_flagged {s : State} {f : FileReg} {t : Target} {v : Byte}
    (h : operand s f = .ok (t, v)) (d : Dest) (op : Byte → AluResult) (hr : (op v).flags.any = true) :
    ∃ u, s.fileUpdate d f op = .ok (op v, u) ∧
      s.Becomes u (flaggedCells s d t (op v).value ((op v).flags.c.getD (flag s 0),
        (op v).flags.dc.getD (flag s 1), (op v).flags.z.getD (flag s 2)))
        (flaggedPc s d t (op v).value) 0 := by
  obtain ⟨ht, hv⟩ := operand_ok h
  obtain ⟨u, hu, hb⟩ := s.writeDest_flagged d t (op v) hr (State.tRead_not_forbidden hv)
  refine ⟨u.setFlags (op v).flags, ?_, (hb.setFlags _).congr (fun a => ?_) rfl rfl rfl rfl⟩
  · simp only [State.fileUpdate, ht, hv, hu, bind, Except.bind, pure, Except.pure]
  · have hs : ∀ m : Cell → Byte, m .status = s.stored .status →
        withFlags m ((op v).flags.c.getD ((m .status).getLsbD 0), (op v).flags.dc.getD ((m .status).getLsbD 1),
          (op v).flags.z.getD ((m .status).getLsbD 2)) a =
        withFlags m ((op v).flags.c.getD (flag s 0), (op v).flags.dc.getD (flag s 1),
          (op v).flags.z.getD (flag s 2)) a := fun m hm => by rw [hm]; rfl
    rw [hs]
    · rfl
    · split
      · exact Function.update_of_ne (by decide) _ _
      · split
        · rfl
        · next hst =>
          cases t with
          | cell c =>
            refine Function.update_of_ne (fun hc => hst ?_) _ _
            rw [← hc]
          | null => rfl
          | prog a => rfl

/-- A file instruction that writes no flag, its operand readable (20_memory R110). -/
theorem State.fileUpdate_plain {s : State} {f : FileReg} {t : Target} {v : Byte}
    (h : operand s f = .ok (t, v)) (d : Dest) (r : Byte → Byte) :
    ∃ u, s.fileUpdate d f (fun v => plain (r v)) = .ok (plain (r v), u) ∧
      s.Becomes u (plainCells s d t (r v)) (flaggedPc s d t (r v)) 0 := by
  obtain ⟨ht, hv⟩ := operand_ok h
  obtain ⟨u, hu, hb⟩ := s.writeDest_plain d t (r v) (State.tRead_not_forbidden hv)
  refine ⟨u, ?_, hb⟩
  simp only [State.fileUpdate, ht, hv, hu, bind, Except.bind, pure, Except.pure]
  rfl

theorem State.fileOp_error {s : State} {f : FileReg} {e : Fault} (h : operand s f = .error e)
    (d : Dest) (op : Byte → AluResult) : s.fileOp d f op = .fault e := by
  simp only [State.fileOp, State.fileUpdate_error h, bind, Except.bind, outcome]

theorem State.fileOpSkip_error {s : State} {f : FileReg} {e : Fault} (h : operand s f = .error e)
    (d : Dest) (op : Byte → AluResult) : s.fileOpSkip d f op = .fault e := by
  simp only [State.fileOpSkip, State.fileUpdate_error h, bind, Except.bind, outcome]

/-- `fileOp` with flags, its operand readable: all it does. -/
theorem State.fileOp_flagged {s : State} {f : FileReg} {t : Target} {v : Byte}
    (h : operand s f = .ok (t, v)) (d : Dest) (op : Byte → AluResult) (hr : (op v).flags.any = true) :
    ∃ u, s.fileOp d f op = .next u ∧
      s.Becomes u (flaggedCells s d t (op v).value ((op v).flags.c.getD (flag s 0),
        (op v).flags.dc.getD (flag s 1), (op v).flags.z.getD (flag s 2)))
        (flaggedPc s d t (op v).value) 1 := by
  obtain ⟨u, hu, hb⟩ := State.fileUpdate_flagged h d op hr
  refine ⟨u.charge 1, ?_, hb.charge 1⟩
  simp only [State.fileOp, hu, bind, Except.bind, pure, Except.pure, outcome]

/-- `fileOp` without flags, its operand readable: all it does. -/
theorem State.fileOp_plain {s : State} {f : FileReg} {t : Target} {v : Byte}
    (h : operand s f = .ok (t, v)) (d : Dest) (r : Byte → Byte) :
    ∃ u, s.fileOp d f (fun v => plain (r v)) = .next u ∧
      s.Becomes u (plainCells s d t (r v)) (flaggedPc s d t (r v)) 1 := by
  obtain ⟨u, hu, hb⟩ := State.fileUpdate_plain h d r
  refine ⟨u.charge 1, ?_, hb.charge 1⟩
  simp only [State.fileOp, hu, bind, Except.bind, pure, Except.pure, outcome]

/-- `fileOpSkip`, its operand readable: all it does. -/
theorem State.fileOpSkip_plain {s : State} {f : FileReg} {t : Target} {v : Byte}
    (h : operand s f = .ok (t, v)) (d : Dest) (r : Byte → Byte) :
    ∃ u, s.fileOpSkip d f (fun v => plain (r v)) = .next u ∧
      s.Becomes u (plainCells s d t (r v))
        (flaggedPc s d t (r v) + (if r v = 0 then 1 else 0)) (if r v = 0 then 2 else 1) := by
  obtain ⟨u, hu, hb⟩ := State.fileUpdate_plain h d r
  refine ⟨if r v = 0 then u.skip.charge 2 else u.charge 1, ?_, ?_⟩
  · simp only [State.fileOpSkip, hu, bind, Except.bind, pure, Except.pure, outcome]
    rfl
  · by_cases h0 : r v = 0
    · simp only [h0, if_true]
      rw [h0] at hb
      exact ((hb.setPc (u.pc + 1)).charge 2).congr (fun _ => rfl) (by rw [hb.pc]) (by simp) rfl rfl
    · simp only [h0, if_false]
      exact (hb.charge 1).congr (fun _ => rfl) (by simp) (by simp) rfl rfl

/-- `literalOp`: all it does. -/
theorem State.literalOp_becomes (s : State) (r : AluResult) :
    ∃ u, s.literalOp r = .next u ∧
      s.Becomes u (withFlags (Function.update s.stored .wreg r.value) (r.flags.c.getD (flag s 0),
        r.flags.dc.getD (flag s 1), r.flags.z.getD (flag s 2))) s.pc 1 :=
  ⟨_, rfl, ((((State.Becomes.refl s).store .wreg r.value).setFlags r.flags).charge 1).congr
    (fun _ => rfl) rfl rfl rfl rfl⟩

/-- Every outcome of `fileStore` (45_move R300, R306). -/
theorem State.fileStore_error {s : State} {f : FileReg} {e : Fault} (h : s.fileTarget f = .error e)
    (r : AluResult) : s.fileStore f r = .fault e := by
  simp only [State.fileStore, h, bind, Except.bind, outcome]

theorem State.fileStore_forbidden {s : State} {f : FileReg} {c : Cell} (h : s.fileTarget f = .ok (.cell c))
    (hc : forbidden (.cell c)) (r : AluResult) : s.fileStore f r = .fault (.unmodelledRegister c) := by
  have hs : c ≠ .status := by rcases hc with hc | hc <;> cases hc <;> decide
  simp only [State.fileStore, h, bind, Except.bind, outcome, State.writeDest, Target.cell.injEq, hs, false_and,
    if_false, State.tWrite, State.cellWrite_forbidden hc]

theorem State.fileStore_flagged {s : State} {f : FileReg} {t : Target} (h : s.fileTarget f = .ok t)
    (hf : ¬ forbidden t) (r : AluResult) (hr : r.flags.any = true) :
    ∃ u, s.fileStore f r = .next u ∧
      s.Becomes u (flaggedCells s .f t r.value (r.flags.c.getD (flag s 0), r.flags.dc.getD (flag s 1),
        r.flags.z.getD (flag s 2))) (targetPc s t r.value) 1 := by
  obtain ⟨u, hu, hb⟩ := s.writeDest_flagged .f t r hr hf
  refine ⟨(u.setFlags r.flags).charge 1, ?_, ((hb.setFlags _).charge 1).congr (fun a => ?_) ?_ rfl rfl rfl⟩
  · simp only [State.fileStore, h, hu, bind, Except.bind, pure, Except.pure, outcome]
  · have hm : (if Dest.f = .w then Function.update s.stored .wreg r.value
        else if t = .cell .status then s.stored else targetCells s.stored t r.value) .status =
        s.stored .status := by
      simp only [reduceCtorEq, if_false]
      split
      · rfl
      · next hst =>
        cases t with
        | cell c =>
          refine Function.update_of_ne (fun hc => hst ?_) _ _
          rw [← hc]
        | null => rfl
        | prog a => rfl
    rw [hm]; rfl
  · simp [flaggedPc]

theorem State.fileStore_plain {s : State} {f : FileReg} {t : Target} (h : s.fileTarget f = .ok t)
    (hf : ¬ forbidden t) (r : Byte) :
    ∃ u, s.fileStore f (plain r) = .next u ∧
      s.Becomes u (targetCells s.stored t r) (targetPc s t r) 1 := by
  obtain ⟨u, hu, hb⟩ := s.writeDest_plain .f t r hf
  refine ⟨u.charge 1, ?_, (hb.charge 1).congr (fun a => by simp [plainCells]) (by simp [flaggedPc]) rfl rfl rfl⟩
  simp only [State.fileStore, h, hu, bind, Except.bind, pure, Except.pure, outcome]
  rfl

/-- `bitTest`, its operand unreadable. -/
theorem State.bitTest_error {s : State} {f : FileReg} {e : Fault} (h : operand s f = .error e)
    (b : BitVec 3) (on : Bool) : s.bitTest b f on = .fault e := by
  unfold State.bitTest
  rcases operand_error h with h | ⟨t, h, h'⟩
  · simp only [h, bind, Except.bind, outcome]
  · simp only [h, h', bind, Except.bind, outcome]

/-- `bitTest`, its operand readable: all it does. -/
theorem State.bitTest_becomes {s : State} {f : FileReg} {t : Target} {v : Byte}
    (h : operand s f = .ok (t, v)) (b : BitVec 3) (on : Bool) :
    ∃ u, s.bitTest b f on = .next u ∧
      s.Becomes u s.stored (s.pc + (if v.getLsbD b.toNat = on then 1 else 0))
        (if v.getLsbD b.toNat = on then 2 else 1) := by
  obtain ⟨ht, hv⟩ := operand_ok h
  refine ⟨if v.getLsbD b.toNat = on then s.skip.charge 2 else s.charge 1, ?_, ?_⟩
  · simp only [State.bitTest, ht, hv, bind, Except.bind, pure, Except.pure, outcome]
  · split
    · exact (((State.Becomes.refl s).setPc (s.pc + 1)).charge 2).congr (fun _ => rfl) rfl (by simp) rfl rfl
    · exact ((State.Becomes.refl s).charge 1).congr (fun _ => rfl) (by simp) (by simp) rfl rfl

/-! ## Pointers -/

theorem State.fsr_eq (s : State) (n : Fsr) : s.fsr n = pointer s n := rfl

theorem accessPointer_eq (m : PtrMode) (p : Addr) : accessPointer m p = accessedAddr m p := by
  cases m <;> rfl

theorem State.Becomes.setFsr {s u : State} {m : Cell → Byte} {p : Pc} {k : Nat} {st : Vector Pc 16}
    {mo : Mode} (h : s.Becomes u m p k st mo) (n : Fsr) (q : Addr) :
    s.Becomes (u.setFsr n q) (pointerCells m n q) p k st mo := (h.store _ _).store _ _

/-- The state a pointer mode accesses in. -/
theorem State.beforeAccess_becomes (s : State) (n : Fsr) (m : PtrMode) :
    s.Becomes (s.beforeAccess n m) (cellsBefore s n m) s.pc 0 := by
  cases m
  · exact (State.Becomes.refl s).setFsr n _
  · exact (State.Becomes.refl s).setFsr n _
  · exact State.Becomes.refl s
  · exact State.Becomes.refl s

/-- The last write of a pointer mode. -/
theorem State.Becomes.afterAccess {s u : State} {cells : Cell → Byte} {p : Pc} {k : Nat}
    {st : Vector Pc 16} {mo : Mode} (h : s.Becomes u cells p k st mo) (n : Fsr) (m : PtrMode) :
    s.Becomes (u.afterAccess n m (s.fsr n)) (cellsLast s n m cells) p k st mo := by
  cases m
  · exact h
  · exact h
  · exact h.setFsr n _
  · exact h.setFsr n _

end Sys2Proof.Machine
end

