-- ==== Sys2Proof/Laws/Stack.lean ====
section
/-! SUPPORT. What Push, Pop and the restore from the shadow registers do, said once. -/

namespace Sys2Proof.Machine

open Sys2Proof.Claims

theorem putBit_seven (v : Byte) : putBit v 7 true = v ||| 0x80 := by revert v; decide +kernel
theorem putBit_six (v : Byte) : putBit v 6 true = v ||| 0x40 := by revert v; decide +kernel

theorem State.sp_toNat (s : State) : s.sp.toNat = spNat s := by
  simp [State.sp_eq, spNat]

theorem State.sp_eq_iff (s : State) (k : BitVec 5) : s.sp = k ↔ spNat s = k.toNat := by
  rw [← State.sp_toNat, BitVec.toNat_inj]

/-- The slot number that Push writes. -/
theorem State.pushSlot_toNat (s : State) : ((s.sp + 1).setWidth 4 : BitVec 4).toNat = (spNat s + 1) % 16 := by
  have := s.sp_toNat
  have one : (1 : BitVec 5).toNat = 1 := rfl
  simp only [BitVec.toNat_setWidth, BitVec.toNat_add, one, this]
  omega

/-- The slot number that Pop leaves in STKPTR. -/
theorem State.popSlot_toNat (s : State) : ((s.sp - 1).setWidth 4 : BitVec 4).toNat = (spNat s + 15) % 16 := by
  have h := s.sp_toNat
  have := s.sp.isLt
  have one : (1 : BitVec 5).toNat = 1 := rfl
  simp only [BitVec.toNat_setWidth, BitVec.toNat_sub, one, h]
  omega

theorem setWidth_eight (i : BitVec 4) : i.setWidth 8 = BitVec.ofNat 8 i.toNat := by
  revert i; decide +kernel

/-- All that Push(v) does (10_state R66). -/
theorem State.push_becomes (s : State) (v : Pc) :
    s.Becomes (s.push v) (pushCells s) s.pc 0 (pushStack s v) := by
  have hslot := s.pushSlot_toNat
  have h0 : s.Becomes (if s.sp = 15 then s.setSticky 7 else s)
      (if spNat s = 15 then Function.update s.stored .pcon (s.stored .pcon ||| 0x80) else s.stored) s.pc 0 := by
    by_cases h : spNat s = 15
    · rw [if_pos ((s.sp_eq_iff 15).2 h), if_pos h, State.setSticky, putBit_seven]
      exact (State.Becomes.refl s).store _ _
    · rw [if_neg (fun h' => h ((s.sp_eq_iff 15).1 h')), if_neg h]
      exact State.Becomes.refl s
  refine ((h0.store .stkptr (((s.sp + 1).setWidth 4 : BitVec 4).setWidth 8)).setSlot
    ((s.sp + 1).setWidth 4) v).congr (fun c => ?_) rfl rfl ?_ rfl
  · rw [setWidth_eight, hslot]; rfl
  · simp only [pushStack, hslot]

/-- All that Pop() does but for its value (10_state R67). -/
theorem State.pop_becomes (s : State) : s.Becomes s.pop (popCells s) s.pc 0 := by
  have h0 : s.Becomes (if s.sp = 0 then s.setSticky 6 else s)
      (if spNat s = 0 then Function.update s.stored .pcon (s.stored .pcon ||| 0x40) else s.stored) s.pc 0 := by
    by_cases h : spNat s = 0
    · rw [if_pos ((s.sp_eq_iff 0).2 h), if_pos h, State.setSticky, putBit_six]
      exact (State.Becomes.refl s).store _ _
    · rw [if_neg (fun h' => h ((s.sp_eq_iff 0).1 h')), if_neg h]
      exact State.Becomes.refl s
  refine (h0.store .stkptr (((s.sp - 1).setWidth 4 : BitVec 4).setWidth 8)).congr (fun c => ?_) rfl rfl rfl rfl
  rw [setWidth_eight, s.popSlot_toNat]; rfl

/-- The value Pop() returns (10_state R67). -/
theorem State.top_eq (s : State) : s.top = popValue s := by
  have h : (s.sp.setWidth 4 : BitVec 4).toNat = spNat s % 16 := by
    rw [BitVec.toNat_setWidth, s.sp_toNat]
  simp only [State.top, State.slot, popValue, h]

/-- pc <- Pop() (10_state R67). -/
theorem State.popPc_becomes (s : State) : s.Becomes s.popPc (popCells s) (popValue s) 0 :=
  (s.pop_becomes.setPc s.top).congr (fun _ => rfl) s.top_eq rfl rfl rfl

/-- STKPTR after Push is the slot written, and after Pop one slot below. -/
theorem State.push_spNat (s : State) (v : Pc) : spNat (s.push v) = (spNat s + 1) % 16 := by
  rw [spNat, (s.push_becomes v).cells, pushCells, Function.update_self, BitVec.toNat_ofNat]
  omega

theorem State.pop_spNat (s : State) : spNat s.pop = (spNat s + 15) % 16 := by
  rw [spNat, s.pop_becomes.cells, popCells, Function.update_self, BitVec.toNat_ofNat]
  omega

/-! ## The restore from the shadow registers (46_control R328) -/

theorem State.Becomes.copyCell {s u : State} {m : Cell → Byte} {p : Pc} {n : Nat} {st : Vector Pc 16}
    {mo : Mode} (h : s.Becomes u m p n st mo) (src dst : Cell) (mask : Byte) {x : Byte} (hx : m src = x) :
    s.Becomes (u.copyCell src dst mask) (Function.update m dst (x &&& mask)) p n st mo := by
  unfold State.copyCell
  rw [h.cells, hx]
  exact h.store _ _

theorem State.Becomes.restoreStatus {s u : State} {m : Cell → Byte} {p : Pc} {n : Nat}
    {st : Vector Pc 16} {mo : Mode} (h : s.Becomes u m p n st mo) {x y : Byte} (hx : m .status = x)
    (hy : m .statusShad = y) :
    s.Becomes u.restoreStatus (Function.update m .status ((x &&& 0xF8) ||| (y &&& 0x07))) p n st mo := by
  unfold State.restoreStatus
  rw [State.status_eq, h.cells, h.cells, hx, hy]
  exact h.store _ _

/-- All that the restore does: no register it writes is one it reads later. -/
theorem State.restoreShadows_becomes (s : State) :
    s.Becomes s.restoreShadows (fun c =>
      if c = .wreg then s.stored .wregShad
      else if c = .status then (s.stored .status &&& 0xF8) ||| (s.stored .statusShad &&& 0x07)
      else if c = .bsr then s.stored .bsrShad &&& 0x1F
      else if c = .pclath then s.stored .pclathShad &&& 0x7F
      else if c = .fsr0l then s.stored .fsr0lShad
      else if c = .fsr0h then s.stored .fsr0hShad
      else if c = .fsr1l then s.stored .fsr1lShad
      else if c = .fsr1h then s.stored .fsr1hShad
      else s.stored c) s.pc 0 := by
  have all : ∀ v : Byte, v &&& 0xFF = v := by decide +kernel
  have ne : ∀ {m : Cell → Byte} {a b : Cell} {v x : Byte}, a ≠ b → m a = x → Function.update m b v a = x :=
    fun h h' => (Function.update_of_ne h _ _).trans h'
  have h1 := (State.Becomes.refl s).copyCell .wregShad .wreg 0xFF rfl
  have h2 := h1.restoreStatus (ne (by decide) rfl) (ne (by decide) rfl)
  have h3 := h2.copyCell .bsrShad .bsr 0x1F (ne (by decide) (ne (by decide) rfl))
  have h4 := h3.copyCell .pclathShad .pclath 0x7F (ne (by decide) (ne (by decide) (ne (by decide) rfl)))
  have h5 := h4.copyCell .fsr0lShad .fsr0l 0xFF
    (ne (by decide) (ne (by decide) (ne (by decide) (ne (by decide) rfl))))
  have h6 := h5.copyCell .fsr0hShad .fsr0h 0xFF
    (ne (by decide) (ne (by decide) (ne (by decide) (ne (by decide) (ne (by decide) rfl)))))
  have h7 := h6.copyCell .fsr1lShad .fsr1l 0xFF
    (ne (by decide) (ne (by decide) (ne (by decide) (ne (by decide) (ne (by decide) (ne (by decide) rfl))))))
  have h8 := h7.copyCell .fsr1hShad .fsr1h 0xFF
    (ne (by decide) (ne (by decide) (ne (by decide) (ne (by decide) (ne (by decide) (ne (by decide)
      (ne (by decide) rfl)))))))
  refine h8.congr (fun c => ?_) rfl rfl rfl rfl
  simp only [all, Function.update_apply]
  by_cases k1 : c = .wreg
  · subst k1; rfl
  by_cases k2 : c = .status
  · subst k2; rfl
  by_cases k3 : c = .bsr
  · subst k3; rfl
  by_cases k4 : c = .pclath
  · subst k4; rfl
  by_cases k5 : c = .fsr0l
  · subst k5; rfl
  by_cases k6 : c = .fsr0h
  · subst k6; rfl
  by_cases k7 : c = .fsr1l
  · subst k7; rfl
  by_cases k8 : c = .fsr1h
  · subst k8; rfl
  simp only [k1, k2, k3, k4, k5, k6, k7, k8, if_false]

theorem State.Becomes.setGie {s u : State} {m : Cell → Byte} {p : Pc} {n : Nat} {st : Vector Pc 16}
    {mo : Mode} (h : s.Becomes u m p n st mo) :
    s.Becomes u.setGie (Function.update m .intcon (m .intcon ||| 0x80)) p n st mo := by
  unfold State.setGie
  rw [putBit_seven, State.intcon_eq, h.cells]
  exact h.store _ _

/-- What Pop leaves of a cell that is neither STKPTR nor PCON. -/
theorem popCells_of_ne (s : State) {c : Cell} (h1 : c ≠ .stkptr) (h2 : c ≠ .pcon) :
    popCells s c = s.stored c := by
  unfold popCells
  rw [Function.update_of_ne h1]
  split
  · exact Function.update_of_ne h2 _ _
  · rfl

/-- What Push leaves of a cell that is neither STKPTR nor PCON. -/
theorem pushCells_of_ne (s : State) {c : Cell} (h1 : c ≠ .stkptr) (h2 : c ≠ .pcon) :
    pushCells s c = s.stored c := by
  unfold pushCells
  rw [Function.update_of_ne h1]
  split
  · exact Function.update_of_ne h2 _ _
  · rfl

end Sys2Proof.Machine
end

