-- ==== Sys2Proof/Laws/Effects.lean ====
section
/-! SUPPORT. What follows from a shared operation having answered a next state: where its operand came
from and its whole effect. -/

namespace Sys2Proof.Machine

open Sys2Proof.Claims

/-- All data cells after a result goes to its destination (20_memory R110). -/
def destCells (s : State) (d : Dest) (t : Target) (r : AluResult) : Cell → Byte :=
  if d = .w then Function.update s.stored .wreg r.value
  else if t = .cell .status ∧ r.flags.any = true then s.stored
  else targetCells s.stored t r.value

/-- All data cells after a flag write: a flag it leaves alone keeps its value. -/
def flagCells (m : Cell → Byte) (F : FlagWrite) : Cell → Byte :=
  withFlags m (F.c.getD ((m .status).getLsbD 0), F.dc.getD ((m .status).getLsbD 1),
    F.z.getD ((m .status).getLsbD 2))

/-- Two effects, one after the other. -/
theorem State.Becomes.trans {s t u : State} {m m' : Cell → Byte} {p p' : Pc} {n n' : Nat}
    {st : Vector Pc 16} {mo : Mode} (h : s.Becomes t m p n st mo) (h' : t.Becomes u m' p' n') :
    s.Becomes u m' p' (n + n') st mo where
  cells := h'.cells
  pc := h'.pc
  cycles := by rw [h'.cycles, h.cycles, Nat.add_assoc]
  stack := h'.stack.trans h.stack
  mode := h'.mode.trans h.mode
  pmem := h'.pmem.trans h.pmem
  resets := h'.resets.trans h.resets

theorem State.tWrite_next {s u : State} {t : Target} {v : Byte} (h : s.tWrite t v = .ok u) :
    ¬ forbidden t ∧ s.Becomes u (targetCells s.stored t v) (targetPc s t v) 0 := by
  rcases s.tWrite_cases t v with ⟨c, -, -, he⟩ | ⟨hf, u', hu, hb⟩
  · rw [he] at h; cases h
  · rw [hu] at h; cases h; exact ⟨hf, hb⟩

theorem State.writeDest_next {s u : State} {d : Dest} {t : Target} {r : AluResult}
    (h : s.writeDest d t r = .ok u) :
    s.Becomes u (destCells s d t r) (flaggedPc s d t r.value) 0 := by
  cases d with
  | w =>
    cases h
    exact ((State.Becomes.refl s).store .wreg r.value).congr (fun _ => by simp [destCells])
      (by simp [flaggedPc]) rfl rfl rfl
  | f =>
    simp only [State.writeDest] at h
    split at h
    · next hst =>
      cases h
      refine (State.Becomes.refl s).congr (fun _ => by simp [destCells, hst]) ?_ rfl rfl rfl
      simp [flaggedPc, targetPc, hst.1]
    · next hst =>
      exact (State.tWrite_next h).2.congr (fun _ => by simp [destCells, hst]) (by simp [flaggedPc]) rfl rfl rfl

theorem State.fileUpdate_next {s u : State} {d : Dest} {f : FileReg} {op : Byte → AluResult}
    {r : AluResult} (h : s.fileUpdate d f op = .ok (r, u)) :
    ∃ t v, operand s f = .ok (t, v) ∧ r = op v ∧
      s.Becomes u (flagCells (destCells s d t r) r.flags) (flaggedPc s d t r.value) 0 := by
  simp only [State.fileUpdate, bind, Except.bind, pure, Except.pure] at h
  split at h
  · cases h
  next t ht =>
  split at h
  · cases h
  next v hv =>
  split at h
  · cases h
  next hw =>
  cases h
  refine ⟨t, v, ?_, rfl, (State.writeDest_next hw).setFlags _⟩
  simp only [operand, ht, hv]

/-- A file instruction that completed. -/
theorem State.fileOp_next {s u : State} {d : Dest} {f : FileReg} {op : Byte → AluResult}
    (h : s.fileOp d f op = .next u) :
    ∃ t v, operand s f = .ok (t, v) ∧
      s.Becomes u (flagCells (destCells s d t (op v)) (op v).flags) (flaggedPc s d t (op v).value) 1 := by
  simp only [State.fileOp, outcome, bind, Except.bind, pure, Except.pure] at h
  cases hf : s.fileUpdate d f op with
  | error e => rw [hf] at h; cases h
  | ok ru =>
    rw [hf] at h
    cases h
    obtain ⟨t, v, ho, hr, hb⟩ := State.fileUpdate_next hf
    rw [hr] at hb
    exact ⟨t, v, ho, hb.charge 1⟩

/-- A file instruction that may skip, and completed. -/
theorem State.fileOpSkip_next {s u : State} {d : Dest} {f : FileReg} {op : Byte → AluResult}
    (h : s.fileOpSkip d f op = .next u) :
    ∃ t v, operand s f = .ok (t, v) ∧
      s.Becomes u (flagCells (destCells s d t (op v)) (op v).flags)
        (flaggedPc s d t (op v).value + (if (op v).value = 0 then 1 else 0))
        (if (op v).value = 0 then 2 else 1) := by
  simp only [State.fileOpSkip, outcome, bind, Except.bind, pure, Except.pure] at h
  cases hf : s.fileUpdate d f op with
  | error e => rw [hf] at h; cases h
  | ok ru =>
    rw [hf] at h
    cases h
    obtain ⟨t, v, ho, hr, hb⟩ := State.fileUpdate_next hf
    refine ⟨t, v, ho, ?_⟩
    rw [← hr]
    split
    · exact ((hb.setPc (ru.2.pc + 1)).charge 2).congr (fun _ => rfl) (by rw [hb.pc]) (by simp) rfl rfl
    · exact (hb.charge 1).congr (fun _ => rfl) (by simp) (by simp) rfl rfl

/-- A literal instruction: all it does. -/
theorem State.literalOp_next {s u : State} {r : AluResult} (h : s.literalOp r = .next u) :
    s.Becomes u (flagCells (Function.update s.stored .wreg r.value) r.flags) s.pc 1 := by
  cases h
  exact (((State.Becomes.refl s).store .wreg r.value).setFlags _).charge 1

/-- An instruction that only writes its operand, and completed. -/
theorem State.fileStore_next {s u : State} {f : FileReg} {r : AluResult} (h : s.fileStore f r = .next u) :
    ∃ t, s.fileTarget f = .ok t ∧
      s.Becomes u (flagCells (destCells s .f t r) r.flags) (targetPc s t r.value) 1 := by
  simp only [State.fileStore, outcome, bind, Except.bind, pure, Except.pure] at h
  cases ht : s.fileTarget f with
  | error e => rw [ht] at h; cases h
  | ok t =>
    rw [ht] at h
    cases hw : s.writeDest .f t r with
    | error e => simp only [hw] at h; cases h
    | ok u' =>
      simp only [hw] at h
      cases h
      exact ⟨t, rfl, (((State.writeDest_next hw).setFlags _).charge 1).congr (fun _ => rfl)
        (by simp [flaggedPc]) rfl rfl rfl⟩

/-- A bit test that completed. -/
theorem State.bitTest_next {s u : State} {b : BitVec 3} {f : FileReg} {on : Bool}
    (h : s.bitTest b f on = .next u) :
    ∃ t v, operand s f = .ok (t, v) ∧
      s.Becomes u s.stored (s.pc + (if v.getLsbD b.toNat = on then 1 else 0))
        (if v.getLsbD b.toNat = on then 2 else 1) := by
  cases ho : operand s f with
  | error e => rw [State.bitTest_error ho] at h; cases h
  | ok tv =>
    obtain ⟨u', hu, hb⟩ := State.bitTest_becomes ho b on
    rw [hu] at h
    cases h
    exact ⟨tv.1, tv.2, rfl, hb⟩

/-- An indirect write that completed (20_memory R114). -/
theorem State.indWrite_next {s u : State} {p : Addr} {v : Byte} (h : s.indWrite p v = .ok u) :
    ∃ t, indTarget p = .ok t ∧ ¬ forbidden t ∧
      s.Becomes u (targetCells s.stored t v) (targetPc s t v) 0 := by
  unfold State.indWrite at h
  split at h
  · next t ht => exact ⟨t, ht, State.tWrite_next h⟩
  · cases h

/-- MOVIW with a mode, completed (48_indirect R381). -/
theorem execMoviw_next {s u : State} {n : Fsr} {m : PtrMode} (h : execMoviw n m s = .next u) :
    ∃ v, (s.beforeAccess n m).indRead (accessedAddr m (pointer s n)) = .ok v ∧
      s.Becomes u (cellsLast s n m (flagCells (Function.update (cellsBefore s n m) .wreg v) (withZ v).flags))
        s.pc 1 := by
  simp only [execMoviw, outcome, bind, Except.bind, pure, Except.pure, accessPointer_eq, State.fsr_eq] at h
  cases hv : (s.beforeAccess n m).indRead (accessedAddr m (pointer s n)) with
  | error e => rw [hv] at h; cases h
  | ok v =>
    rw [hv] at h
    cases h
    exact ⟨v, rfl, ((((s.beforeAccess_becomes n m).store .wreg v).setFlags _).afterAccess n m).charge 1⟩

/-- MOVIW with a literal, completed (48_indirect R382). -/
theorem execMoviwk_next {s u : State} {n : Fsr} {k : BitVec 6} (h : execMoviwk n k s = .next u) :
    ∃ v, s.indRead (s.indexed n k) = .ok v ∧
      s.Becomes u (flagCells (Function.update s.stored .wreg v) (withZ v).flags) s.pc 1 := by
  simp only [execMoviwk, outcome, bind, Except.bind, pure, Except.pure] at h
  cases hv : s.indRead (s.indexed n k) with
  | error e => rw [hv] at h; cases h
  | ok v =>
    rw [hv] at h
    cases h
    exact ⟨v, rfl, (((State.Becomes.refl s).store .wreg v).setFlags _).charge 1⟩

/-- MOVWI with a mode, completed (48_indirect R383). -/
theorem execMovwi_next {s u : State} {n : Fsr} {m : PtrMode} (h : execMovwi n m s = .next u) :
    ∃ t, indTarget (accessedAddr m (pointer s n)) = .ok t ∧ ¬ forbidden t ∧
      s.Becomes u (cellsLast s n m (targetCells (cellsBefore s n m) t (s.stored .wreg)))
        (targetPc s t (s.stored .wreg)) 1 := by
  have hb := s.beforeAccess_becomes n m
  have hw : (s.beforeAccess n m).w = s.stored .wreg := by
    rw [State.w_eq, hb.cells]; cases m <;> cases n <;> rfl
  have hp : (s.beforeAccess n m).stored .pclath = s.stored .pclath := by
    rw [hb.cells]; cases m <;> cases n <;> rfl
  have hm : (s.beforeAccess n m).stored = cellsBefore s n m := funext hb.cells
  simp only [execMovwi, outcome, bind, Except.bind, pure, Except.pure, accessPointer_eq, State.fsr_eq, hw] at h
  cases hv : (s.beforeAccess n m).indWrite (accessedAddr m (pointer s n)) (s.stored .wreg) with
  | error e => rw [hv] at h; cases h
  | ok v =>
    rw [hv] at h
    cases h
    obtain ⟨t, ht, hf, hu⟩ := State.indWrite_next hv
    refine ⟨t, ht, hf, (((hb.trans (hu.congr (fun _ => rfl) rfl rfl rfl rfl)).afterAccess n m).charge 1).congr
      (fun c => by rw [hm]) ?_ rfl rfl rfl⟩
    simp only [targetPc, hp, hb.pc]

/-- MOVWI with a literal, completed (48_indirect R384). -/
theorem execMovwik_next {s u : State} {n : Fsr} {k : BitVec 6} (h : execMovwik n k s = .next u) :
    ∃ t, indTarget (s.indexed n k) = .ok t ∧ ¬ forbidden t ∧
      s.Becomes u (targetCells s.stored t (s.stored .wreg)) (targetPc s t (s.stored .wreg)) 1 := by
  simp only [execMovwik, outcome, bind, Except.bind, pure, Except.pure] at h
  cases hv : s.indWrite (s.indexed n k) s.w with
  | error e => rw [hv] at h; cases h
  | ok v =>
    rw [hv] at h
    cases h
    obtain ⟨t, ht, hf, hu⟩ := State.indWrite_next hv
    exact ⟨t, ht, hf, hu.charge 1⟩

end Sys2Proof.Machine
end

