-- ==== Sys2Proof/Laws/Invariant.lean ====
section
/-! SUPPORT. Every shared operation keeps the invariant: the canonical form of both memories and the
widths of the registers. -/

namespace Sys2Proof.Machine

open Sys2Proof.Claims

/-- A byte that fits the width of the register its cell is (10_state R44, R46, R47, R58). -/
def Fits (c : Cell) (v : Byte) : Prop :=
  (c = .status ∨ c = .bsr ∨ c = .stkptr → v &&& 0xE0 = 0) ∧ (c = .pclath → v &&& 0x80 = 0)

theorem Fits.of_plain {c : Cell} (v : Byte)
    (h : c ≠ .status ∧ c ≠ .bsr ∧ c ≠ .stkptr ∧ c ≠ .pclath) : Fits c v :=
  ⟨fun h' => by rcases h' with h' | h' | h' <;> simp_all, fun h' => absurd h' h.2.2.2⟩

theorem Fits.five {c : Cell} {v : Byte} (hc : c ≠ .pclath) (h : v &&& 0xE0 = 0) : Fits c v :=
  ⟨fun _ => h, fun h' => absurd h' hc⟩

theorem Fits.seven {v : Byte} (h : v &&& 0x80 = 0) : Fits .pclath v :=
  ⟨fun h' => (by rcases h' with h' | h' | h' <;> cases h'), fun _ => h⟩

theorem State.Inv.store {s : State} (h : s.Inv) {c : Cell} {v : Byte} (hf : Fits c v) :
    (s.store c v).Inv where
  mem := Memory.wf_write v h.mem c.key_lt
  pmem := h.pmem
  widths := by
    constructor <;> rw [State.store_stored] <;> split
    · next hc => exact hf.1 (.inl hc.symm)
    · exact h.widths.status
    · next hc => exact hf.1 (.inr (.inl hc.symm))
    · exact h.widths.bsr
    · next hc => exact hf.2 hc.symm
    · exact h.widths.pclath
    · next hc => exact hf.1 (.inr (.inr hc.symm))
    · exact h.widths.stkptr

theorem State.Inv.setPc {s : State} (h : s.Inv) (p : Pc) : (s.setPc p).Inv :=
  ⟨h.mem, h.pmem, ⟨h.widths.status, h.widths.bsr, h.widths.pclath, h.widths.stkptr⟩⟩

theorem State.Inv.charge {s : State} (h : s.Inv) (n : Nat) : (s.charge n).Inv :=
  ⟨h.mem, h.pmem, ⟨h.widths.status, h.widths.bsr, h.widths.pclath, h.widths.stkptr⟩⟩

theorem State.Inv.setMode {s : State} (h : s.Inv) (m : Mode) : (s.setMode m).Inv :=
  ⟨h.mem, h.pmem, ⟨h.widths.status, h.widths.bsr, h.widths.pclath, h.widths.stkptr⟩⟩

theorem State.Inv.setSlot {s : State} (h : s.Inv) (i : BitVec 4) (v : Pc) : (s.setSlot i v).Inv :=
  ⟨h.mem, h.pmem, ⟨h.widths.status, h.widths.bsr, h.widths.pclath, h.widths.stkptr⟩⟩

theorem State.Inv.setW {s : State} (h : s.Inv) (v : Byte) : (s.setW v).Inv :=
  h.store (Fits.of_plain v (by decide))

theorem flagByte_width {old : Byte} (h : old &&& 0xE0 = 0) (c dc z : Bool) :
    flagByte old c dc z &&& 0xE0 = 0 := by
  revert h; revert old c dc z; decide +kernel

theorem State.Inv.setFlags {s : State} (h : s.Inv) (F : FlagWrite) : (s.setFlags F).Inv := by
  unfold State.setFlags
  split
  · refine h.store (Fits.five (by decide) ?_)
    rw [FlagWrite.onStatus_eq]
    exact flagByte_width h.widths.status _ _ _
  · exact h

theorem setWidth_low (v : BitVec 5) : v.setWidth 8 &&& 0xE0 = (0 : Byte) := by revert v; decide +kernel
theorem setWidth_low7 (v : BitVec 7) : v.setWidth 8 &&& 0x80 = (0 : Byte) := by revert v; decide +kernel
theorem setWidth_low4 (v : BitVec 4) : v.setWidth 8 &&& 0xE0 = (0 : Byte) := by revert v; decide +kernel

theorem State.Inv.setBsr {s : State} (h : s.Inv) (v : BitVec 5) : (s.setBsr v).Inv :=
  h.store (Fits.five (by decide) (setWidth_low v))

theorem State.Inv.setPclath {s : State} (h : s.Inv) (v : BitVec 7) : (s.setPclath v).Inv :=
  h.store (Fits.seven (setWidth_low7 v))

theorem State.Inv.setFsr {s : State} (h : s.Inv) (n : Fsr) (p : Addr) : (s.setFsr n p).Inv := by
  cases n <;> exact (h.store (Fits.of_plain _ (by decide))).store (Fits.of_plain _ (by decide))

theorem State.Inv.setSp {s : State} (h : s.Inv) (i : BitVec 4) : (s.setSp i).Inv :=
  h.store (Fits.five (by decide) (setWidth_low4 i))

theorem State.Inv.setSticky {s : State} (h : s.Inv) (i : Nat) : (s.setSticky i).Inv :=
  h.store (Fits.of_plain _ (by decide))

theorem pdTo_width {old : Byte} (h : old &&& 0xE0 = 0) (a b : Bool) :
    putBit (putBit old 3 a) 4 b &&& 0xE0 = 0 := by
  revert h; revert old a b; decide +kernel

theorem State.Inv.setPdTo {s : State} (h : s.Inv) (a b : Bool) : (s.setPdTo a b).Inv :=
  h.store (Fits.five (by decide) (pdTo_width h.widths.status a b))

theorem State.Inv.push {s : State} (h : s.Inv) (v : Pc) : (s.push v).Inv := by
  unfold State.push
  refine State.Inv.setSlot (State.Inv.setSp ?_ _) _ _
  split
  · exact h.setSticky 7
  · exact h

theorem State.Inv.pop {s : State} (h : s.Inv) : s.pop.Inv := by
  unfold State.pop
  refine State.Inv.setSp ?_ _
  split
  · exact h.setSticky 6
  · exact h

theorem State.Inv.popPc {s : State} (h : s.Inv) : s.popPc.Inv := h.pop.setPc _

theorem and_status_width (a b : Byte) : ((a &&& 0x18) ||| (b &&& 0x07)) &&& 0xE0 = 0 := by
  have ha : ∀ a : Byte, a &&& 0x18 &&& 0xE0 = 0 := by decide +kernel
  have hb : ∀ b : Byte, b &&& 0x07 &&& 0xE0 = 0 := by decide +kernel
  rw [BitVec.and_or_distrib_right, ha, hb]; rfl
theorem and_five_width (v : Byte) : (v &&& 0x1F) &&& 0xE0 = 0 := by revert v; decide +kernel
theorem and_seven_width (v : Byte) : (v &&& 0x7F) &&& 0x80 = 0 := by revert v; decide +kernel

/-- A data write keeps the invariant. -/
theorem State.Inv.cellWrite {s u : State} (h : s.Inv) {c : Cell} {v : Byte} (hu : s.cellWrite c v = .ok u) :
    u.Inv := by
  unfold State.cellWrite at hu
  split at hu
  · cases hu; exact h.setPc _
  split at hu
  · cases hu; exact h
  split at hu
  · cases hu
  split at hu
  · cases hu; exact h.store (Fits.five (by decide) (and_status_width _ _))
  split at hu
  · cases hu; exact h.store (Fits.five (by decide) (and_five_width _))
  split at hu
  · cases hu; exact h.store (Fits.seven (and_seven_width _))
  split at hu
  · cases hu; exact h.store (Fits.five (by decide) (and_five_width _))
  · cases hu; exact h.store (Fits.of_plain v ⟨‹_›, ‹_›, ‹_›, ‹_›⟩)

theorem State.Inv.tWrite {s u : State} (h : s.Inv) {t : Target} {v : Byte} (hu : s.tWrite t v = .ok u) :
    u.Inv := by
  cases t with
  | cell c => exact h.cellWrite hu
  | null => cases hu; exact h
  | prog a => cases hu; exact h

theorem State.Inv.writeDest {s u : State} (h : s.Inv) {d : Dest} {t : Target} {r : AluResult}
    (hu : s.writeDest d t r = .ok u) : u.Inv := by
  cases d with
  | w => cases hu; exact h.setW _
  | f =>
    simp only [State.writeDest] at hu
    split at hu
    · cases hu; exact h
    · exact h.tWrite hu

theorem State.Inv.fileUpdate {s u : State} (h : s.Inv) {d : Dest} {f : FileReg} {op : Byte → AluResult}
    {r : AluResult} (hu : s.fileUpdate d f op = .ok (r, u)) : u.Inv := by
  simp only [State.fileUpdate, bind, Except.bind, pure, Except.pure] at hu
  split at hu
  · cases hu
  split at hu
  · cases hu
  split at hu
  · cases hu
  next hw => cases hu; exact (h.writeDest hw).setFlags _

theorem State.Inv.fileOp {s u : State} (h : s.Inv) {d : Dest} {f : FileReg} {op : Byte → AluResult}
    (hu : s.fileOp d f op = .next u) : u.Inv := by
  simp only [State.fileOp, outcome, bind, Except.bind, pure, Except.pure] at hu
  cases hf : s.fileUpdate d f op with
  | error e => rw [hf] at hu; cases hu
  | ok r => rw [hf] at hu; cases hu; exact (h.fileUpdate hf).charge _

theorem State.Inv.fileOpSkip {s u : State} (h : s.Inv) {d : Dest} {f : FileReg} {op : Byte → AluResult}
    (hu : s.fileOpSkip d f op = .next u) : u.Inv := by
  simp only [State.fileOpSkip, outcome, bind, Except.bind, pure, Except.pure] at hu
  cases hf : s.fileUpdate d f op with
  | error e => rw [hf] at hu; cases hu
  | ok r =>
    rw [hf] at hu
    cases hu
    have := h.fileUpdate hf
    split
    · exact (this.setPc _).charge _
    · exact this.charge _

theorem State.Inv.fileStore {s u : State} (h : s.Inv) {f : FileReg} {r : AluResult}
    (hu : s.fileStore f r = .next u) : u.Inv := by
  simp only [State.fileStore, outcome, bind, Except.bind, pure, Except.pure] at hu
  cases ht : s.fileTarget f with
  | error e => rw [ht] at hu; cases hu
  | ok t =>
    rw [ht] at hu
    cases hw : s.writeDest .f t r with
    | error e => simp only [hw] at hu; cases hu
    | ok u' => simp only [hw] at hu; cases hu; exact ((h.writeDest hw).setFlags _).charge _

theorem State.Inv.bitTest {s u : State} (h : s.Inv) {b : BitVec 3} {f : FileReg} {on : Bool}
    (hu : s.bitTest b f on = .next u) : u.Inv := by
  cases ho : operand s f with
  | error e => rw [State.bitTest_error ho] at hu; cases hu
  | ok tv =>
    obtain ⟨ht, hv⟩ := operand_ok ho
    simp only [State.bitTest, ht, hv, bind, Except.bind, pure, Except.pure, outcome] at hu
    cases hu
    split
    · exact (h.setPc _).charge _
    · exact h.charge _

theorem State.Inv.beforeAccess {s : State} (h : s.Inv) (n : Fsr) (m : PtrMode) : (s.beforeAccess n m).Inv := by
  cases m <;> first | exact h.setFsr _ _ | exact h

theorem State.Inv.afterAccess {s : State} (h : s.Inv) (n : Fsr) (m : PtrMode) (p : Addr) :
    (s.afterAccess n m p).Inv := by
  cases m <;> first | exact h.setFsr _ _ | exact h

theorem State.Inv.indWrite {s u : State} (h : s.Inv) {p : Addr} {v : Byte} (hu : s.indWrite p v = .ok u) :
    u.Inv := by
  unfold State.indWrite at hu
  split at hu
  · exact h.tWrite hu
  · cases hu

theorem State.Inv.copyCell {s : State} (h : s.Inv) (src : Cell) {dst : Cell} {mask : Byte}
    (hf : ∀ v, Fits dst (v &&& mask)) : (s.copyCell src dst mask).Inv := h.store (hf _)

theorem restored_status_width {a : Byte} (h : a &&& 0xE0 = 0) (b : Byte) :
    ((a &&& 0xF8) ||| (b &&& 0x07)) &&& 0xE0 = 0 := by
  have ha : ∀ a : Byte, a &&& 0xE0 = 0 → a &&& 0xF8 &&& 0xE0 = 0 := by decide +kernel
  have hb : ∀ b : Byte, b &&& 0x07 &&& 0xE0 = 0 := by decide +kernel
  rw [BitVec.and_or_distrib_right, ha a h, hb]; rfl

/-- The restore from the shadow registers keeps the invariant. -/
theorem State.Inv.restoreShadows {s : State} (h : s.Inv) : s.restoreShadows.Inv := by
  have plain : ∀ {dst : Cell}, dst ≠ .status ∧ dst ≠ .bsr ∧ dst ≠ .stkptr ∧ dst ≠ .pclath →
      ∀ v : Byte, Fits dst (v &&& 0xFF) := fun hd v => Fits.of_plain _ hd
  have h1 := h.copyCell .wregShad (plain (dst := .wreg) (by decide))
  have h2 : ((s.copyCell .wregShad .wreg 0xFF).restoreStatus).Inv :=
    h1.store (Fits.five (by decide) (restored_status_width h1.widths.status _))
  exact (((((h2.copyCell .bsrShad (dst := .bsr) fun v => Fits.five (by decide) (and_five_width v)).copyCell
    .pclathShad (dst := .pclath) fun v => Fits.seven (and_seven_width v)).copyCell
    .fsr0lShad (plain (by decide))).copyCell .fsr0hShad (plain (by decide))).copyCell
    .fsr1lShad (plain (by decide))).copyCell .fsr1hShad (plain (by decide))

theorem State.Inv.setGie {s : State} (h : s.Inv) : s.setGie.Inv := h.store (Fits.of_plain _ (by decide))

end Sys2Proof.Machine
end

