-- ==== Sys2Proof/Laws/PerInstr.lean ====
section
/-! SUPPORT. Of every instruction: its word fits a row of the catalog, and that row's fields make the
instruction (30_encoding R163, R168, R171). -/

namespace Sys2Proof.Laws.EncodingFits

/-- The instruction's word has the fixed bits of a row of the catalog, the row's fields make the
instruction from it, and a legal instruction meets the row's constraint. -/
def Statement (i : Instr) : Prop :=
  ∃ e ∈ catalog, encode i &&& e.mask = e.bits ∧ e.build (encode i) = i ∧
    (i.wellFormed = true → e.ok (encode i) = true)

/-- Such an instruction, if legal, decodes from its word. -/
theorem Statement.decodes {i : Instr} (h : Statement i) (hw : i.wellFormed = true) :
    decode (encode i) = .ok i := by
  obtain ⟨e, he, hm, hb, hk⟩ := h
  rw [decode_of_matches he (Template.matches_iff.2 ⟨hm, hk hw⟩), hb]

/-! ## Fields of a concatenation -/

theorem mask_two {a b : Nat} (op : BitVec a) (k : BitVec b) :
    (op ++ k) &&& (BitVec.allOnes a ++ 0#b) = op ++ 0#b := by
  rw [BitVec.and_append, BitVec.and_allOnes, BitVec.and_zero]

theorem mask_three {a b c : Nat} (op : BitVec a) (x : BitVec b) (y : BitVec c) :
    (op ++ x ++ y) &&& (BitVec.allOnes a ++ 0#b ++ 0#c) = op ++ 0#b ++ 0#c := by
  rw [BitVec.and_append, mask_two, BitVec.and_zero]

theorem low {a b : Nat} (x : BitVec a) (y : BitVec b) : (x ++ y).extractLsb' 0 b = y :=
  BitVec.extractLsb'_append_eq_right

theorem middle {a b c : Nat} (op : BitVec a) (x : BitVec b) (y : BitVec c) :
    (op ++ x ++ y).extractLsb' c b = x := by
  rw [BitVec.extractLsb'_append_eq_of_le (Nat.le_refl c), Nat.sub_self, low]

/-- Opcode bits in place, with a field put under them, are the concatenation. -/
theorem or_two {a b : Nat} (op : BitVec a) (k : BitVec b) :
    (op ++ 0#b) ||| k.setWidth (a + b) = op ++ k := by
  have h : k.setWidth (a + b) = 0#a ++ k := by
    apply BitVec.eq_of_getLsbD_eq
    intro i hi
    simp only [BitVec.getLsbD_setWidth, BitVec.getLsbD_append, hi, decide_true, Bool.true_and,
      BitVec.getLsbD_zero]
    split
    · rfl
    · exact BitVec.getLsbD_of_ge _ _ (by omega)
  rw [h, BitVec.or_append, BitVec.or_zero, BitVec.zero_or]

theorem or_three {a b c : Nat} (op : BitVec a) (x : BitVec b) (y : BitVec c) :
    (op ++ 0#b ++ 0#c) ||| (x ++ y).setWidth (a + b + c) = op ++ x ++ y := by
  have h : (x ++ y).setWidth (a + b + c) = x.setWidth (a + b) ++ y := by
    apply BitVec.eq_of_getLsbD_eq
    intro i hi
    simp only [BitVec.getLsbD_setWidth, BitVec.getLsbD_append, hi, decide_true, Bool.true_and]
    split
    · rfl
    · have : i - c < a + b := by omega
      simp only [this, decide_true, Bool.true_and]
  rw [h, BitVec.or_append, or_two, BitVec.zero_or]

theorem destOfBit_destBit (d : Dest) : destOfBit (destBit d) = d := by cases d <;> rfl
theorem fsrOfBit_fsrBit (n : Fsr) : fsrOfBit (fsrBit n) = n := by cases n <;> rfl
theorem modeOfBits_modeBits (m : PtrMode) : modeOfBits (modeBits m) = m := by cases m <;> rfl

/-! ## The formats (R163), each row by its place in the catalog -/

theorem row_byteF {mk : FileReg → Instr} {name : String} {flags : List FlagName} {op : BitVec 7} (n : Nat)
    (hrow : catalog[n]? = some (fmtByteF name (op ++ 0#7) flags mk)) (k : FileReg) (he : encode (mk k) = op ++ k) :
    Statement (mk k) := by
  refine ⟨_, List.mem_of_getElem? hrow, ?_⟩
  rw [he]
  exact ⟨mask_two op k, congrArg mk (low op k), fun _ => rfl⟩

theorem row_clrw {mk : BitVec 2 → Instr} {name : String} {flags : List FlagName} {op : BitVec 12} (n : Nat)
    (hrow : catalog[n]? = some (fmtClrw name (op ++ 0#2) flags mk)) (k : BitVec 2) (he : encode (mk k) = op ++ k) :
    Statement (mk k) := by
  refine ⟨_, List.mem_of_getElem? hrow, ?_⟩
  rw [he]
  exact ⟨mask_two op k, congrArg mk (low op k), fun _ => rfl⟩

theorem row_lit8 {mk : Byte → Instr} {name : String} {cost : Cost} {flags : List FlagName} {op : BitVec 6} (n : Nat)
    (hrow : catalog[n]? = some (fmtLit8 name (op ++ 0#8) cost flags mk)) (k : Byte) (he : encode (mk k) = op ++ k) :
    Statement (mk k) := by
  refine ⟨_, List.mem_of_getElem? hrow, ?_⟩
  rw [he]
  exact ⟨mask_two op k, congrArg mk (low op k), fun _ => rfl⟩

theorem row_lit11 {mk : BitVec 11 → Instr} {name : String} {op : BitVec 3} (n : Nat)
    (hrow : catalog[n]? = some (fmtLit11 name (op ++ 0#11) mk)) (k : BitVec 11) (he : encode (mk k) = op ++ k) :
    Statement (mk k) := by
  refine ⟨_, List.mem_of_getElem? hrow, ?_⟩
  rw [he]
  exact ⟨mask_two op k, congrArg mk (low op k), fun _ => rfl⟩

theorem row_rel9 {mk : BitVec 9 → Instr} {name : String} {op : BitVec 5} (n : Nat)
    (hrow : catalog[n]? = some (fmtRel9 name (op ++ 0#9) mk)) (k : BitVec 9) (he : encode (mk k) = op ++ k) :
    Statement (mk k) := by
  refine ⟨_, List.mem_of_getElem? hrow, ?_⟩
  rw [he]
  exact ⟨mask_two op k, congrArg mk (low op k), fun _ => rfl⟩

theorem row_lit7 {mk : BitVec 7 → Instr} {name : String} {op : BitVec 7} (n : Nat)
    (hrow : catalog[n]? = some (fmtLit7 name (op ++ 0#7) mk)) (k : BitVec 7) (he : encode (mk k) = op ++ k) :
    Statement (mk k) := by
  refine ⟨_, List.mem_of_getElem? hrow, ?_⟩
  rw [he]
  exact ⟨mask_two op k, congrArg mk (low op k), fun _ => rfl⟩

theorem row_lit5 {mk : BitVec 5 → Instr} {name : String} {op : BitVec 9} (n : Nat)
    (hrow : catalog[n]? = some (fmtLit5 name (op ++ 0#5) mk)) (k : BitVec 5) (he : encode (mk k) = op ++ k) :
    Statement (mk k) := by
  refine ⟨_, List.mem_of_getElem? hrow, ?_⟩
  rw [he]
  exact ⟨mask_two op k, congrArg mk (low op k), fun _ => rfl⟩

theorem row_byteFd {mk : Dest → FileReg → Instr} {name : String} {cost : Cost} {flags : List FlagName} {op : BitVec 6} (n : Nat)
    (hrow : catalog[n]? = some (fmtByteFd name (op ++ 0#1 ++ 0#7) cost flags mk)) (x : Dest) (y : FileReg)
    (he : encode (mk x y) = op ++ destBit x ++ y) : Statement (mk x y) := by
  refine ⟨_, List.mem_of_getElem? hrow, ?_⟩
  rw [he]
  exact ⟨mask_three op (destBit x) y, congr (congrArg mk ((congrArg destOfBit (middle op (destBit x) y)).trans (destOfBit_destBit x)))
    (low (op ++ destBit x) y), fun _ => rfl⟩

theorem row_bitBf {mk : BitVec 3 → FileReg → Instr} {name : String} {cost : Cost} {op : BitVec 4} (n : Nat)
    (hrow : catalog[n]? = some (fmtBitBf name (op ++ 0#3 ++ 0#7) cost mk)) (x : BitVec 3) (y : FileReg)
    (he : encode (mk x y) = op ++ x ++ y) : Statement (mk x y) := by
  refine ⟨_, List.mem_of_getElem? hrow, ?_⟩
  rw [he]
  exact ⟨mask_three op x y, congr (congrArg mk (middle op x y))
    (low (op ++ x) y), fun _ => rfl⟩

theorem row_indNm {mk : Fsr → PtrMode → Instr} {name : String} {flags : List FlagName} {op : BitVec 11} (n : Nat)
    (hrow : catalog[n]? = some (fmtIndNm name (op ++ 0#1 ++ 0#2) flags mk)) (x : Fsr) (y : PtrMode)
    (he : encode (mk x y) = op ++ fsrBit x ++ modeBits y) : Statement (mk x y) := by
  refine ⟨_, List.mem_of_getElem? hrow, ?_⟩
  rw [he]
  exact ⟨mask_three op (fsrBit x) (modeBits y), congr (congrArg mk ((congrArg fsrOfBit (middle op (fsrBit x) (modeBits y))).trans (fsrOfBit_fsrBit x)))
    ((congrArg modeOfBits (low (op ++ fsrBit x) (modeBits y))).trans (modeOfBits_modeBits y)), fun _ => rfl⟩

theorem row_indNk {mk : Fsr → BitVec 6 → Instr} {name : String} {flags : List FlagName} {op : BitVec 7} (n : Nat)
    (hrow : catalog[n]? = some (fmtIndNk name (op ++ 0#1 ++ 0#6) flags mk)) (x : Fsr) (y : BitVec 6)
    (he : encode (mk x y) = op ++ fsrBit x ++ y) : Statement (mk x y) := by
  refine ⟨_, List.mem_of_getElem? hrow, ?_⟩
  rw [he]
  exact ⟨mask_three op (fsrBit x) y, congr (congrArg mk ((congrArg fsrOfBit (middle op (fsrBit x) y)).trans (fsrOfBit_fsrBit x)))
    (low (op ++ fsrBit x) y), fun _ => rfl⟩

theorem row_inherent {i : Instr} {name : String} {cost : Cost} {flags : List FlagName} (n : Nat)
    (hrow : catalog[n]? = some (fmtInherent name (encode i) cost flags i)) : Statement i :=
  ⟨_, List.mem_of_getElem? hrow, BitVec.and_allOnes, rfl, fun _ => rfl⟩

/-! ## The instructions -/

theorem addwf (d : Dest) (f : FileReg) : Statement (.addwf d f) := row_byteFd 0 rfl d f rfl
theorem addwfc (d : Dest) (f : FileReg) : Statement (.addwfc d f) := row_byteFd 1 rfl d f rfl
theorem addlw (k : Byte) : Statement (.addlw k) := row_lit8 2 rfl k rfl
theorem subwf (d : Dest) (f : FileReg) : Statement (.subwf d f) := row_byteFd 3 rfl d f rfl
theorem subwfb (d : Dest) (f : FileReg) : Statement (.subwfb d f) := row_byteFd 4 rfl d f rfl
theorem sublw (k : Byte) : Statement (.sublw k) := row_lit8 5 rfl k rfl
theorem andwf (d : Dest) (f : FileReg) : Statement (.andwf d f) := row_byteFd 6 rfl d f rfl
theorem andlw (k : Byte) : Statement (.andlw k) := row_lit8 7 rfl k rfl
theorem iorwf (d : Dest) (f : FileReg) : Statement (.iorwf d f) := row_byteFd 8 rfl d f rfl
theorem iorlw (k : Byte) : Statement (.iorlw k) := row_lit8 9 rfl k rfl
theorem xorwf (d : Dest) (f : FileReg) : Statement (.xorwf d f) := row_byteFd 10 rfl d f rfl
theorem xorlw (k : Byte) : Statement (.xorlw k) := row_lit8 11 rfl k rfl
theorem incf (d : Dest) (f : FileReg) : Statement (.incf d f) := row_byteFd 12 rfl d f rfl
theorem decf (d : Dest) (f : FileReg) : Statement (.decf d f) := row_byteFd 13 rfl d f rfl
theorem incfsz (d : Dest) (f : FileReg) : Statement (.incfsz d f) := row_byteFd 14 rfl d f rfl
theorem decfsz (d : Dest) (f : FileReg) : Statement (.decfsz d f) := row_byteFd 15 rfl d f rfl
theorem rlf (d : Dest) (f : FileReg) : Statement (.rlf d f) := row_byteFd 16 rfl d f rfl
theorem rrf (d : Dest) (f : FileReg) : Statement (.rrf d f) := row_byteFd 17 rfl d f rfl
theorem lslf (d : Dest) (f : FileReg) : Statement (.lslf d f) := row_byteFd 18 rfl d f rfl
theorem lsrf (d : Dest) (f : FileReg) : Statement (.lsrf d f) := row_byteFd 19 rfl d f rfl
theorem asrf (d : Dest) (f : FileReg) : Statement (.asrf d f) := row_byteFd 20 rfl d f rfl
theorem bcf (b : BitVec 3) (f : FileReg) : Statement (.bcf b f) := row_bitBf 21 rfl b f rfl
theorem bsf (b : BitVec 3) (f : FileReg) : Statement (.bsf b f) := row_bitBf 22 rfl b f rfl
theorem btfsc (b : BitVec 3) (f : FileReg) : Statement (.btfsc b f) := row_bitBf 23 rfl b f rfl
theorem btfss (b : BitVec 3) (f : FileReg) : Statement (.btfss b f) := row_bitBf 24 rfl b f rfl
theorem movf (d : Dest) (f : FileReg) : Statement (.movf d f) := row_byteFd 25 rfl d f rfl
theorem movwf (f : FileReg) : Statement (.movwf f) := row_byteF 26 rfl f rfl
theorem movlw (k : Byte) : Statement (.movlw k) := row_lit8 27 rfl k rfl
theorem comf (d : Dest) (f : FileReg) : Statement (.comf d f) := row_byteFd 28 rfl d f rfl
theorem swapf (d : Dest) (f : FileReg) : Statement (.swapf d f) := row_byteFd 29 rfl d f rfl
theorem clrf (f : FileReg) : Statement (.clrf f) := row_byteF 30 rfl f rfl
theorem clrw (x : BitVec 2) : Statement (.clrw x) := row_clrw 31 rfl x rfl
theorem goto (k : BitVec 11) : Statement (.goto k) := row_lit11 32 rfl k rfl
theorem call (k : BitVec 11) : Statement (.call k) := row_lit11 33 rfl k rfl
theorem callw : Statement .callw := row_inherent 34 rfl
theorem bra (k : BitVec 9) : Statement (.bra k) := row_rel9 35 rfl k rfl
theorem brw : Statement .brw := row_inherent 36 rfl
theorem ret : Statement .ret := row_inherent 37 rfl
theorem retlw (k : Byte) : Statement (.retlw k) := row_lit8 38 rfl k rfl
theorem retfie : Statement .retfie := row_inherent 39 rfl
theorem movlb (k : BitVec 5) : Statement (.movlb k) := row_lit5 40 rfl k rfl
theorem movlp (k : BitVec 7) : Statement (.movlp k) := row_lit7 41 rfl k rfl
theorem option : Statement .option := row_inherent 42 rfl
theorem tris (f : BitVec 3) : Statement (.tris f) := by
  refine ⟨_, List.mem_of_getElem? (i := 43) rfl, mask_two 0b00000001100#11 f,
    congrArg Instr.tris (low 0b00000001100#11 f), fun h => ?_⟩
  have hf : (encode (.tris f)).extractLsb' 0 3 = f := low 0b00000001100#11 f
  change decide (5 ≤ ((encode (.tris f)).extractLsb' 0 3).toNat) = true
  rw [hf]
  exact h
theorem nop : Statement .nop := row_inherent 44 rfl
theorem reset : Statement .reset := row_inherent 45 rfl
theorem sleep : Statement .sleep := row_inherent 46 rfl
theorem clrwdt : Statement .clrwdt := row_inherent 47 rfl
theorem moviw (n : Fsr) (m : PtrMode) : Statement (.moviw n m) := row_indNm 48 rfl n m rfl
theorem moviwk (n : Fsr) (k : BitVec 6) : Statement (.moviwk n k) := row_indNk 49 rfl n k rfl
theorem movwi (n : Fsr) (m : PtrMode) : Statement (.movwi n m) := row_indNm 50 rfl n m rfl
theorem movwik (n : Fsr) (k : BitVec 6) : Statement (.movwik n k) := row_indNk 51 rfl n k rfl
theorem addfsr (n : Fsr) (k : BitVec 6) : Statement (.addfsr n k) := row_indNk 52 rfl n k rfl

end Sys2Proof.Laws.EncodingFits
end

