-- ==== Sys2Proof/Tests/Slice0.lean ====
section
/-! SUPPORT. Tests: the well-formedness check, decoding of words written out from the templates of the
spec, the worked vectors of 95_test_vectors, and a witness for the hypotheses of each statement. -/

namespace Sys2Proof.Tests

open Sys2Proof.Machine Sys2Proof.Claims

-- The theorems below are closed computations: one after the other they need one thread.
set_option Elab.async false

/-! ## Well-formedness -/

/-- R175: TRIS needs f in 5, 6, 7. -/
theorem test_tris_four_ill_formed : (Instr.tris 4).wellFormed = false := by decide
theorem test_tris_five_well_formed : (Instr.tris 5).wellFormed = true := by decide

/-! ## Decoding: one word per row, the bits of its template in 30_encoding R171 -/

theorem test_decode_add_sub :
    decode 0b00_0111_1_0100101#14 = .ok (.addwf .f 0x25) ∧
    decode 0b11_1101_0_0100101#14 = .ok (.addwfc .w 0x25) ∧
    decode 0b11_1110_10000001#14 = .ok (.addlw 0x81) ∧
    decode 0b00_0010_1_1000010#14 = .ok (.subwf .f 0x42) ∧
    decode 0b11_1011_0_1000010#14 = .ok (.subwfb .w 0x42) ∧
    decode 0b11_1100_00010000#14 = .ok (.sublw 0x10) := by
  decide +kernel

theorem test_decode_logic :
    decode 0b00_0101_1_0100101#14 = .ok (.andwf .f 0x25) ∧
    decode 0b11_1001_01011010#14 = .ok (.andlw 0x5A) ∧
    decode 0b00_0100_0_1000010#14 = .ok (.iorwf .w 0x42) ∧
    decode 0b11_1000_10000001#14 = .ok (.iorlw 0x81) ∧
    decode 0b00_0110_1_1000010#14 = .ok (.xorwf .f 0x42) ∧
    decode 0b11_1010_11110000#14 = .ok (.xorlw 0xF0) := by
  decide +kernel

theorem test_decode_incdec :
    decode 0b00_1010_1_0100101#14 = .ok (.incf .f 0x25) ∧
    decode 0b00_0011_0_0100101#14 = .ok (.decf .w 0x25) ∧
    decode 0b00_1111_0_1000010#14 = .ok (.incfsz .w 0x42) ∧
    decode 0b00_1011_1_1000010#14 = .ok (.decfsz .f 0x42) := by
  decide +kernel

theorem test_decode_rotate_shift :
    decode 0b00_1101_1_0100101#14 = .ok (.rlf .f 0x25) ∧
    decode 0b00_1100_0_0100101#14 = .ok (.rrf .w 0x25) ∧
    decode 0b11_0101_1_1000010#14 = .ok (.lslf .f 0x42) ∧
    decode 0b11_0110_0_1000010#14 = .ok (.lsrf .w 0x42) ∧
    decode 0b11_0111_1_0100000#14 = .ok (.asrf .f 0x20) := by
  decide +kernel

theorem test_decode_bit :
    decode 0b01_00_011_1000010#14 = .ok (.bcf 3 0x42) ∧
    decode 0b01_01_110_0100101#14 = .ok (.bsf 6 0x25) ∧
    decode 0b01_10_001_1000010#14 = .ok (.btfsc 1 0x42) ∧
    decode 0b01_11_100_0100101#14 = .ok (.btfss 4 0x25) := by
  decide +kernel

theorem test_decode_move :
    decode 0b00_1000_1_0100101#14 = .ok (.movf .f 0x25) ∧
    decode 0b00_0000_1_1000010#14 = .ok (.movwf 0x42) ∧
    decode 0b11_0000_01011010#14 = .ok (.movlw 0x5A) ∧
    decode 0b00_1001_0_0100101#14 = .ok (.comf .w 0x25) ∧
    decode 0b00_1110_1_1000010#14 = .ok (.swapf .f 0x42) ∧
    decode 0b00_0001_1_0100101#14 = .ok (.clrf 0x25) ∧
    decode 0b00_0001_000000_10#14 = .ok (.clrw 2) := by
  decide +kernel

theorem test_decode_control :
    decode 0b10_1_01000000011#14 = .ok (.goto 0x203) ∧
    decode 0b10_0_10000000101#14 = .ok (.call 0x405) ∧
    decode 0b00_0000_0000_1010#14 = .ok .callw ∧
    decode 0b11_001_100000010#14 = .ok (.bra 0x102) ∧
    decode 0b00_0000_0000_1011#14 = .ok .brw ∧
    decode 0b00_0000_0000_1000#14 = .ok .ret ∧
    decode 0b11_0100_01011010#14 = .ok (.retlw 0x5A) ∧
    decode 0b00_0000_0000_1001#14 = .ok .retfie := by
  decide +kernel

theorem test_decode_system :
    decode 0b00_0000_001_10010#14 = .ok (.movlb 0x12) ∧
    decode 0b11_0001_1_1000010#14 = .ok (.movlp 0x42) ∧
    decode 0b00_0000_0110_0010#14 = .ok .option ∧
    decode 0b00_0000_01100_110#14 = .ok (.tris 6) ∧
    decode 0b00_0000_0000_0000#14 = .ok .nop ∧
    decode 0b00_0000_0000_0001#14 = .ok .reset ∧
    decode 0b00_0000_0110_0011#14 = .ok .sleep ∧
    decode 0b00_0000_0110_0100#14 = .ok .clrwdt := by
  decide +kernel

theorem test_decode_indirect :
    decode 0b00_0000_00010_1_01#14 = .ok (.moviw .fsr1 .preDec) ∧
    decode 0b11_1111_0_0_100001#14 = .ok (.moviwk .fsr0 0x21) ∧
    decode 0b00_0000_00011_0_10#14 = .ok (.movwi .fsr0 .postInc) ∧
    decode 0b11_1111_1_1_000110#14 = .ok (.movwik .fsr1 6) ∧
    decode 0b11_0001_0_1_100000#14 = .ok (.addfsr .fsr1 0x20) := by
  decide +kernel

/-- The pointer modes' numbers (48_indirect R380) and both pointers. -/
theorem test_decode_pointer_modes :
    decode 0x0010 = .ok (.moviw .fsr0 .preInc) ∧ decode 0x0011 = .ok (.moviw .fsr0 .preDec) ∧
    decode 0x0012 = .ok (.moviw .fsr0 .postInc) ∧ decode 0x0017 = .ok (.moviw .fsr1 .postDec) := by
  decide +kernel

/-- E15, R173: words that match no row. -/
theorem test_decode_reserved :
    decode 0x0002 = .error (.reserved 0x0002) ∧ decode 0x0007 = .error (.reserved 0x0007) ∧
    decode 0x000C = .error (.reserved 0x000C) ∧ decode 0x000F = .error (.reserved 0x000F) ∧
    decode 0x0040 = .error (.reserved 0x0040) ∧ decode 0x0061 = .error (.reserved 0x0061) ∧
    decode 0x0068 = .error (.reserved 0x0068) ∧ decode 0x007F = .error (.reserved 0x007F) ∧
    decode 0x0104 = .error (.reserved 0x0104) ∧ decode 0x017F = .error (.reserved 0x017F) := by
  decide +kernel

/-- E1, E16 to E20. -/
theorem test_decode_vectors :
    decode 0x07A0 = .ok (.addwf .f 0x20) ∧ decode 0x0065 = .ok (.tris 5) ∧ decode 0x0080 = .ok (.movwf 0) ∧
    decode 0x0180 = .ok (.clrf 0) ∧ decode 0x3FFF = .ok (.movwik .fsr1 63) ∧
    decode 0x3F7F = .ok (.moviwk .fsr1 63) ∧ decode 0x1234 = .ok (.bcf 4 0x34) ∧
    decode 0x2ABC = .ok (.goto 0x2BC) := by
  decide +kernel

/-- E1 to E5 and E7 to E10: the encoder's words. -/
theorem test_encode_vectors :
    encodeNamed "ADDWF" { f := some 0x20, d := some 1 } = .ok 0x07A0 ∧
    encodeNamed "BSF" { f := some 0x24, b := some 1 } = .ok 0x14A4 ∧
    encodeNamed "MOVIW" { n := some 1, m := some 3 } = .ok 0x0017 ∧
    encodeNamed "MOVWIK" { n := some 1, k := some 0x20 } = .ok 0x3FE0 ∧
    encodeNamed "CLRW" {} = .ok 0x0103 ∧ encodeNamed "TRIS" { f := some 7 } = .ok 0x0067 ∧
    encodeNamed "GOTO" { k := some 0x7FF } = .ok 0x2FFF ∧ encodeNamed "BRA" { k := some (-2) } = .ok 0x33FE ∧
    encodeNamed "ADDLW" { k := some 0x1FF } = .ok 0x3EFF := by
  decide +kernel

/-- E11 to E13: what the encoder rejects, and a mnemonic in small letters. -/
theorem test_encode_errors :
    encodeNamed "ADDWF" { f := some 0x20 } = .error (.missingField .d) ∧
    encodeNamed "FOO" {} = .error .unknownMnemonic ∧
    encodeNamed "addwf" { f := some 0x20, d := some 0 } = .ok 0x0720 := by
  decide +kernel

/-- E18: the decoder's view. -/
theorem test_decode_view :
    decodeView 0x3F7F = some ("MOVIWK", { n := some 1, k := some 63 }) ∧ decodeView 0x0002 = none ∧
    decodeTableWord 14 0x0001 = some .reset ∧ decodeTableWord 14 0x4001 = none := by
  decide +kernel

/-! ## Address translation: T1 to T13 of 95_test_vectors -/

theorem test_translate_traditional :
    translateTraditional 0x083 = .status ∧ translateTraditional 0xF83 = .status ∧
    translateTraditional 0x00C = .sfr 0 0x0C ∧ translateTraditional 0x08C = .trisa ∧
    translateTraditional 0x06F = .gpr 0x4F ∧ translateTraditional 0x0F0 = .gpr 0x50 ∧
    translateTraditional 0x0A0 = .gpr 0x60 ∧ translateTraditional 0x120 = .gpr 0xB0 ∧
    translateTraditional 0xF20 = .gpr 0x970 ∧ translateTraditional 0xF7F = .gpr 0x5F ∧
    translateTraditional 0xFE0 = .sfr 31 0x10 ∧ translateTraditional 0xFEE = .tosl ∧
    translateTraditional 0xFED = .stkptr := by
  decide +kernel

theorem test_translate_linear :
    translateAddr 0x2000 = .ok (.gpr 0) ∧ translateAddr 0x204F = .ok (.gpr 0x4F) ∧
    translateAddr 0x2050 = .ok (.gpr 0x60) ∧ translateAddr 0x29AF = .ok (.gpr 0x9BF) ∧
    translateAddr 0x1000 = .error (.addressError 0x1000) ∧
    translateAddr 0x29B0 = .error (.addressError 0x29B0) := by
  decide +kernel

/-! ## One step: the vectors of 95_test_vectors -/

/-- The start state of a vector: reset, pc, the word there, and cells. -/
def start (pc : Pc) (w : Word) (cells : List (Cell × Byte)) : State :=
  cells.foldl (fun s e => s.store e.1 e.2) { State.reset with pc := pc, pmem := [(pc.toNat % 2048, w)] }

/-- What one step leaves, seen through a view. -/
def see {α : Type} (s : State) (view : State → α) : Option α :=
  match step s with
  | .next t => some (view t)
  | .fault _ => none
  | .refused _ => none

/-- Data cell 0x020. -/
abbrev f20 : Cell := .gpr 0

/-- V-A1, V-A2. -/
theorem test_addwf :
    see (start 0 0x07A0 [(.wreg, 0x0F), (f20, 0x01)]) (fun t => (t.stored f20, t.stored .status, t.pc, t.cycles)) = some (0x10, 0x1A, 1, 1) ∧
    see (start 0 0x0720 [(.wreg, 0x80), (f20, 0x80)]) (fun t => (t.stored .wreg, t.stored .status)) = some (0x00, 0x1D) := by
  decide +kernel

/-- V-A16, V-A17: STATUS keeps the flags, PCL jumps. -/
theorem test_addwf_special :
    see (start 0 0x0783 [(.wreg, 0xE8)]) (fun t => t.stored .status) = some 0x1F ∧
    see (start 0x010 0x0782 [(.wreg, 0x05)]) (fun t => (t.pc, t.cycles)) = some (0x016, 1) := by
  decide +kernel

/-- V-A3, V-A4. -/
theorem test_addwfc :
    see (start 0 0x3D20 [(.status, 0x19), (.wreg, 0x7F), (f20, 0x80)]) (fun t => (t.stored .wreg, t.stored .status)) = some (0x00, 0x1F) ∧
    see (start 0 0x3DA0 [(.status, 0x19), (.wreg, 0xFF), (f20, 0xFF)]) (fun t => (t.stored f20, t.stored .status)) = some (0xFF, 0x1B) := by
  decide +kernel

/-- V-A5, V-A7. -/
theorem test_addlw :
    see (start 0 0x3E01 [(.wreg, 0xFF)]) (fun t => (t.stored .wreg, t.stored .status)) = some (0x00, 0x1F) ∧
    see (start 0 0x3E00 [(.status, 0x1B)]) (fun t => (t.stored .wreg, t.stored .status)) = some (0x00, 0x1C) := by
  decide +kernel

/-- V-A8, V-A10. -/
theorem test_subwf :
    see (start 0 0x02A0 [(.wreg, 0x20), (f20, 0x10)]) (fun t => (t.stored f20, t.stored .status)) = some (0xF0, 0x1A) ∧
    see (start 0 0x0220 [(.wreg, 0x01), (f20, 0x10)]) (fun t => (t.stored .wreg, t.stored .status)) = some (0x0F, 0x19) := by
  decide +kernel

/-- V-A12, V-A13. -/
theorem test_subwfb :
    see (start 0 0x3B20 [(.wreg, 0x05), (f20, 0x05)]) (fun t => (t.stored .wreg, t.stored .status)) = some (0xFF, 0x18) ∧
    see (start 0 0x3B20 [(.status, 0x19), (.wreg, 0x01)]) (fun t => (t.stored .wreg, t.stored .status)) = some (0xFF, 0x18) := by
  decide +kernel

/-- V-A14, V-A15. -/
theorem test_sublw :
    see (start 0 0x3C10 [(.wreg, 0x10)]) (fun t => (t.stored .wreg, t.stored .status)) = some (0x00, 0x1F) ∧
    see (start 0 0x3C00 [(.wreg, 0x01)]) (fun t => (t.stored .wreg, t.stored .status)) = some (0xFF, 0x18) := by
  decide +kernel

/-- V-L1, V-L3, V-L5. -/
theorem test_logic_file :
    see (start 0 0x0520 [(.wreg, 0x0F), (f20, 0xF0)]) (fun t => (t.stored .wreg, t.stored .status)) = some (0x00, 0x1C) ∧
    see (start 0 0x04A0 [(.wreg, 0x05), (f20, 0x50)]) (fun t => (t.stored f20, t.stored .status)) = some (0x55, 0x18) ∧
    see (start 0 0x06A0 [(.wreg, 0xFF), (f20, 0xFF)]) (fun t => (t.stored f20, t.stored .status)) = some (0x00, 0x1C) := by
  decide +kernel

/-- V-L2, V-L4, V-L6, V-L8. -/
theorem test_logic_literal :
    see (start 0 0x390F [(.wreg, 0x5A)]) (fun t => (t.stored .wreg, t.stored .status)) = some (0x0A, 0x18) ∧
    see (start 0 0x3800 []) (fun t => (t.stored .wreg, t.stored .status)) = some (0x00, 0x1C) ∧
    see (start 0 0x3AFF [(.wreg, 0x0F)]) (fun t => (t.stored .wreg, t.stored .status)) = some (0xF0, 0x18) ∧
    see (start 0 0x3901 [(.wreg, 0x02), (.status, 0x1B)]) (fun t => (t.stored .wreg, t.stored .status)) = some (0x00, 0x1F) := by
  decide +kernel

/-- V-I1, V-I2. -/
theorem test_incf_decf :
    see (start 0 0x0AA0 [(f20, 0xFF)]) (fun t => (t.stored f20, t.stored .status)) = some (0x00, 0x1C) ∧
    see (start 0 0x0320 []) (fun t => (t.stored .wreg, t.stored .status)) = some (0xFF, 0x18) := by
  decide +kernel

/-- V-I3, V-I5. -/
theorem test_incfsz :
    see (start 0x010 0x0FA0 [(f20, 0xFF)]) (fun t => (t.stored f20, t.stored .status, t.pc, t.cycles)) = some (0x00, 0x18, 0x012, 2) ∧
    see (start 0x010 0x0F20 [(f20, 0xFF)]) (fun t => (t.stored .wreg, t.stored f20, t.pc, t.cycles)) = some (0x00, 0xFF, 0x012, 2) := by
  decide +kernel

/-- V-I6, V-I8. -/
theorem test_decfsz :
    see (start 0 0x0BA0 [(f20, 0x01)]) (fun t => (t.stored f20, t.pc, t.cycles)) = some (0x00, 2, 2) ∧
    see (start 0 0x0BA0 []) (fun t => (t.stored f20, t.pc, t.cycles)) = some (0xFF, 1, 1) := by
  decide +kernel

/-- V-R1, V-R2, V-R3, V-R4. -/
theorem test_rotate :
    see (start 0 0x0DA0 [(.status, 0x19), (f20, 0x80)]) (fun t => (t.stored f20, t.stored .status)) = some (0x01, 0x19) ∧
    see (start 0 0x0DA0 []) (fun t => (t.stored f20, t.stored .status)) = some (0x00, 0x18) ∧
    see (start 0 0x0D20 [(.status, 0x1D)]) (fun t => (t.stored .wreg, t.stored .status)) = some (0x01, 0x1C) ∧
    see (start 0 0x0C20 [(f20, 0x01)]) (fun t => (t.stored .wreg, t.stored .status)) = some (0x00, 0x19) := by
  decide +kernel

/-- V-R5, V-R6, V-R7, V-R8. -/
theorem test_shift :
    see (start 0 0x35A0 [(f20, 0x80)]) (fun t => (t.stored f20, t.stored .status)) = some (0x00, 0x1D) ∧
    see (start 0 0x3620 [(f20, 0x01)]) (fun t => (t.stored .wreg, t.stored .status)) = some (0x00, 0x1D) ∧
    see (start 0 0x3720 [(f20, 0x80)]) (fun t => (t.stored .wreg, t.stored .status)) = some (0xC0, 0x18) ∧
    see (start 0 0x37A0 [(f20, 0xFF)]) (fun t => (t.stored f20, t.stored .status)) = some (0xFF, 0x19) := by
  decide +kernel

/-- V-B1, V-B2, and BCF STATUS,3 as V-B3 describes it, with the word of R171. -/
theorem test_bcf_bsf :
    see (start 0 0x13A0 [(f20, 0xFF)]) (fun t => t.stored f20) = some 0x7F ∧
    see (start 0 0x1403 []) (fun t => t.stored .status) = some 0x19 ∧
    see (start 0 0x1183 []) (fun t => t.stored .status) = some 0x18 := by
  decide +kernel

/-- V-B4, V-B5, V-B8. -/
theorem test_btfsc :
    see (start 0x010 0x1903 []) (fun t => (t.pc, t.cycles)) = some (0x012, 2) ∧
    see (start 0x010 0x1803 [(.status, 0x19)]) (fun t => (t.pc, t.cycles)) = some (0x011, 1) ∧
    see (start 0x010 0x1B83 []) (fun t => (t.pc, t.cycles)) = some (0x012, 2) := by
  decide +kernel

/-- V-B6, V-B7, V-B9. -/
theorem test_btfss :
    see (start 0x010 0x1C20 [(f20, 0x01)]) (fun t => (t.pc, t.cycles)) = some (0x012, 2) ∧
    see (start 0x010 0x1C20 []) (fun t => (t.pc, t.cycles)) = some (0x011, 1) ∧
    see (start 0x010 0x1F83 []) (fun t => (t.pc, t.cycles)) = some (0x011, 1) := by
  decide +kernel

/-- V-M1, V-M11, V-M12. -/
theorem test_movf :
    see (start 0 0x0820 []) (fun t => (t.stored .wreg, t.stored .status)) = some (0x00, 0x1C) ∧
    see (start 0 0x0800 [(.fsr0l, 0x20), (f20, 0x99)]) (fun t => (t.stored .wreg, t.stored .status)) = some (0x99, 0x18) ∧
    see (start 0 0x0800 []) (fun t => (t.stored .wreg, t.stored .status)) = some (0x00, 0x1C) := by
  decide +kernel

/-- V-M2, V-M9, V-M10. -/
theorem test_movwf :
    see (start 0 0x00A0 [(.wreg, 0x10)]) (fun t => t.stored f20) = some 0x10 ∧
    see (start 0x010 0x0082 [(.wreg, 0x40), (.pclath, 0x01)]) (fun t => (t.pc, t.cycles)) = some (0x140, 1) ∧
    see (start 0 0x0088 [(.wreg, 0xFF)]) (fun t => t.stored .bsr) = some 0x1F := by
  decide +kernel

/-- V-M3, V-M4, V-M5, V-M6, V-M7, V-M8. -/
theorem test_move_others :
    see (start 0 0x305A []) (fun t => (t.stored .wreg, t.stored .status)) = some (0x5A, 0x18) ∧
    see (start 0 0x09A0 [(f20, 0xFF)]) (fun t => (t.stored f20, t.stored .status)) = some (0x00, 0x1C) ∧
    see (start 0 0x0E20 [(f20, 0xA5)]) (fun t => (t.stored .wreg, t.stored .status)) = some (0x5A, 0x18) ∧
    see (start 0 0x01A0 [(f20, 0x5A)]) (fun t => (t.stored f20, t.stored .status)) = some (0x00, 0x1C) ∧
    see (start 0 0x0183 [(.status, 0x1B)]) (fun t => t.stored .status) = some 0x1F ∧
    see (start 0 0x0103 [(.wreg, 0x5A)]) (fun t => (t.stored .wreg, t.stored .status)) = some (0x00, 0x1C) := by
  decide +kernel

/-- V-C1, V-C4, V-C6, V-C8. -/
theorem test_goto_branch :
    see (start 0 0x2923 [(.pclath, 0x08)]) (fun t => (t.pc, t.cycles)) = some (0x923, 2) ∧
    see (start 0x003 0x33FE []) (fun t => (t.pc, t.cycles)) = some (0x002, 2) ∧
    see (start 0x010 0x3300 []) (fun t => (t.pc, t.cycles)) = some (0x7F11, 2) ∧
    see (start 0x010 0x000B [(.wreg, 3)]) (fun t => (t.pc, t.cycles)) = some (0x014, 2) := by
  decide +kernel

/-- V-C2, V-C3. -/
theorem test_call :
    see (start 0x005 0x2010 []) (fun t => (t.stack[0], t.stored .stkptr, t.pc, t.cycles)) = some (0x006, 0x00, 0x010, 2) ∧
    see (start 0x040 0x000A [(.pclath, 0x01), (.wreg, 0x23)]) (fun t => (t.stack[0], t.stored .stkptr, t.pc)) = some (0x041, 0x00, 0x123) := by
  decide +kernel

/-- The same with stack slot i holding v. -/
def startSlot (w : Word) (cells : List (Cell × Byte)) (i : BitVec 4) (v : Pc) : State :=
  (start 0 w cells).setSlot i v

/-- V-C9, V-C10, V-C11: STKUNF only when STKPTR was 0. -/
theorem test_return :
    see (startSlot 0x0008 [(.stkptr, 3)] 3 0x40) (fun t => (t.pc, t.stored .stkptr, t.cycles)) =
      some (0x40, 2, 2) ∧
    see (startSlot 0x0008 [] 15 0x77) (fun t => (t.pc, t.stored .stkptr, t.stored .pcon)) =
      some (0x77, 0x0E, 0x00) ∧
    see (startSlot 0x0008 [(.stkptr, 0)] 0 0x55) (fun t => (t.pc, t.stored .stkptr, t.stored .pcon)) =
      some (0x55, 0x0F, 0x40) := by
  decide +kernel

/-- V-C12. -/
theorem test_retlw :
    see (startSlot 0x3433 [(.stkptr, 0)] 0 2) (fun t => (t.stored .wreg, t.pc, t.stored .stkptr)) =
      some (0x33, 2, 0x0F) := by
  decide +kernel

/-- V-C13. -/
theorem test_retfie :
    see (startSlot 0x0009 [(.stkptr, 0), (.wregShad, 0x11), (.statusShad, 0x05)] 0 0x123)
      (fun t => (t.pc, t.stored .wreg, t.stored .status, t.stored .intcon, t.stored .stkptr)) =
      some (0x123, 0x11, 0x1D, 0x80, 0x0F) := by
  decide +kernel

/-- V-S1, V-S2, V-S3, V-S4. -/
theorem test_bank_page_legacy :
    see (start 0 0x0022 []) (fun t => t.stored .bsr) = some 0x02 ∧
    see (start 0 0x3188 []) (fun t => (t.stored .pclath, t.pc)) = some (0x08, 1) ∧
    see (start 0 0x0062 [(.wreg, 0x07)]) (fun t => t.stored .optionReg) = some 0x07 ∧
    see (start 0 0x0066 []) (fun t => t.stored .trisb) = some 0x00 := by
  decide +kernel

/-- V-S5, V-S7, V-S8. -/
theorem test_nop_sleep_clrwdt :
    see (start 0x010 0x0000 []) (fun t => (t.pc, t.cycles)) = some (0x011, 1) ∧
    see (start 0x004 0x0063 []) (fun t => (t.stored .status, t.pc, t.mode)) = some (0x10, 0x005, .asleep) ∧
    see (start 0 0x0064 [(.status, 0x10)]) (fun t => t.stored .status) = some 0x18 := by
  decide +kernel

/-- V-S6: pc, W and STKPTR as R70, the cycle counted; nothing of the draws. -/
theorem test_reset :
    see (start 0x010 0x0001 [(.wreg, 0x55), (.stkptr, 3)])
      (fun t => (t.pc, t.stored .wreg, t.stored .stkptr, t.cycles)) = some (0, 0, 0x1F, 1) := by
  decide +kernel

/-- V-N1 to V-N4. -/
theorem test_moviw :
    see (start 0 0x0012 [(.fsr0h, 0x20), (f20, 0x44)])
      (fun t => (t.stored .wreg, t.stored .status, t.fsr .fsr0)) = some (0x44, 0x18, 0x2001) ∧
    see (start 0 0x0011 [(.fsr0h, 0x20), (.fsr0l, 0x01)])
      (fun t => (t.stored .wreg, t.stored .status, t.fsr .fsr0)) = some (0x00, 0x1C, 0x2000) ∧
    see (start 0 0x0017 []) (fun t => (t.stored .wreg, t.stored .status, t.fsr .fsr1)) =
      some (0x00, 0x1C, 0xFFFF) ∧
    see (start 0 0x0010 [(.fsr0h, 0x29), (.fsr0l, 0xAF)])
      (fun t => (t.stored .wreg, t.stored .status, t.fsr .fsr0)) = some (0x00, 0x1C, 0x29B0) := by
  decide +kernel

/-- A program word, with the state's own. -/
def withWord (s : State) (a : Nat) (w : Word) : State := { s with pmem := Assoc.insert a w s.pmem }

/-- V-N5. -/
theorem test_moviwk :
    see (withWord (start 0 0x3F42 [(.fsr1h, 0x80), (.fsr1l, 0x03)]) 5 0x3433)
      (fun t => (t.stored .wreg, t.stored .status, t.fsr .fsr1)) = some (0x33, 0x18, 0x8003) := by
  decide +kernel

/-- V-N6, V-N7, V-N8. -/
theorem test_movwi :
    see (start 0 0x001D [(.wreg, 0x44), (.fsr1h, 0x20), (.fsr1l, 0x51)])
      (fun t => (t.stored (.gpr 0x60), t.fsr .fsr1)) = some (0x44, 0x2050) ∧
    see (start 0 0x001A [(.wreg, 0x77), (.fsr0l, 0x04)]) (fun t => t.fsr .fsr0) = some 0x0005 ∧
    see (start 0 0x001A [(.wreg, 0x12), (.fsr0h, 0x80)]) (fun t => (t.fsr .fsr0, t.pmem)) =
      some (0x8001, [(0, 0x001A)]) := by
  decide +kernel

/-- V-N9, V-N10, V-N11. -/
theorem test_movwik_addfsr :
    see (start 0 0x3FBF [(.wreg, 0x55), (.fsr0l, 0x21)]) (fun t => (t.stored f20, t.fsr .fsr0)) =
      some (0x55, 0x0021) ∧
    see (start 0 0x3160 [(.fsr1h, 0x20), (.fsr1l, 0x50)]) (fun t => t.fsr .fsr1) = some 0x2030 ∧
    see (start 0 0x311F [(.fsr0h, 0xFF), (.fsr0l, 0xFF)]) (fun t => t.fsr .fsr0) = some 0x001E := by
  decide +kernel

/-! ## Faults: F1 to F12 -/

/-- F1, F2. -/
theorem test_fetch_faults :
    see (start 0 0x0002 []) id = some { start 0 0x0002 [] with mode := .faulted (.decodeError 0 0x0002) } ∧
    see State.reset id = some { State.reset with mode := .faulted (.unloadedProgramWord 0) } := by
  decide +kernel

/-- F3 to F7. -/
theorem test_indirect_faults :
    see (start 0 0x0012 [(.fsr0h, 0x10)]) (fun t => (t.mode, t.fsr .fsr0)) =
      some (.faulted (.addressError 0x1000), 0x1000) ∧
    see (start 0 0x0012 [(.fsr0h, 0x88)]) (fun t => t.mode) = some (.faulted (.addressError 0x8800)) ∧
    see (start 0 0x0012 [(.fsr0h, 0x80), (.fsr0l, 1)]) (fun t => t.mode) =
      some (.faulted (.unloadedProgramWord 1)) ∧
    see (withWord (start 0 0x0012 [(.fsr0h, 0x80), (.fsr0l, 1)]) 1 0x0002) (fun t => t.mode) =
      some (.faulted (.decodeError 1 0x0002)) ∧
    see (start 0 0x0010 [(.fsr0h, 0x0F), (.fsr0l, 0xFF)]) (fun t => (t.mode, t.fsr .fsr0)) =
      some (.faulted (.addressError 0x1000), 0x0FFF) := by
  decide +kernel

/-- F8, F9. -/
theorem test_unmodelled_register :
    see (start 0 0x086E [(.bsr, 31)]) (fun t => (t.mode, t.pc)) = some (.faulted (.unmodelledRegister .tosl), 0) ∧
    see (start 0 0x081E [(.bsr, 31)]) (fun t => t.mode) = some (.faulted (.unmodelledRegister .tosl)) := by
  decide +kernel

/-- F10, F11, F12: an interrupt pending. -/
theorem test_interrupts :
    see (start 0 0x0000 [(.intcon, 0xA4)]) (fun t => (t.mode, t.pc)) =
      some (.faulted (.interruptNotModelled 0xA4), 0) ∧
    see (start 0 0x0000 [(.intcon, 0x24)]) (fun t => (t.mode, t.pc)) = some (.running, 1) ∧
    see ((start 0 0x0063 [(.intcon, 0x24)]).setMode .asleep) (fun t => t.mode) =
      some (.faulted (.interruptNotModelled 0x24)) ∧
    see ((start 0 0x0063 []).setMode .asleep) (fun t => (t.mode, t.pc, t.cycles)) = some (.asleep, 0, 0) := by
  decide +kernel

/-! ## The host -/

/-- 70_reset R449, 30_encoding R167. -/
theorem test_host :
    (start 0 0x0000 [(.wreg, 0x5A)]).namedRead [("WREG", 0x009)] "wreg" = .ok 0x5A ∧
    State.reset.namedRead [("WREG", 0x009)] "FOO" = .error .nameError ∧
    (start 0 0x07A0 []).decodedPort 0 = .instruction "ADDWF" { d := some 1, f := some 0x20 } := by
  decide +kernel

/-! ## Witnesses: a state and operands that meet the hypotheses of each statement

Statements without hypotheses have none here: SampleWordsDecode, OneTemplateMatches,
BankThirtyOneSharesCells, AdderResult, the literal rules, GotoRule, CallRules,
RelativeBranchRules, ReturnRules, RetfieRule, BankPageRules, ResetEffects,
AddFsrRule, StepAnswersNext, ResetMeetsInvariant and ResetStateValues. -/

/-- What the witnesses run on: a state with cells set and program words loaded. -/
def stateWith (cells : List (Cell × Byte)) (words : List (Nat × Word)) : State :=
  cells.foldl (fun s e => s.store e.1 e.2) { State.reset with pmem := words }

/-- DecodeEncodeInverse: a well-formed instruction, and a word that decodes. -/
theorem witness_DecodeEncodeInverse :
    (Instr.tris 7).wellFormed = true ∧ (Instr.addwf .f 0x7F).wellFormed = true ∧
    decode 0x07FF = .ok (.addwf .f 0x7F) := by
  decide +kernel

/-- NamedEncoderRoundTrip: legal instantiations at the ends of their fields, one that lacks a field, and
a word with a view. -/
theorem witness_NamedEncoderRoundTrip :
    Legal (fmtTris "TRIS" 0x0060 .tris) { f := some 7 } ∧
    (fmtTris "TRIS" 0x0060 .tris).mnemonic ∈ catalog.map Template.mnemonic ∧
    Fields.get { f := some 0x20 } .d = none ∧
    decodeView 0x0067 = some ("TRIS", { f := some 7 }) := by
  refine ⟨⟨fun F hF => ?_, fun name h => ?_, fun _ => ⟨7, rfl, by decide⟩⟩, by decide +kernel, rfl,
    by decide +kernel⟩
  · rw [List.mem_singleton.1 hF]; exact ⟨7, rfl, by decide⟩
  · cases name with
    | f => exact absurd rfl (h ⟨.f, 2, 0⟩ (List.mem_singleton.2 rfl))
    | _ => rfl

/-- ReservedWordsFault, StepRunsDecoded, UnloadedFetchFaults: a running core with a reserved word, with an
instruction and with nothing at its fetch address, and no interrupt. -/
theorem witness_fetches :
    (stateWith [] [(0, 0x0002)]).mode = .running ∧
    ((stateWith [] [(0, 0x0002)]).gie && (stateWith [] [(0, 0x0002)]).pending) = false ∧
    fetched (stateWith [] [(0, 0x0002)]) = some 0x0002 ∧ reservedWord 0x0002 = true ∧
    fetched (stateWith [] [(0, 0x07A0)]) = some 0x07A0 ∧ decode 0x07A0 = .ok (.addwf .f 0x20) ∧
    fetched (stateWith [] []) = none ∧ ((stateWith [] []).gie && (stateWith [] []).pending) = false := by
  decide +kernel

/-- StepRunsDecoded: an instruction that completes and one that raises a fault. -/
theorem witness_StepRunsDecoded :
    (∃ t, exec .nop (stateWith [] [(0, 0x0000)]).advance = .next t) ∧
    exec (.movf .w 0x1E) (stateWith [(.bsr, 31)] [(0, 0x081E)]).advance = .fault (.unmodelledRegister .tosl) ∧
    decode 0x081E = .ok (.movf .w 0x1E) :=
  ⟨⟨_, rfl⟩, rfl, by decide +kernel⟩

/-- TranslatorAliases: each range at both of its ends. -/
theorem witness_TranslatorAliases :
    translateTraditional (BitVec.ofNat 12 (31 * 128 + 0)) = .sfr 0 0 ∧
    translateTraditional (BitVec.ofNat 12 (0 * 128 + 0x0B)) = .sfr 0 0x0B ∧
    translateTraditional (BitVec.ofNat 12 (0 * 128 + 0x70)) = .gpr 0x50 ∧
    translateTraditional (BitVec.ofNat 12 (31 * 128 + 0x7F)) = .gpr 0x5F ∧
    translateAddr (BitVec.ofNat 16 0x2000) = .ok (translateTraditional 0x020) ∧
    translateAddr (BitVec.ofNat 16 0x29AF) = .ok (translateTraditional 0xF6F) ∧
    translateTraditional (BitVec.ofNat 12 0x20) = .gpr 0 ∧ translateTraditional (BitVec.ofNat 12 0x6F) = .gpr 0x4F ∧
    translateTraditional (BitVec.ofNat 12 (1 * 128 + 0x20)) = .gpr 0x60 ∧
    translateTraditional (BitVec.ofNat 12 (30 * 128 + 0x6F)) = .gpr 0x9BF ∧
    translateTraditional (BitVec.ofNat 12 (0xF80 + 0x20)) = .gpr 0x9C0 ∧
    translateTraditional (BitVec.ofNat 12 (0xF80 + 0x5F)) = .gpr 0x9FF := by
  decide +kernel

/-- IndirectSpaceRegions: each region at both of its ends. -/
theorem witness_IndirectSpaceRegions :
    indTarget 0x0000 = .ok (.cell .indf0) ∧ indTarget 0x0FFF = .ok (.cell (.gpr 0x5F)) ∧
    indTarget 0x1000 = .error (.addressError 0x1000) ∧ indTarget 0x1FFF = .error (.addressError 0x1FFF) ∧
    indTarget 0x2000 = .ok (.cell (.gpr 0)) ∧ indTarget 0x29AF = .ok (.cell (.gpr 0x9BF)) ∧
    indTarget 0x29B0 = .ok .null ∧ indTarget 0x7FFF = .ok .null ∧
    indTarget 0x8000 = .ok (.prog 0) ∧ indTarget 0xFFFF = .ok (.prog 0x7FFF) := by
  decide +kernel

/-- ProgramWindowRead: nothing loaded, a reserved word, an instruction, and both sides of 0x8800. -/
theorem witness_ProgramWindowRead :
    (stateWith [] []).indRead 0x8000 = .error (.unloadedProgramWord 0) ∧
    (stateWith [] [(0x7FF, 0x0002)]).indRead 0x87FF = .error (.decodeError 0x7FF 0x0002) ∧
    (stateWith [] [(0x7FF, 0x3433)]).indRead 0x87FF = .ok 0x33 ∧
    (stateWith [] []).indRead 0x8800 = .error (.addressError 0x8800) ∧
    (stateWith [] []).indRead 0xFFFF = .error (.addressError 0xFFFF) := by
  decide +kernel

/-- FileOperandFaults, through INDF: each range of the pointer at its ends. -/
theorem witness_FileOperandFaults_pointer :
    operand (stateWith [(.fsr0h, 0x0F), (.fsr0l, 0x9E)] []) 0 = .error (.unmodelledRegister .tosl) ∧
    operand (stateWith [(.fsr0h, 0x0F), (.fsr0l, 0xEE)] []) 0 = .error (.unmodelledRegister .tosl) ∧
    operand (stateWith [(.fsr0h, 0x0F), (.fsr0l, 0x9F)] []) 0 = .error (.unmodelledRegister .tosh) ∧
    operand (stateWith [(.fsr0h, 0x0F), (.fsr0l, 0xEF)] []) 0 = .error (.unmodelledRegister .tosh) ∧
    (stateWith [(.fsr0h, 0x10), (.fsr0l, 0x00)] []).fileTarget 0 = .error (.addressError 0x1000) ∧
    (stateWith [(.fsr1h, 0x1F), (.fsr1l, 0xFF)] []).fileTarget 1 = .error (.addressError 0x1FFF) ∧
    operand (stateWith [(.fsr0h, 0x88), (.fsr0l, 0x00)] []) 0 = .error (.addressError 0x8800) ∧
    operand (stateWith [(.fsr1h, 0xFF), (.fsr1l, 0xFF)] []) 1 = .error (.addressError 0xFFFF) ∧
    operand (stateWith [(.fsr0h, 0x80), (.fsr0l, 0x00)] []) 0 = .error (.unloadedProgramWord 0) ∧
    operand (stateWith [(.fsr0h, 0x87), (.fsr0l, 0xFF)] [(0x7FF, 0x0002)]) 0 = .error (.decodeError 0x7FF 0x0002) ∧
    operand (stateWith [(.fsr0h, 0x87), (.fsr0l, 0xFF)] [(0x7FF, 0x3433)]) 0 = .ok (.prog 0x7FF, 0x33) ∧
    operand (stateWith [(.fsr0h, 0x0F), (.fsr0l, 0xFF)] []) 0 = .ok (.cell (.gpr 0x5F), 0) ∧
    operand (stateWith [(.fsr0h, 0x20), (.fsr0l, 0x00)] []) 0 = .ok (.cell (.gpr 0), 0) ∧
    operand (stateWith [(.fsr1h, 0x7F), (.fsr1l, 0xFF)] []) 1 = .ok (.null, 0) := by
  decide +kernel

/-- FileOperandFaults, direct operands. -/
theorem witness_FileOperandFaults_direct :
    operand (stateWith [(.bsr, 31)] []) 0x1E = .error (.unmodelledRegister .tosl) ∧
    operand (stateWith [(.bsr, 31)] []) 0x6E = .error (.unmodelledRegister .tosl) ∧
    operand (stateWith [(.bsr, 31)] []) 0x1F = .error (.unmodelledRegister .tosh) ∧
    operand (stateWith [(.bsr, 31)] []) 0x6F = .error (.unmodelledRegister .tosh) ∧
    operand (stateWith [(.bsr, 31)] []) 0x1D = .ok (.cell .stkptr, 0x1F) ∧
    operand (stateWith [(.bsr, 30)] []) 0x1E = .ok (.cell (.sfr 30 0x1E), 0) := by
  decide +kernel

/-- AddFileRules, SubtractFileRules, LogicFileRules, IncrementDecrementRules, SkipOnZeroRules, RotateRules,
ShiftRules, BitChangeRules, BitTestRules, MoveComplementRules, SwapRule: an operand that cannot be read, and
readable ones of each kind of target (an ordinary cell, PCL, STATUS, BSR, PCLATH, STKPTR, the null
region, a program word). -/
theorem witness_file_operands :
    operand (stateWith [(.bsr, 31)] []) 0x1E = .error (.unmodelledRegister .tosl) ∧
    operand (stateWith [(f20, 0xFF)] []) 0x20 = .ok (.cell f20, 0xFF) ∧
    operand (stateWith [] []) 0x02 = .ok (.cell .pcl, 0) ∧
    operand (stateWith [] []) 0x03 = .ok (.cell .status, 0x18) ∧
    operand (stateWith [] []) 0x08 = .ok (.cell .bsr, 0) ∧
    operand (stateWith [] []) 0x0A = .ok (.cell .pclath, 0) ∧
    operand (stateWith [(.bsr, 31)] []) 0x1D = .ok (.cell .stkptr, 0x1F) ∧
    operand (stateWith [(.fsr0h, 0x30), (.fsr0l, 0x00)] []) 0 = .ok (.null, 0) ∧
    operand (stateWith [(.fsr0h, 0x80), (.fsr0l, 0x00)] [(0, 0x3433)]) 0 = .ok (.prog 0, 0x33) := by
  decide +kernel

/-- SkipOnZeroRules and BitTestRules: a result of 0 and another, a bit of each value. -/
theorem witness_skips :
    operand (stateWith [(f20, 0xFF)] []) 0x20 = .ok (.cell f20, 0xFF) ∧ (0xFF : Byte) + 1 = 0 ∧
    operand (stateWith [(f20, 0x01)] []) 0x20 = .ok (.cell f20, 0x01) ∧ (0x01 : Byte) - 1 = 0 ∧
    (0x01 : Byte) + 1 ≠ 0 ∧ (0x01 : Byte) >>> (0 : BitVec 3).toNat % 2 = 1 ∧
    (0x01 : Byte) >>> (7 : BitVec 3).toNat % 2 = 0 := by
  decide +kernel

/-- MoveToFileRule and ClearFileRule: no target, a forbidden one, and two that may be written. -/
theorem witness_file_targets :
    (stateWith [(.fsr0h, 0x10), (.fsr0l, 0x00)] []).fileTarget 0 = .error (.addressError 0x1000) ∧
    (stateWith [(.bsr, 31)] []).fileTarget 0x1F = .ok (.cell .tosh) ∧ forbidden (.cell .tosh) ∧
    (stateWith [] []).fileTarget 0x03 = .ok (.cell .status) ∧ ¬ forbidden (.cell .status) ∧
    (stateWith [(.fsr0h, 0x30), (.fsr0l, 0x00)] []).fileTarget 0 = .ok .null ∧ ¬ forbidden .null := by
  unfold forbidden
  decide +kernel

/-- PushesPopInOrder: sixteen pushes. -/
theorem witness_PushesPopInOrder : (List.replicate 16 (1 : Pc)).length ≤ 16 := by decide

/-- SeventeenthPushOverflows. -/
theorem witness_SeventeenthPushOverflows :
    State.reset.stored .stkptr = 0x1F ∧ (List.replicate 16 (1 : Pc)).length = 16 ∧
    (State.reset.stored .pcon).getLsbD 7 = false := by
  decide +kernel

/-- LegacyRules. -/
theorem witness_LegacyRules : 5 ≤ (5 : BitVec 3).toNat ∧ 5 ≤ (7 : BitVec 3).toNat := by decide

/-- MoveIndirectToWRule and MoveIndexedToWRule: a read that faults and one that does not, a pre-mode moving
the pointer first. -/
theorem witness_indirect_reads :
    ((stateWith [(.fsr0h, 0x0F), (.fsr0l, 0xFF)] []).beforeAccess .fsr0 .preInc).indRead
      (accessedAddr .preInc (pointer (stateWith [(.fsr0h, 0x0F), (.fsr0l, 0xFF)] []) .fsr0)) = .error (.addressError 0x1000) ∧
    ((stateWith [(.fsr0h, 0x0F), (.fsr0l, 0xFF)] []).beforeAccess .fsr0 .postInc).indRead
      (accessedAddr .postInc (pointer (stateWith [(.fsr0h, 0x0F), (.fsr0l, 0xFF)] []) .fsr0)) = .ok 0 ∧
    (stateWith [(.fsr0h, 0x0F), (.fsr0l, 0xFF)] []).indRead (BitVec.ofInt 16 ((pointer (stateWith [(.fsr0h, 0x0F), (.fsr0l, 0xFF)] []) .fsr0).toNat + (1 : BitVec 6).toInt)) =
      .error (.addressError 0x1000) ∧
    (stateWith [(.fsr0h, 0x00), (.fsr0l, 0x00)] []).indRead (BitVec.ofInt 16 ((pointer (stateWith [(.fsr0h, 0x00), (.fsr0l, 0x00)] []) .fsr0).toNat + (0x20 : BitVec 6).toInt)) =
      .error (.addressError 0xFFE0) ∧
    (stateWith [(.fsr0h, 0x00), (.fsr0l, 0x20)] []).indRead (BitVec.ofInt 16 ((pointer (stateWith [(.fsr0h, 0x00), (.fsr0l, 0x20)] []) .fsr0).toNat + (0x20 : BitVec 6).toInt)) =
      .ok 0 := by
  decide +kernel

/-- MoveWToIndirectRule and MoveWToIndexedRule: no target, a forbidden one, one that may be written. -/
theorem witness_indirect_targets :
    indTarget (accessedAddr .preInc (pointer (stateWith [(.fsr0h, 0x0F), (.fsr0l, 0xFF)] []) .fsr0)) = .error (.addressError 0x1000) ∧
    indTarget (accessedAddr .postDec (pointer (stateWith [(.fsr0h, 0x0F), (.fsr0l, 0x9E)] []) .fsr0)) = .ok (.cell .tosl) ∧
    indTarget (accessedAddr .preDec (pointer (stateWith [(.fsr0h, 0x20), (.fsr0l, 0x01)] []) .fsr0)) = .ok (.cell (.gpr 0)) ∧
    indTarget (BitVec.ofInt 16 ((pointer (stateWith [(.fsr0h, 0x10), (.fsr0l, 0x00)] []) .fsr0).toNat + (0 : BitVec 6).toInt)) =
      .error (.addressError 0x1000) ∧
    indTarget (BitVec.ofInt 16 ((pointer (stateWith [(.fsr0h, 0x0F), (.fsr0l, 0x9E)] []) .fsr0).toNat + (0x01 : BitVec 6).toInt)) =
      .ok (.cell .tosh) ∧
    indTarget (BitVec.ofInt 16 ((pointer (stateWith [(.fsr0h, 0x10), (.fsr0l, 0x00)] []) .fsr0).toNat + (0x3F : BitVec 6).toInt)) =
      .ok (.cell (.gpr 0x5F)) := by
  decide +kernel

/-- FaultUndoesStep: a running and a sleeping core whose step faults. -/
theorem witness_FaultUndoesStep :
    (∀ e, (stateWith [] [(0, 0x0002)]).mode ≠ .faulted e) ∧
    see (stateWith [] [(0, 0x0002)]) (fun t => t.mode) = some (.faulted (.decodeError 0 0x0002)) ∧
    (∀ e, ((stateWith [(.intcon, 0x24)] []).setMode .asleep).mode ≠ .faulted e) ∧
    see ((stateWith [(.intcon, 0x24)] []).setMode .asleep) (fun t => t.mode) =
      some (.faulted (.interruptNotModelled 0x24)) :=
  ⟨nofun, by decide +kernel, nofun, by decide +kernel⟩

/-- FaultedIsTerminal: a faulted core, a load and a named write that it accepts. -/
theorem witness_FaultedIsTerminal :
    (State.reset.setMode (.faulted (.unloadedProgramWord 0))).mode = .faulted (.unloadedProgramWord 0) ∧
    (∃ u, (State.reset.setMode (.faulted (.unloadedProgramWord 0))).load 0 [0x3405] = .ok u) ∧
    (∃ u, (State.reset.setMode (.faulted (.unloadedProgramWord 0))).namedWrite [("WREG", 9)] "wreg" 7 = .ok u) :=
  ⟨rfl, ⟨_, rfl⟩, ⟨_, rfl⟩⟩

/-- CellAccessBehaviour: an address of each regime that translates. -/
theorem witness_CellAccessBehaviour :
    translateAddr 0x0FEE = .ok .tosl ∧ translateAddr 0x2050 = .ok (.gpr 0x60) := by
  decide +kernel

/-- NopSleepClrwdtRules: a word that is NOP. -/
theorem witness_NopSleepClrwdtRules : decode 0x0000 = .ok .nop := by decide +kernel

/-- InterruptChecks: pending with GIE set and with GIE clear, and nothing pending. -/
theorem witness_InterruptChecks :
    (stateWith [(.intcon, 0xA4)] []).mode = .running ∧
    ((stateWith [(.intcon, 0xA4)] []).stored .intcon).getLsbD 7 = true ∧
    (stateWith [(.intcon, 0xA4)] []).pending = true ∧
    ((stateWith [(.intcon, 0x12)] []).setMode .asleep).mode = .asleep ∧
    ((stateWith [(.intcon, 0x12)] []).setMode .asleep).pending = true ∧
    ((stateWith [(.intcon, 0x11)] []).setMode .asleep).pending = false := by
  decide +kernel

/-- StepKeepsInvariant: the reset state, and one whose step completes an instruction. -/
theorem witness_StepKeepsInvariant :
    (stateWith [(.bsr, 5)] [(0, 0x0000)]).Inv ∧
    see (stateWith [(.bsr, 5)] [(0, 0x0000)]) (fun t => (t.pc, t.mode)) = some (1, .running) :=
  ⟨State.Inv.store ⟨⟨List.Pairwise.nil, by intro e he; cases he⟩,
    ⟨List.pairwise_singleton _ _, fun e he => by rw [List.mem_singleton.1 he]; decide⟩, ⟨rfl, rfl, rfl, rfl⟩⟩
    ⟨fun _ => rfl, nofun⟩, by decide +kernel⟩

/-- CyclesFollowCatalog and FlagsFollowCatalog: a row, and a word of it that completes. -/
theorem witness_catalog_rules :
    fmtInherent "NOP" 0x0000 (.one 1) [] .nop ∈ catalog ∧
    (∃ t, exec ((fmtInherent "NOP" 0x0000 (.one 1) [] .nop).build 0) State.reset = .next t) ∧
    dataTarget State.reset .nop ≠ some (.cell .status) ∧
    FlagName.c ∉ (fmtInherent "NOP" 0x0000 (.one 1) [] .nop).flags ∧
    FlagName.dc ∉ (fmtInherent "NOP" 0x0000 (.one 1) [] .nop).flags ∧
    FlagName.z ∉ (fmtInherent "NOP" 0x0000 (.one 1) [] .nop).flags ∧
    FlagName.nPD ∉ (fmtInherent "NOP" 0x0000 (.one 1) [] .nop).flags ∧
    FlagName.nTO ∉ (fmtInherent "NOP" 0x0000 (.one 1) [] .nop).flags :=
  ⟨List.mem_of_getElem? (i := 44) rfl, ⟨_, rfl⟩, nofun, nofun, nofun, nofun, nofun, nofun⟩

/-- PcChangesOnlyByTransfer, PclathChangesOnlyBy, PrivateStoresKept and ShadowsWrittenOnlyAsData. -/
theorem witness_machine_rules :
    (∃ t, exec (.movwf 0x20) State.reset = .next t) ∧
    dataTarget State.reset (.movwf 0x20) = some (.cell f20) ∧
    (∀ k, Instr.movwf 0x20 ≠ .movlp k) ∧ (∀ k, Instr.movwf 0x20 ≠ .call k) ∧ Instr.movwf 0x20 ≠ .callw ∧
    Instr.movwf 0x20 ≠ .retfie ∧ Instr.movwf 0x20 ≠ .reset ∧ Instr.movwf 0x20 ≠ .sleep ∧
    Cell.wregShad ∈ Cell.shadows :=
  ⟨⟨_, rfl⟩, by decide +kernel, nofun, nofun, nofun, nofun, nofun, nofun, by decide⟩

/-- LoadAllOrNothing: both sides of each limit. -/
theorem witness_LoadAllOrNothing :
    ¬ (2047 + [0x3FFF].length > 2048 ∨ ∃ w ∈ [0x3FFF], 0x3FFF < w) ∧
    (2048 + [0x3FFF].length > 2048 ∨ ∃ w ∈ [0x3FFF], 0x3FFF < w) ∧
    (0 + [0x4000].length > 2048 ∨ ∃ w ∈ [0x4000], 0x3FFF < w) := by
  decide

end Sys2Proof.Tests
end

section
/-! Calls and returns, whole (10_state R66, R67; 46_control R322, R323, R326, R327). -/

namespace Sys2Proof.Machine

open Sys2Proof.Claims Sys2Proof.Laws.EncodingFits

/-- The push of pc that CALL and CALLW share, and the jump after it. -/
theorem State.push_jump_becomes (s : State) (p : Pc) :
    s.Becomes (((s.push s.pc).setPc p).charge 2) (pushCells s) p 2 (pushStack s s.pc) :=
  ((s.push_becomes s.pc).setPc p).charge 2

theorem State.push_stored_of_ne (s : State) (v : Pc) {c : Cell} (h1 : c ≠ .stkptr) (h2 : c ≠ .pcon) :
    (s.push v).stored c = s.stored c :=
  ((s.push_becomes v).cells c).trans (pushCells_of_ne s h1 h2)

/-- The targets of CALL and CALLW are formed after the push, which leaves PCLATH and W alone. -/
theorem State.push_pclath (s : State) (v : Pc) : (s.push v).pclath = s.pclath := by
  rw [State.pclath_eq, State.push_stored_of_ne s v (by decide) (by decide), State.pclath_eq]

theorem State.push_w (s : State) (v : Pc) : (s.push v).w = s.w :=
  State.push_stored_of_ne s v (by decide) (by decide)

/-- The page bits of the target of CALL: PCLATH[6:3] (46_control R322). -/
theorem State.pageTarget_eq (s : State) (k : BitVec 11) :
    s.pageTarget k = (s.stored .pclath).extractLsb' 3 4 ++ k := by
  rw [State.pageTarget, State.pclath_eq, BitVec.extractLsb'_extractLsb'_of_le (by decide)]

theorem execCall_becomes (s : State) (k : BitVec 11) :
    ∃ u, exec (.call k) s = .next u ∧
      s.Becomes u (pushCells s) ((s.stored .pclath).extractLsb' 3 4 ++ k) 2 (pushStack s s.pc) := by
  refine ⟨_, rfl, (s.push_jump_becomes _).congr (fun _ => rfl) ?_ rfl rfl rfl⟩
  rw [State.pageTarget, State.push_pclath, ← State.pageTarget, State.pageTarget_eq]

theorem execCallw_becomes (s : State) :
    ∃ u, exec .callw s = .next u ∧
      s.Becomes u (pushCells s) ((s.stored .pclath).extractLsb' 0 7 ++ s.stored .wreg) 2
        (pushStack s s.pc) := by
  refine ⟨_, rfl, (s.push_jump_becomes _).congr (fun _ => rfl) ?_ rfl rfl rfl⟩
  rw [State.latchTarget, State.push_pclath, State.push_w, State.pclath_eq, State.w_eq]

/-- Settles O30: Push (R66) in the form of `push_becomes`, then the jump. -/
theorem callRules : Obligations.CallRules :=
  ⟨fun s k => ⟨(congrArg decode (or_two 0b100#3 k)).trans ((call k).decodes rfl), execCall_becomes s k⟩,
    fun s => ⟨callw.decodes rfl, execCallw_becomes s⟩⟩

theorem execReturn_becomes (s : State) :
    ∃ u, exec .ret s = .next u ∧ s.Becomes u (popCells s) (popValue s) 2 :=
  ⟨_, rfl, s.popPc_becomes.charge 2⟩

theorem spNat_setW (s : State) (k : Byte) : spNat (s.setW k) = spNat s := by
  rw [spNat, spNat, State.setW_eq, State.store_stored, if_neg (by decide)]

/-- Writing W leaves the stack, so Pop's value too. -/
theorem popValue_setW (s : State) (k : Byte) : popValue (s.setW k) = popValue s := by
  have hstack : (s.setW k).stack = s.stack := rfl
  simp only [popValue, spNat_setW, hstack]

/-- Writing W first changes neither STKPTR nor PCON, so Pop does the same after it. -/
theorem popCells_setW (s : State) (k : Byte) :
    popCells (s.setW k) = Function.update (popCells s) .wreg k := by
  have hcells : (s.setW k).stored = Function.update s.stored .wreg k :=
    funext fun c => by rw [State.setW_eq, State.store_stored, Function.update_apply]
  have hpcon : Cell.wreg ≠ .pcon := by decide
  have hstk : Cell.wreg ≠ .stkptr := by decide
  simp only [popCells, hcells, spNat_setW]
  rw [Function.update_comm hstk.symm]
  split
  · rw [Function.update_of_ne hpcon.symm, Function.update_comm hpcon.symm]
  · rfl

theorem execRetlw_becomes (s : State) (k : Byte) :
    ∃ u, exec (.retlw k) s = .next u ∧
      s.Becomes u (Function.update (popCells s) .wreg k) (popValue s) 2 := by
  have hW := (State.Becomes.refl s).store .wreg k
  exact ⟨_, rfl, ((hW.trans (s.setW k).popPc_becomes).charge 2).congr
    (fun c => by rw [popCells_setW]) (popValue_setW s k) rfl rfl rfl⟩

/-- Settles O32: Pop (R67) in the form of `popPc_becomes`; RETLW writes W before it. -/
theorem returnRules : Obligations.ReturnRules :=
  ⟨fun s => ⟨ret.decodes rfl, execReturn_becomes s⟩,
    fun s k => ⟨(congrArg decode (or_two 0b110100#6 k)).trans ((retlw k).decodes rfl),
      execRetlw_becomes s k⟩⟩

end Sys2Proof.Machine
end

section
/-! Which bits of data memory an instruction may change: said once per instruction (`exec_keepsBut`), from
which the rules about the flags and the shadow registers follow. -/

namespace Sys2Proof.Machine

open Sys2Proof.Claims

/-! ## What an instruction writes by itself -/

/-- The register that takes the result of d = 0 (20_memory R110). -/
def destRegs : Dest → List Cell
  | .w => [.wreg]
  | .f => []

/-- The two bytes of FSRn (10_state R48). -/
def fsrRegs (n : Fsr) : List Cell := [.fsrLow n, .fsrHigh n]

/-- The registers RETFIE takes from the shadow registers, STATUS aside (46_control R328). -/
def restoredRegs : List Cell := [.wreg, .bsr, .pclath, .fsr0l, .fsr0h, .fsr1l, .fsr1h]

/-- The registers an instruction writes as registers and not as its data target, STATUS aside. RESET, which
writes them all, has none here. -/
def ownRegs : Instr → List Cell
  | .addwf d _ | .addwfc d _ | .subwf d _ | .subwfb d _ | .andwf d _ | .iorwf d _ | .xorwf d _
  | .incf d _ | .decf d _ | .incfsz d _ | .decfsz d _ | .rlf d _ | .rrf d _ | .lslf d _ | .lsrf d _
  | .asrf d _ | .movf d _ | .comf d _ | .swapf d _ => destRegs d
  | .addlw _ | .sublw _ | .andlw _ | .iorlw _ | .xorlw _ | .movlw _ | .clrw _ | .moviwk _ _ => [.wreg]
  | .call _ | .callw | .ret => [.stkptr, .pcon]
  | .retlw _ => [.wreg, .stkptr, .pcon]
  | .retfie => .intcon :: .stkptr :: .pcon :: restoredRegs
  | .movlb _ => [.bsr]
  | .movlp _ => [.pclath]
  | .option => [.optionReg]
  | .tris f => [trisCell f]
  | .moviw n _ => .wreg :: fsrRegs n
  | .movwi n _ | .addfsr n _ => fsrRegs n
  | .bcf _ _ | .bsf _ _ | .btfsc _ _ | .btfss _ _ | .movwf _ | .clrf _ | .goto _ | .bra _ | .brw | .nop
  | .reset | .sleep | .clrwdt | .movwik _ _ => []

/-- The flags column of the opcode table, by instruction (10_state R69, 30_encoding R171). -/
def catalogFlags : Instr → List FlagName
  | .addwf _ _ | .addwfc _ _ | .addlw _ | .subwf _ _ | .subwfb _ _ | .sublw _ | .retfie => [.c, .dc, .z]
  | .andwf _ _ | .andlw _ | .iorwf _ _ | .iorlw _ | .xorwf _ _ | .xorlw _ | .incf _ _ | .decf _ _
  | .movf _ _ | .comf _ _ | .clrf _ | .clrw _ | .moviw _ _ | .moviwk _ _ => [.z]
  | .rlf _ _ | .rrf _ _ => [.c]
  | .lslf _ _ | .lsrf _ _ | .asrf _ _ => [.c, .z]
  | .reset => [.c, .dc, .z, .nPD, .nTO]
  | .sleep | .clrwdt => [.nPD, .nTO]
  | _ => []

/-- `catalogFlags` is that column. -/
theorem catalogFlags_build : ∀ e ∈ catalog, ∀ w, catalogFlags (e.build w) = e.flags := by
  rw [← List.forall_iff_forall_mem]
  repeat' apply And.intro
  all_goals exact fun w => rfl

/-- A flag's bit of STATUS (10_state R44). -/
def flagBit : FlagName → Nat
  | .c => 0
  | .dc => 1
  | .z => 2
  | .nPD => 3
  | .nTO => 4

/-- The bits of data memory that instruction `i` may change: all on a RESET, its registers, the flags of its
catalog entry, and its data target, of which a data write keeps nPD and nTO (20_memory R109). -/
def MayChange (s : State) (i : Instr) (c : Cell) (b : Nat) : Prop :=
  i = .reset ∨ c ∈ ownRegs i ∨ (c = .status ∧ ∃ n ∈ catalogFlags i, flagBit n = b) ∨
  (dataTarget s i = some (.cell c) ∧ (c = .status → b ≠ 3 ∧ b ≠ 4))

theorem MayChange.of_reg {s : State} {i : Instr} {c : Cell} (h : c ∈ ownRegs i) (b : Nat) :
    MayChange s i c b := .inr (.inl h)

theorem MayChange.of_flag {s : State} {i : Instr} {n : FlagName} (h : n ∈ catalogFlags i) :
    MayChange s i .status (flagBit n) := .inr (.inr (.inl ⟨rfl, n, h, rfl⟩))

/-! ## Effects that change no other bit -/

/-- Every bit outside `P` has in `m'` the value it has in `m`. -/
def KeepsBut (P : Cell → Nat → Prop) (m m' : Cell → Byte) : Prop :=
  ∀ c b, ¬ P c b → (m' c).getLsbD b = (m c).getLsbD b

section
variable {P : Cell → Nat → Prop} {m m' m'' : Cell → Byte}

theorem KeepsBut.refl (P : Cell → Nat → Prop) (m : Cell → Byte) : KeepsBut P m m := fun _ _ _ => rfl

theorem KeepsBut.trans (h : KeepsBut P m m') (h' : KeepsBut P m' m'') : KeepsBut P m m'' :=
  fun c b hP => (h' c b hP).trans (h c b hP)

/-- A cell takes a byte whose bits differ from the old ones inside `P` only. -/
theorem KeepsBut.update {c : Cell} {v : Byte} (hv : ∀ b, ¬ P c b → v.getLsbD b = (m c).getLsbD b) :
    KeepsBut P m (Function.update m c v) := by
  intro a b hP
  by_cases ha : a = c
  · subst ha
    rw [Function.update_self]
    exact hv b hP
  · rw [Function.update_of_ne ha]

/-- A cell all of whose bits are in `P` takes any byte. -/
theorem KeepsBut.update_all {c : Cell} (hc : ∀ b, P c b) (v : Byte) :
    KeepsBut P m (Function.update m c v) :=
  KeepsBut.update fun b hP => absurd (hc b) hP

theorem KeepsBut.of_becomes {s u : State} {p : Pc} {n : Nat} {st : Vector Pc 16} {mo : Mode}
    (hb : s.Becomes u m p n st mo) (h : KeepsBut P s.stored m) : KeepsBut P s.stored u.stored :=
  fun c b hP => by rw [hb.cells, h c b hP]

end

/-! ## Flags and data writes -/

/-- The flags of a flag write are all among `L`. -/
def FlagWrite.Within (F : FlagWrite) (L : List FlagName) : Prop :=
  (F.c.isSome → .c ∈ L) ∧ (F.dc.isSome → .dc ∈ L) ∧ (F.z.isSome → .z ∈ L)

theorem addC_within (a b : Byte) (cin : Bool) : (addC a b cin).flags.Within [.c, .dc, .z] :=
  ⟨fun _ => by decide, fun _ => by decide, fun _ => by decide⟩
theorem withZ_within (r : Byte) : (withZ r).flags.Within [.z] := ⟨nofun, nofun, fun _ => by decide⟩
theorem plain_within (r : Byte) : (plain r).flags.Within [] := ⟨nofun, nofun, nofun⟩
theorem withC_within (r : Byte) (c : Bool) : (withC r c).flags.Within [.c] :=
  ⟨fun _ => by decide, nofun, nofun⟩
theorem withCZ_within (r : Byte) (c : Bool) : (withCZ r c).flags.Within [.c, .z] :=
  ⟨fun _ => by decide, nofun, fun _ => by decide⟩

theorem flagByte_getLsbD (old : Byte) (c dc z : Bool) (b : Nat) :
    (flagByte old c dc z).getLsbD b =
      if b = 0 then c else if b = 1 then dc else if b = 2 then z else old.getLsbD b := by
  by_cases hb : b < 8
  · interval_cases b <;> (revert old c dc z; decide +kernel)
  · rw [BitVec.getLsbD_of_ge _ _ (by omega), BitVec.getLsbD_of_ge _ _ (by omega)]
    simp only [show b ≠ 0 by omega, show b ≠ 1 by omega, show b ≠ 2 by omega, if_false]

/-- An optional flag write that is outside `P` leaves the flag. -/
theorem getD_of_not {o : Option Bool} {p : Prop} (h : o.isSome → p) (hp : ¬ p) (x : Bool) :
    o.getD x = x := by
  cases o with
  | none => rfl
  | some y => exact absurd (h rfl) hp

/-- A data write of STATUS keeps nPD and nTO (20_memory R109). -/
theorem dataWrite_status_getLsbD (old v : Byte) {b : Nat} (hb : b = 3 ∨ b = 4) :
    (dataWrite .status old v).getLsbD b = old.getLsbD b := by
  have h : dataWrite .status old v = (old &&& 0x18) ||| (v &&& 0x07) := rfl
  rcases hb with rfl | rfl <;> simp [h]

theorem putBit_getLsbD_of_ne (v : Byte) (x : Bool) {i b : Nat} (h : b ≠ i) :
    (putBit v i x).getLsbD b = v.getLsbD b := by
  have hone : (1#8 <<< i).getLsbD b = false := by
    simp only [BitVec.getLsbD_shiftLeft, BitVec.getLsbD_one]
    by_cases hlt : b < i
    · simp [hlt]
    · simp [show b - i ≠ 0 by omega]
  unfold putBit
  split
  · rw [BitVec.getLsbD_or, hone, Bool.or_false]
  · by_cases hb : b < 8
    · rw [BitVec.getLsbD_and, BitVec.getLsbD_not, hone]; simp [hb]
    · rw [BitVec.getLsbD_of_ge _ _ (by omega), BitVec.getLsbD_of_ge _ _ (by omega)]

/-- What an instruction that writes by itself only what it may changes no other bit. -/
abbrev Keeps (s : State) (i : Instr) (m m' : Cell → Byte) : Prop := KeepsBut (MayChange s i) m m'

section
variable {s t : State} {i : Instr} {m : Cell → Byte}

theorem Keeps.reg {c : Cell} (h : c ∈ ownRegs i) (v : Byte) : Keeps s i m (Function.update m c v) :=
  KeepsBut.update_all (MayChange.of_reg h) v

theorem Keeps.flags {F : FlagWrite} (hF : F.Within (catalogFlags i)) : Keeps s i m (flagCells m F) := by
  obtain ⟨hc, hdc, hz⟩ := hF
  refine KeepsBut.update fun b hP => ?_
  have out : ∀ n, flagBit n = b → n ∉ catalogFlags i := fun n hn hmem => hP (hn ▸ MayChange.of_flag hmem)
  rw [flagByte_getLsbD]
  split
  · next h => subst h; exact getD_of_not hc (out .c rfl) _
  split
  · next h => subst h; exact getD_of_not hdc (out .dc rfl) _
  split
  · next h => subst h; exact getD_of_not hz (out .z rfl) _
  · rfl

theorem Keeps.target {r : Target} (h : dataTarget s i = some r) (v : Byte) :
    Keeps s i m (targetCells m r v) := by
  cases r with
  | cell c =>
    refine KeepsBut.update fun b hP => ?_
    have hst : ¬ (c = .status → b ≠ 3 ∧ b ≠ 4) := fun hb => hP (.inr (.inr (.inr ⟨h, hb⟩)))
    obtain ⟨rfl, hb⟩ := Classical.not_imp.1 hst
    exact dataWrite_status_getLsbD _ _ (by omega)
  | null => exact KeepsBut.refl _ _
  | prog a => exact KeepsBut.refl _ _

theorem Keeps.dest {d : Dest} {r : Target} (hw : ∀ c ∈ destRegs d, c ∈ ownRegs i)
    (hf : d = .f → dataTarget s i = some r) (a : AluResult) : Keeps s i s.stored (destCells s d r a) := by
  cases d with
  | w => exact Keeps.reg (hw .wreg (by decide)) _
  | f =>
    rw [destCells, if_neg (by decide)]
    split
    · exact KeepsBut.refl _ _
    · exact Keeps.target (hf rfl) _

theorem Keeps.pointer {n : Fsr} (h : ∀ c ∈ fsrRegs n, c ∈ ownRegs i) (p : Addr) :
    Keeps s i m (pointerCells m n p) :=
  (Keeps.reg (h (.fsrLow n) (by simp [fsrRegs])) _).trans (Keeps.reg (h (.fsrHigh n) (by simp [fsrRegs])) _)

theorem Keeps.before {n : Fsr} (h : ∀ c ∈ fsrRegs n, c ∈ ownRegs i) (mo : PtrMode) :
    Keeps s i s.stored (cellsBefore s n mo) := by
  cases mo with
  | preInc | preDec => exact Keeps.pointer h _
  | postInc | postDec => exact KeepsBut.refl _ _

theorem Keeps.last {n : Fsr} (h : ∀ c ∈ fsrRegs n, c ∈ ownRegs i) (mo : PtrMode) :
    Keeps s i m (cellsLast s n mo m) := by
  cases mo with
  | preInc | preDec => exact KeepsBut.refl _ _
  | postInc | postDec => exact Keeps.pointer h _

theorem Keeps.push (h1 : .stkptr ∈ ownRegs i) (h2 : .pcon ∈ ownRegs i) :
    Keeps s i s.stored (pushCells s) := by
  intro c b hP
  rw [pushCells_of_ne]
  · rintro rfl; exact hP (.of_reg h1 b)
  · rintro rfl; exact hP (.of_reg h2 b)

theorem Keeps.pop (h1 : .stkptr ∈ ownRegs i) (h2 : .pcon ∈ ownRegs i) :
    Keeps s i s.stored (popCells s) := by
  intro c b hP
  rw [popCells_of_ne]
  · rintro rfl; exact hP (.of_reg h1 b)
  · rintro rfl; exact hP (.of_reg h2 b)

/-! ## The shapes of the instructions -/

/-- The result goes to its destination, the flags to STATUS (20_memory R110). -/
theorem Keeps.result {d : Dest} {f : FileReg} {r : Target} {a : AluResult} (hr : s.fileTarget f = .ok r)
    (hw : ∀ c ∈ destRegs d, c ∈ ownRegs i) (hf : d = .f → dataTarget s i = (s.fileTarget f).toOption)
    (hF : a.flags.Within (catalogFlags i)) : Keeps s i s.stored (flagCells (destCells s d r a) a.flags) := by
  have hT : d = .f → dataTarget s i = some r := fun hd => (hf hd).trans (congrArg Except.toOption hr)
  exact (Keeps.dest hw hT a).trans (Keeps.flags hF)

theorem Keeps.fileOp {d : Dest} {f : FileReg} {op : Byte → AluResult} (h : s.fileOp d f op = .next t)
    (hw : ∀ c ∈ destRegs d, c ∈ ownRegs i) (hf : d = .f → dataTarget s i = (s.fileTarget f).toOption)
    (hF : ∀ v, (op v).flags.Within (catalogFlags i)) : Keeps s i s.stored t.stored := by
  obtain ⟨r, v, ho, hb⟩ := State.fileOp_next h
  exact KeepsBut.of_becomes hb (Keeps.result (operand_ok ho).1 hw hf (hF v))

theorem Keeps.fileOpSkip {d : Dest} {f : FileReg} {op : Byte → AluResult}
    (h : s.fileOpSkip d f op = .next t) (hw : ∀ c ∈ destRegs d, c ∈ ownRegs i)
    (hf : d = .f → dataTarget s i = (s.fileTarget f).toOption)
    (hF : ∀ v, (op v).flags.Within (catalogFlags i)) : Keeps s i s.stored t.stored := by
  obtain ⟨r, v, ho, hb⟩ := State.fileOpSkip_next h
  exact KeepsBut.of_becomes hb (Keeps.result (operand_ok ho).1 hw hf (hF v))

theorem Keeps.fileStore {f : FileReg} {a : AluResult} (h : s.fileStore f a = .next t)
    (hf : dataTarget s i = (s.fileTarget f).toOption) (hF : a.flags.Within (catalogFlags i)) :
    Keeps s i s.stored t.stored := by
  obtain ⟨r, hr, hb⟩ := State.fileStore_next h
  have hw : ∀ c ∈ destRegs .f, c ∈ ownRegs i := fun _ hc => absurd hc List.not_mem_nil
  exact KeepsBut.of_becomes hb (Keeps.result hr hw (fun _ => hf) hF)

theorem Keeps.literalOp {a : AluResult} (h : s.literalOp a = .next t) (hw : .wreg ∈ ownRegs i)
    (hF : a.flags.Within (catalogFlags i)) : Keeps s i s.stored t.stored :=
  KeepsBut.of_becomes (State.literalOp_next h) ((Keeps.reg hw _).trans (Keeps.flags hF))

theorem Keeps.bitTest {b : BitVec 3} {f : FileReg} {on : Bool} (h : s.bitTest b f on = .next t) :
    Keeps s i s.stored t.stored := by
  obtain ⟨r, v, -, hb⟩ := State.bitTest_next h
  exact KeepsBut.of_becomes hb (KeepsBut.refl _ _)

theorem Keeps.store {c : Cell} (h : c ∈ ownRegs i) (v : Byte) :
    Keeps s i s.stored (s.store c v).stored :=
  KeepsBut.of_becomes ((State.Becomes.refl s).store c v) (Keeps.reg h v)

theorem Keeps.setFsr {n : Fsr} (h : ∀ c ∈ fsrRegs n, c ∈ ownRegs i) (p : Addr) :
    Keeps s i s.stored (s.setFsr n p).stored :=
  KeepsBut.of_becomes ((State.Becomes.refl s).setFsr n p) (Keeps.pointer h p)

/-- SLEEP and CLRWDT write nPD and nTO alone (47_system R357, R358). -/
theorem Keeps.setPdTo (h3 : .nPD ∈ catalogFlags i) (h4 : .nTO ∈ catalogFlags i) (x y : Bool) :
    Keeps s i s.stored (s.setPdTo x y).stored := by
  refine KeepsBut.of_becomes ((State.Becomes.refl s).store .status _) (KeepsBut.update fun b hP => ?_)
  have b3 : b ≠ 3 := by rintro rfl; exact hP (.of_flag h3)
  have b4 : b ≠ 4 := by rintro rfl; exact hP (.of_flag h4)
  rw [putBit_getLsbD_of_ne _ _ b4, putBit_getLsbD_of_ne _ _ b3]
  rfl

end

/-- C, DC and Z from one byte, the other bits of STATUS from another, as RETFIE has it (46_control R328). -/
theorem restoredStatus_getLsbD (x y : Byte) {b : Nat} (hb : b ≠ 0 ∧ b ≠ 1 ∧ b ≠ 2) :
    ((x &&& 0xF8) ||| (y &&& 0x07)).getLsbD b = x.getLsbD b := by
  by_cases h8 : b < 8
  · interval_cases b <;> simp_all
  · rw [BitVec.getLsbD_of_ge _ _ (by omega), BitVec.getLsbD_of_ge _ _ (by omega)]

/-- The restore from the shadow registers changes the registers it names, and of STATUS C, DC and Z. -/
theorem restoreShadows_keeps (s u : State) : Keeps s .retfie u.stored u.restoreShadows.stored := by
  intro c b hP
  have reg : ∀ a ∈ restoredRegs, c ≠ a := by
    rintro a ha rfl
    exact hP (.of_reg (by simp [ownRegs, ha]) b)
  have hstatus : c = .status → b ≠ 0 ∧ b ≠ 1 ∧ b ≠ 2 := by
    rintro rfl
    refine ⟨?_, ?_, ?_⟩ <;> rintro rfl
    · exact hP (.of_flag (n := .c) (by decide))
    · exact hP (.of_flag (n := .dc) (by decide))
    · exact hP (.of_flag (n := .z) (by decide))
  simp only [restoredRegs, List.forall_mem_cons] at reg
  obtain ⟨h1, h2, h3, h4, h5, h6, h7, -⟩ := reg
  rw [u.restoreShadows_becomes.cells]
  by_cases hc : c = .status
  · subst hc
    exact restoredStatus_getLsbD _ _ (hstatus rfl)
  · simp only [h1, h2, h3, h4, h5, h6, h7, hc, if_false]

theorem execRetfie_keeps {s t : State} (h : execRetfie s = .next t) : Keeps s .retfie s.stored t.stored := by
  cases h
  have pop : Keeps s .retfie s.stored s.popPc.stored :=
    KeepsBut.of_becomes s.popPc_becomes (Keeps.pop (by decide) (by decide))
  have gie : Keeps s .retfie s.popPc.restoreShadows.stored s.popPc.restoreShadows.setGie.stored :=
    KeepsBut.of_becomes (State.Becomes.refl _).setGie (Keeps.reg (by decide) _)
  exact (pop.trans (restoreShadows_keeps s s.popPc)).trans gie

/-- Every bit of data memory outside `MayChange` is kept by an instruction that completes. -/
theorem exec_keepsBut {i : Instr} {s t : State} (h : exec i s = .next t) :
    KeepsBut (MayChange s i) s.stored t.stored := by
  cases i with
  | addwf d f | addwfc d f | subwf d f | subwfb d f =>
    exact Keeps.fileOp h (fun _ => id) (by rintro rfl; rfl) (fun v => addC_within _ _ _)
  | andwf d f | iorwf d f | xorwf d f | incf d f | decf d f | movf d f | comf d f =>
    exact Keeps.fileOp h (fun _ => id) (by rintro rfl; rfl) (fun v => withZ_within _)
  | rlf d f | rrf d f => exact Keeps.fileOp h (fun _ => id) (by rintro rfl; rfl) (fun v => withC_within _ _)
  | lslf d f | lsrf d f | asrf d f =>
    exact Keeps.fileOp h (fun _ => id) (by rintro rfl; rfl) (fun v => withCZ_within _ _)
  | swapf d f => exact Keeps.fileOp h (fun _ => id) (by rintro rfl; rfl) (fun v => plain_within _)
  | bcf b f | bsf b f => exact Keeps.fileOp h (fun _ => id) (fun _ => rfl) (fun v => plain_within _)
  | incfsz d f | decfsz d f =>
    exact Keeps.fileOpSkip h (fun _ => id) (by rintro rfl; rfl) (fun v => plain_within _)
  | btfsc b f | btfss b f => exact Keeps.bitTest h
  | movwf f => exact Keeps.fileStore h rfl (plain_within _)
  | clrf f => exact Keeps.fileStore h rfl (withZ_within _)
  | addlw k | sublw k => exact Keeps.literalOp h (.head _) (addC_within _ _ _)
  | andlw k | iorlw k | xorlw k | clrw k => exact Keeps.literalOp h (.head _) (withZ_within _)
  | movlw k => exact Keeps.literalOp h (.head _) (plain_within _)
  | goto k | bra k => cases h; exact KeepsBut.refl _ _
  | brw | nop => cases h; exact KeepsBut.refl _ _
  | call k =>
    obtain ⟨u, hu, hb⟩ := execCall_becomes s k
    cases hu.symm.trans h
    exact KeepsBut.of_becomes hb (Keeps.push (.head _) (.tail _ (.head _)))
  | callw =>
    obtain ⟨u, hu, hb⟩ := execCallw_becomes s
    cases hu.symm.trans h
    exact KeepsBut.of_becomes hb (Keeps.push (.head _) (.tail _ (.head _)))
  | ret =>
    obtain ⟨u, hu, hb⟩ := execReturn_becomes s
    cases hu.symm.trans h
    exact KeepsBut.of_becomes hb (Keeps.pop (.head _) (.tail _ (.head _)))
  | retlw k =>
    obtain ⟨u, hu, hb⟩ := execRetlw_becomes s k
    cases hu.symm.trans h
    exact KeepsBut.of_becomes hb
      ((Keeps.pop (.tail _ (.head _)) (.tail _ (.tail _ (.head _)))).trans (Keeps.reg (.head _) k))
  | retfie => exact execRetfie_keeps h
  | movlb k | movlp k | tris f => cases h; exact Keeps.store (.head _) _
  | option => cases h; exact Keeps.store (.head _) _
  | reset => exact fun c b hP => absurd (.inl rfl) hP
  | sleep | clrwdt => cases h; exact Keeps.setPdTo (by decide) (by decide) _ _
  | moviw n m =>
    obtain ⟨v, -, hb⟩ := execMoviw_next h
    have fsr : ∀ c ∈ fsrRegs n, c ∈ ownRegs (.moviw n m) := fun c hc => .tail _ hc
    exact KeepsBut.of_becomes hb ((((Keeps.before fsr m).trans (Keeps.reg (.head _) v)).trans
      (Keeps.flags (withZ_within v))).trans (Keeps.last fsr m))
  | moviwk n k =>
    obtain ⟨v, -, hb⟩ := execMoviwk_next h
    exact KeepsBut.of_becomes hb ((Keeps.reg (.head _) v).trans (Keeps.flags (withZ_within v)))
  | movwi n m =>
    obtain ⟨r, hr, -, hb⟩ := execMovwi_next h
    have hT : dataTarget s (.movwi n m) = some r := by simp only [dataTarget, hr, Except.toOption]
    exact KeepsBut.of_becomes hb (((Keeps.before (fun _ => id) m).trans (Keeps.target hT _)).trans
      (Keeps.last (fun _ => id) m))
  | movwik n k =>
    obtain ⟨r, hr, -, hb⟩ := execMovwik_next h
    have hT : dataTarget s (.movwik n k) = some r := congrArg Except.toOption hr
    exact KeepsBut.of_becomes hb (Keeps.target hT _)
  | addfsr n k => cases h; exact Keeps.setFsr (fun _ => id) _

/-! ## The flags and the shadow registers -/

/-- Neither STATUS nor a shadow register is in the list. -/
abbrev Apart (R : List Cell) : Prop := ∀ c ∈ R, c ≠ .status ∧ c ∉ Cell.shadows

theorem destRegs_apart (d : Dest) : Apart (destRegs d) := by cases d <;> decide

theorem fsrRegs_apart (n : Fsr) : Apart (fsrRegs n) := by cases n <;> decide

theorem trisCell_apart (f : BitVec 3) : Apart [trisCell f] := by revert f; decide

theorem ownRegs_apart (i : Instr) : Apart (ownRegs i) := by
  cases i with
  | addwf d f | addwfc d f | subwf d f | subwfb d f | andwf d f | iorwf d f | xorwf d f | incf d f | decf d f
  | incfsz d f | decfsz d f | rlf d f | rrf d f | lslf d f | lsrf d f | asrf d f | movf d f | comf d f
  | swapf d f => exact destRegs_apart d
  | addlw k | sublw k | andlw k | iorlw k | xorlw k | movlw k | clrw k =>
    exact (by decide : Apart [.wreg])
  | moviwk n k => exact (by decide : Apart [.wreg])
  | call k => exact (by decide : Apart [.stkptr, .pcon])
  | retlw k => exact (by decide : Apart [.wreg, .stkptr, .pcon])
  | callw | ret | retfie | option => decide
  | movlb k => exact (by decide : Apart [.bsr])
  | movlp k => exact (by decide : Apart [.pclath])
  | tris f => exact trisCell_apart f
  | moviw n m => exact List.forall_mem_cons.2 ⟨by decide, fsrRegs_apart n⟩
  | movwi n m | addfsr n m => exact fsrRegs_apart n
  | bcf b f | bsf b f | btfsc b f | btfss b f | movwik b f => exact (by decide : Apart [])
  | movwf f | clrf f | goto f | bra f => exact (by decide : Apart [])
  | brw | nop | reset | sleep | clrwdt => decide

/-- A flag outside an instruction's catalog entry keeps its value, unless STATUS is the data target; nPD and
nTO keep theirs even then (10_state R69, 20_memory R109). -/
theorem exec_keeps_flag {i : Instr} {s t : State} (h : exec i s = .next t) {n : FlagName}
    (hn : n ∉ catalogFlags i)
    (hT : dataTarget s i ≠ some (.cell .status) ∨ flagBit n = 3 ∨ flagBit n = 4) :
    flag t (flagBit n) = flag s (flagBit n) := by
  refine exec_keepsBut h .status (flagBit n) ?_
  rintro (rfl | hreg | ⟨-, n', hn', hbit⟩ | ⟨htarget, hbit⟩)
  · cases n <;> exact hn (by decide)
  · exact (ownRegs_apart i _ hreg).1 rfl
  · have : n' = n := by cases n <;> cases n' <;> simp_all [flagBit]
    exact hn (this ▸ hn')
  · have := hbit rfl
    exact hT.elim (fun hne => hne htarget) (by omega)

/-- Settles O55, from `exec_keeps_flag` and the flags column of the catalog. -/
theorem flagsFollowCatalog : Obligations.FlagsFollowCatalog := by
  intro e he w s t h
  rw [← catalogFlags_build e he w]
  exact ⟨fun hT => ⟨fun hn => exec_keeps_flag h hn (.inl hT), fun hn => exec_keeps_flag h hn (.inl hT),
      fun hn => exec_keeps_flag h hn (.inl hT)⟩,
    fun hn => exec_keeps_flag h hn (.inr (.inl rfl)), fun hn => exec_keeps_flag h hn (.inr (.inr rfl))⟩

/-- Settles O59: a shadow register is none that an instruction writes by itself (`ownRegs_apart`), so all its
bits are kept. -/
theorem shadowsWrittenOnlyAsData : Obligations.ShadowsWrittenOnlyAsData := by
  intro i s t c h hreset hc hT
  refine BitVec.eq_of_getLsbD_eq fun b _ => exec_keepsBut h c b ?_
  rintro (rfl | hreg | ⟨rfl, -⟩ | ⟨htarget, -⟩)
  · exact hreset rfl
  · exact (ownRegs_apart i c hreg).2 hc
  · exact absurd hc (by decide)
  · exact hT htarget

end Sys2Proof.Machine
end

section
/-! Data memory as the instructions reach it: the translator and the pointer space by region, the program
window, and the access of a cell (20_memory R101 to R115). -/

namespace Sys2Proof.Machine

open Sys2Proof.Claims

/-! ## The translator, by regime (20_memory R101, R102) -/

theorem translateAddr_traditional {p : Addr} (h : p.toNat ≤ 0x0FFF) :
    translateAddr p = .ok (translateTraditional (p.extractLsb' 0 12)) := if_pos h

/-- The linear regime holds general registers only, so an access there has no register behaviour. -/
theorem translateAddr_linear {p : Addr} (h : 0x2000 ≤ p.toNat ∧ p.toNat ≤ 0x29AF) :
    ∃ i, translateAddr p = .ok (.gpr i) := by
  rw [translateAddr, if_neg (by omega), dif_pos h, translateLinear]
  split
  · exact ⟨_, rfl⟩
  · exact ⟨_, rfl⟩

/-- Locations 0 and 1 of every bank are the INDF cells. -/
theorem translateTraditional_indf {a : BitVec 12} (h : a.toNat % 128 = 0 ∨ a.toNat % 128 = 1) :
    translateTraditional a = .indf0 ∨ translateTraditional a = .indf1 := by
  rw [translateTraditional, dif_pos (by omega)]
  exact h.imp (fun h0 => by simp only [h0]; rfl) (fun h1 => by simp only [h1]; rfl)

/-! ## What a pointer reaches, by region (20_memory R112) -/

theorem indTarget_cell {p : Addr} {c : Cell}
    (h : p.toNat ≤ 0x0FFF ∨ (0x2000 ≤ p.toNat ∧ p.toNat ≤ 0x29AF)) (hc : translateAddr p = .ok c) :
    indTarget p = .ok (.cell c) := by
  rw [indTarget, if_pos h, hc]

theorem indTarget_addressError {p : Addr} (h : 0x1000 ≤ p.toNat ∧ p.toNat ≤ 0x1FFF) :
    indTarget p = .error (.addressError p) := by
  rw [indTarget, if_neg (by omega), if_pos h.2]

theorem indTarget_null {p : Addr} (h : 0x29B0 ≤ p.toNat ∧ p.toNat ≤ 0x7FFF) :
    indTarget p = .ok .null := by
  rw [indTarget, if_neg (by omega), if_neg (by omega), if_pos h.2]

theorem indTarget_prog {p : Addr} (h : 0x8000 ≤ p.toNat) :
    indTarget p = .ok (.prog (p.extractLsb' 0 15)) := by
  rw [indTarget, if_neg (by omega), if_neg (by omega), if_neg (by omega)]

section
variable {p : Addr} {t : Target} {e : Fault}

theorem State.indRead_target (s : State) (h : indTarget p = .ok t) : s.indRead p = s.tRead t := by
  rw [State.indRead, h]

theorem State.indRead_fault (s : State) (h : indTarget p = .error e) : s.indRead p = .error e := by
  rw [State.indRead, h]

theorem State.indWrite_target (s : State) (h : indTarget p = .ok t) (v : Byte) :
    s.indWrite p v = s.tWrite t v := by
  rw [State.indWrite, h]

theorem State.indWrite_fault (s : State) (h : indTarget p = .error e) (v : Byte) :
    s.indWrite p v = .error e := by
  rw [State.indWrite, h]

end

/-! ## The access of a cell (20_memory R108, R109) -/

theorem State.cellRead_indf (s : State) {c : Cell} (h : c = .indf0 ∨ c = .indf1) : s.cellRead c = .ok 0 := by
  rcases h with rfl | rfl <;> rfl

theorem State.cellWrite_indf (s : State) {c : Cell} (h : c = .indf0 ∨ c = .indf1) (v : Byte) :
    s.cellWrite c v = .ok s := by
  rcases h with rfl | rfl <;> rfl

@[simp] theorem State.cellRead_gpr (s : State) (i : Fin 0xA00) :
    s.cellRead (.gpr i) = .ok (s.stored (.gpr i)) := by
  simp [State.cellRead]

@[simp] theorem State.cellWrite_gpr (s : State) (i : Fin 0xA00) (v : Byte) :
    s.cellWrite (.gpr i) v = .ok (s.store (.gpr i) v) := by
  simp [State.cellWrite]

/-- A read of TOSL or TOSH raises the fault (10_state R59). -/
theorem State.cellRead_forbidden (s : State) {c : Cell} (h : c = .tosl ∨ c = .tosh) :
    s.cellRead c = .error (.unmodelledRegister c) := by
  rcases h with rfl | rfl <;> rfl

/-- Bits 7:5 of STATUS read 0 (10_state R44). -/
theorem low_five_eq_and (v : Byte) : (v.extractLsb' 0 5).setWidth 8 = v &&& 0x1F := by
  revert v; decide +kernel

/-- What a read of any other cell gives. -/
theorem State.cellRead_ok (s : State) {c : Cell} (h : ¬ (c = .tosl ∨ c = .tosh)) :
    s.cellRead c = .ok (if c = .pcl then s.pc.extractLsb' 0 8
      else if c = .indf0 ∨ c = .indf1 then 0
      else if c = .status then s.stored c &&& 0x1F
      else s.stored c) := by
  simp only [State.cellRead, h, if_false]
  split
  · rfl
  split
  · rfl
  split
  · next hst => rw [low_five_eq_and, State.status_eq, hst]
  · rfl

theorem State.memRead_cell (s : State) {a : Addr} {c : Cell} (h : translateAddr a = .ok c) :
    s.memRead a = s.cellRead c := by
  rw [State.memRead, h]

theorem State.memWrite_cell (s : State) {a : Addr} {c : Cell} (h : translateAddr a = .ok c) (v : Byte) :
    s.memWrite a v = s.cellWrite c v := by
  rw [State.memWrite, h]

/-- Settles O10: a read by `cellRead_ok`, a write by `cellWrite_becomes`; TOSL and TOSH fault. -/
theorem cellAccessBehaviour : Obligations.CellAccessBehaviour := by
  refine ⟨fun s a c v h => ⟨s.memRead_cell h, s.memWrite_cell h v⟩, fun s c v => ?_⟩
  have hforbidden : forbidden (.cell c) ↔ c = .tosl ∨ c = .tosh := by simp [forbidden]
  split
  · next h => exact ⟨s.cellRead_forbidden h, State.cellWrite_forbidden (hforbidden.2 h)⟩
  · next h => exact ⟨s.cellRead_ok h, s.cellWrite_becomes c v (mt hforbidden.1 h)⟩

/-! ## The program window (20_memory R115) -/

theorem windowAddr_toNat {p : Addr} (h : 0x8000 ≤ p.toNat) :
    (p.extractLsb' 0 15).toNat = p.toNat - 0x8000 := by
  have := p.isLt
  rw [BitVec.extractLsb'_toNat, Nat.shiftRight_zero]
  omega

theorem windowAddr_eq {p : Addr} (h : 0x8000 ≤ p.toNat) :
    p.extractLsb' 0 15 = BitVec.ofNat 15 (p.toNat - 0x8000) := by
  rw [← windowAddr_toNat h, BitVec.ofNat_toNat, BitVec.setWidth_eq]

theorem State.progByte_outside (s : State) {a : BitVec 15} (h : 2048 ≤ a.toNat) :
    s.progByte a = .error (.addressError (BitVec.ofNat 16 (0x8000 + a.toNat))) := if_pos h

section
variable {s : State} {a : BitVec 15} (ha : a.toNat < 2048)
include ha

theorem lowAddr_toNat : (a.extractLsb' 0 11).toNat = a.toNat := by
  rw [BitVec.extractLsb'_toNat, Nat.shiftRight_zero, Nat.mod_eq_of_lt ha]

theorem State.progByte_unloaded (h : Assoc.find s.pmem a.toNat = none) :
    s.progByte a = .error (.unloadedProgramWord (a.extractLsb' 0 11)) := by
  rw [State.progByte, if_neg (by omega), State.pmRead, lowAddr_toNat ha, h]

theorem State.progByte_undecodable {w : Word} {r : DecodeReject} (h : Assoc.find s.pmem a.toNat = some w)
    (hr : decode w = .error r) : s.progByte a = .error (.decodeError (a.extractLsb' 0 11) w) := by
  rw [State.progByte, if_neg (by omega), State.pmRead, lowAddr_toNat ha, h]
  simp only [hr]

theorem State.progByte_decodable {w : Word} {i : Instr} (h : Assoc.find s.pmem a.toNat = some w)
    (hi : decode w = .ok i) : s.progByte a = .ok (w.extractLsb' 0 8) := by
  rw [State.progByte, if_neg (by omega), State.pmRead, lowAddr_toNat ha, h]
  simp only [hi]

end

/-- Settles O9: the read is that of the window at `p - 0x8000`, case by case. -/
theorem programWindowRead : Obligations.ProgramWindowRead := by
  intro s p hp
  have hread : s.indRead p = s.progByte (p.extractLsb' 0 15) := s.indRead_target (indTarget_prog hp)
  have hlow : (p.extractLsb' 0 15).extractLsb' 0 11 = p.extractLsb' 0 11 :=
    BitVec.extractLsb'_extractLsb'_of_le (by decide)
  rw [hread, ← windowAddr_toNat hp]
  split
  · next hout =>
    rw [State.progByte_outside s (by rw [windowAddr_toNat hp]; omega), windowAddr_toNat hp,
      Nat.add_sub_cancel' hp, BitVec.ofNat_toNat, BitVec.setWidth_eq]
  · next hin =>
    have ha : (p.extractLsb' 0 15).toNat < 2048 := by rw [windowAddr_toNat hp]; omega
    rw [← hlow]
    split
    · next hw => exact State.progByte_unloaded ha hw
    · next w hw =>
      exact ⟨fun r hr => State.progByte_undecodable ha hw hr, fun i hi => State.progByte_decodable ha hw hi⟩

/-! ## The pointer space, whole (20_memory R112) -/

/-- Settles O8: per region, what the pointer reaches; the access is then that of the target. -/
theorem indirectSpaceRegions : Obligations.IndirectSpaceRegions := by
  intro s p v
  split
  · next h =>
    have ht := indTarget_cell (.inl h) (translateAddr_traditional h)
    refine ⟨ht, s.indRead_target ht, s.indWrite_target ht v, fun hloc => ?_⟩
    have hindf : translateTraditional (p.extractLsb' 0 12) = .indf0 ∨
        translateTraditional (p.extractLsb' 0 12) = .indf1 := by
      refine translateTraditional_indf ?_
      rw [BitVec.extractLsb'_toNat, Nat.shiftRight_zero]
      omega
    exact ⟨(s.indRead_target ht).trans (s.cellRead_indf hindf),
      (s.indWrite_target ht v).trans (s.cellWrite_indf hindf v)⟩
  split
  · have ht : indTarget p = .error (.addressError p) := indTarget_addressError (by omega)
    exact ⟨ht, s.indRead_fault ht, s.indWrite_fault ht v⟩
  split
  · have hlin : 0x2000 ≤ p.toNat ∧ p.toNat ≤ 0x29AF := by omega
    obtain ⟨i, hi⟩ := translateAddr_linear hlin
    have ht := indTarget_cell (.inr hlin) hi
    exact ⟨_, hi, ht, (s.indRead_target ht).trans (s.cellRead_gpr i),
      (s.indWrite_target ht v).trans (s.cellWrite_gpr i v)⟩
  split
  · have ht : indTarget p = .ok .null := indTarget_null (by omega)
    exact ⟨ht, s.indRead_target ht, s.indWrite_target ht v⟩
  · have hp : 0x8000 ≤ p.toNat := by omega
    have ht := indTarget_prog hp
    rw [← windowAddr_eq hp]
    exact ⟨ht, s.indRead_target ht, s.indWrite_target ht v⟩

end Sys2Proof.Machine
end

section
/-! The encoder by mnemonic and the decoder's view (30_encoding R165, R168, R169): a word carries the field
values that the view reads from it, and the encoder builds exactly that word from them. -/

namespace Sys2Proof

open Sys2Proof.Claims

/-! ## One field in its place (R162, R168) -/

/-- The bits of the word that a field takes. -/
def Field.ones (F : Field) : Word := placeField F (-1)

/-- The field's value in a word. -/
def Field.read (F : Field) (w : Word) : BitVec F.width := w.extractLsb' F.lo F.width

theorem placeField_eq_shiftLeft (F : Field) (n : Int) :
    placeField F n = (BitVec.ofInt F.width n).setWidth 14 <<< F.lo := by
  apply BitVec.eq_of_toNat_eq
  rw [placeField, BitVec.toNat_ofNat, BitVec.toNat_shiftLeft, BitVec.toNat_setWidth, BitVec.toNat_ofInt,
    Nat.shiftLeft_eq, Nat.shiftLeft_eq, Nat.mod_mul_mod]

theorem placeField_getLsbD (F : Field) (n : Int) (i : Nat) :
    (placeField F n).getLsbD i =
      (decide (i < 14 ∧ F.lo ≤ i) && (BitVec.ofInt F.width n).getLsbD (i - F.lo)) := by
  rw [placeField_eq_shiftLeft, BitVec.getLsbD_shiftLeft, BitVec.getLsbD_setWidth]
  grind

theorem Field.ones_getLsbD (F : Field) (i : Nat) :
    F.ones.getLsbD i = decide (i < 14 ∧ F.lo ≤ i ∧ i - F.lo < F.width) := by
  have hones : BitVec.ofInt F.width (-1) = BitVec.allOnes F.width :=
    (BitVec.neg_ofNat_eq_ofInt_neg (x := 1)).symm.trans BitVec.neg_one_eq_allOnes
  rw [Field.ones, placeField_getLsbD, hones, BitVec.getLsbD_allOnes]
  grind

/-- Placing a value touches the field's own bits only. -/
theorem placeField_and_ones (F : Field) (n : Int) : placeField F n &&& F.ones = placeField F n := by
  apply BitVec.eq_of_getLsbD_eq
  intro i hi
  rw [BitVec.getLsbD_and, placeField_getLsbD, Field.ones_getLsbD]
  have := (BitVec.ofInt F.width n).getLsbD_of_ge (i - F.lo)
  grind

theorem placeField_and_eq_zero {F : Field} {m : Word} (h : F.ones &&& m = 0#14) (n : Int) :
    placeField F n &&& m = 0#14 := by
  rw [← placeField_and_ones, BitVec.and_assoc, h, BitVec.and_zero]

/-- Putting a field's own value back gives the word's bits there. -/
theorem placeField_read (F : Field) (w : Word) : placeField F (F.read w).toNat = w &&& F.ones := by
  apply BitVec.eq_of_getLsbD_eq
  intro i hi
  rw [BitVec.getLsbD_and, placeField_getLsbD, Field.ones_getLsbD, BitVec.ofInt_natCast, BitVec.ofNat_toNat,
    BitVec.setWidth_eq, Field.read, BitVec.getLsbD_extractLsb']
  grind

theorem Field.read_and_ones (F : Field) (w : Word) : F.read (w &&& F.ones) = F.read w := by
  apply BitVec.eq_of_getLsbD_eq
  intro i hi
  simp only [Field.read, BitVec.getLsbD_extractLsb', BitVec.getLsbD_and, Field.ones_getLsbD]
  have := w.getLsbD_of_ge (F.lo + i)
  grind

/-- A field reads back what was placed, cut to its width. -/
theorem Field.read_placeField {F : Field} (hF : F.lo + F.width ≤ 14) (n : Int) :
    F.read (placeField F n) = BitVec.ofInt F.width n := by
  apply BitVec.eq_of_getLsbD_eq
  intro i hi
  rw [Field.read, BitVec.getLsbD_extractLsb', placeField_getLsbD]
  grind

/-! ## The encoder over a list of fields (R168) -/

/-- The supplied value of a field; the default 0b11 is that of x (R176). -/
def suppliedValue (v : Fields) (F : Field) : Int := (v.get F.name).getD 0b11

/-- The word that the encoder builds: each field's value put under the bits so far. -/
def placeFields (v : Fields) (fs : List Field) (w : Word) : Word :=
  fs.foldl (fun w F => w ||| placeField F (suppliedValue v F)) w

@[simp] theorem placeFields_cons (v : Fields) (F : Field) (fs : List Field) (w : Word) :
    placeFields v (F :: fs) w = placeFields v fs (w ||| placeField F (suppliedValue v F)) := rfl

theorem suppliedValue_of_get {v : Fields} {F : Field} {n : Int} (h : v.get F.name = some n) :
    suppliedValue v F = n := by
  rw [suppliedValue, h, Option.getD_some]

theorem fieldValue_of_get {v : Fields} {F : Field} {n : Int} (h : v.get F.name = some n) :
    fieldValue v F = .ok n := by
  rw [fieldValue, h]

theorem fieldValue_missing {v : Fields} {F : Field} (h : v.get F.name = none) (hx : F.name ≠ .x) :
    fieldValue v F = .error (.missingField F.name) := by
  rw [fieldValue, h]
  exact if_neg hx

/-- The only rejection of a field is that it is missing. -/
theorem fieldValue_error {v : Fields} {F : Field} {r : EncodeError} (h : fieldValue v F = .error r) :
    r = .missingField F.name := by
  rw [fieldValue] at h
  split at h
  · cases h
  split at h
  · cases h
  · cases h; rfl

theorem encodeFields_of_supplied {v : Fields} {fs : List Field}
    (h : ∀ F ∈ fs, ∃ n, v.get F.name = some n) (w : Word) :
    encodeFields v fs w = .ok (placeFields v fs w) := by
  induction fs generalizing w with
  | nil => rfl
  | cons F fs ih =>
    obtain ⟨⟨n, hn⟩, hfs⟩ := List.forall_mem_cons.1 h
    simp only [encodeFields, fieldValue_of_get hn, placeFields_cons, suppliedValue_of_get hn, ih hfs]

theorem encodeFields_of_missing {v : Fields} {fs : List Field} {F : Field} (hF : F ∈ fs) (hx : F.name ≠ .x)
    (h : v.get F.name = none) (w : Word) :
    ∃ name, encodeFields v fs w = .error (.missingField name) := by
  induction fs generalizing w with
  | nil => cases hF
  | cons G fs ih =>
    cases hG : fieldValue v G with
    | error r => exact ⟨G.name, by rw [encodeFields, hG, fieldValue_error hG]⟩
    | ok n =>
      have hne : F ≠ G := by
        rintro rfl
        rw [fieldValue_missing h hx] at hG
        cases hG
      simp only [encodeFields, hG]
      exact ih (List.mem_of_ne_of_mem hne hF) _

/-- Bits outside all fields stay. -/
theorem placeFields_and {fs : List Field} {m : Word} (h : ∀ F ∈ fs, F.ones &&& m = 0#14) (v : Fields) (w : Word) :
    placeFields v fs w &&& m = w &&& m := by
  induction fs generalizing w with
  | nil => rfl
  | cons F fs ih =>
    obtain ⟨hF, hfs⟩ := List.forall_mem_cons.1 h
    rw [placeFields_cons, ih hfs, BitVec.and_or_distrib_right, placeField_and_eq_zero hF, BitVec.or_zero]

/-- The bits of a field hold that field's value, when no two fields overlap and the bits were clear. -/
theorem placeFields_and_ones {fs : List Field} (hp : fs.Pairwise (fun F G => F.ones &&& G.ones = 0#14)) {w : Word}
    (hw : ∀ F ∈ fs, w &&& F.ones = 0#14) (v : Fields) {F : Field} (hF : F ∈ fs) :
    placeFields v fs w &&& F.ones = placeField F (suppliedValue v F) := by
  induction fs generalizing w with
  | nil => cases hF
  | cons G fs ih =>
    obtain ⟨hG, hp⟩ := List.pairwise_cons.1 hp
    obtain ⟨hwG, hw⟩ := List.forall_mem_cons.1 hw
    rw [placeFields_cons]
    rcases List.mem_cons.1 hF with rfl | hF
    · rw [placeFields_and (fun H hH => (BitVec.and_comm ..).trans (hG H hH)), BitVec.and_or_distrib_right, hwG,
        placeField_and_ones, BitVec.zero_or]
    · refine ih hp (fun H hH => ?_) hF
      rw [BitVec.and_or_distrib_right, hw H hH, placeField_and_eq_zero (hG H hH), BitVec.or_zero]

/-- From the values that a word holds, the encoder gives the word's bits in the fields. -/
theorem placeFields_of_read {v : Fields} {fs : List Field} {w : Word}
    (h : ∀ F ∈ fs, v.get F.name = some ((F.read w).toNat : Int)) (m : Word) :
    placeFields v fs (w &&& m) = w &&& fs.foldl (fun m F => m ||| F.ones) m := by
  induction fs generalizing m with
  | nil => rfl
  | cons F fs ih =>
    obtain ⟨hF, hfs⟩ := List.forall_mem_cons.1 h
    rw [placeFields_cons, suppliedValue_of_get hF, placeField_read, ← BitVec.and_or_distrib_left, ih hfs,
      List.foldl_cons]

/-! ## The decoder's view (R165) -/

theorem Fields.get_set (v : Fields) (name name' : FieldName) (n : Int) :
    (v.set name n).get name' = if name = name' then some n else v.get name' := by
  cases name <;> cases name' <;> rfl

theorem Fields.eq_of_get {u v : Fields} (h : ∀ name, u.get name = v.get name) : u = v := by
  cases u; cases v
  rw [Fields.mk.injEq]
  exact ⟨h .b, h .d, h .f, h .n, h .m, h .k, h .x⟩

/-- The view's fields, read into `v`. -/
def viewFields (w : Word) (fs : List Field) (v : Fields) : Fields :=
  fs.foldl (fun v F => v.set F.name (F.read w).toNat) v

@[simp] theorem viewFields_cons (w : Word) (F : Field) (fs : List Field) (v : Fields) :
    viewFields w (F :: fs) v = viewFields w fs (v.set F.name (F.read w).toNat) := rfl

theorem viewFields_get_of_absent {fs : List Field} {name : FieldName} (h : ∀ F ∈ fs, F.name ≠ name) (w : Word)
    (v : Fields) : (viewFields w fs v).get name = v.get name := by
  induction fs generalizing v with
  | nil => rfl
  | cons F fs ih =>
    obtain ⟨hF, hfs⟩ := List.forall_mem_cons.1 h
    rw [viewFields_cons, ih hfs, Fields.get_set, if_neg hF]

theorem viewFields_get_of_mem {fs : List Field} (hp : fs.Pairwise (fun F G => G.name ≠ F.name)) {F : Field}
    (hF : F ∈ fs) (w : Word) (v : Fields) : (viewFields w fs v).get F.name = some ((F.read w).toNat : Int) := by
  induction fs generalizing v with
  | nil => cases hF
  | cons G fs ih =>
    obtain ⟨hG, hp⟩ := List.pairwise_cons.1 hp
    rw [viewFields_cons]
    rcases List.mem_cons.1 hF with rfl | hF
    · rw [viewFields_get_of_absent hG, Fields.get_set, if_pos rfl]
    · exact ih hp hF _

theorem decodeView_eq_viewFields {e : Template} {w : Word} (he : e ∈ catalog) (hw : e.matches w = true) :
    decodeView w = some (e.mnemonic, viewFields w e.fields {}) := decodeView_of_matches he hw

/-- What has a view is a word that a row matches. -/
theorem decodeView_some {w : Word} {name : String} {v : Fields} (h : decodeView w = some (name, v)) :
    ∃ e ∈ catalog, e.matches w = true ∧ name = e.mnemonic ∧ v = viewFields w e.fields {} := by
  unfold decodeView at h
  split at h
  · next e he =>
    cases h
    obtain ⟨hmem, hw⟩ := List.mem_filter.1 (he ▸ List.mem_singleton.2 rfl : e ∈ catalog.filter (·.matches w))
    exact ⟨e, hmem, hw, rfl, rfl⟩
  · cases h

/-! ## The layout of the catalog's rows (R162, R163, R171) -/

theorem catalog_fields_fit : ∀ e ∈ catalog, ∀ F ∈ e.fields, F.lo + F.width ≤ 14 := by decide +kernel

theorem catalog_fields_named_apart : ∀ e ∈ catalog, e.fields.Pairwise (fun F G => G.name ≠ F.name) := by
  decide +kernel

theorem catalog_fields_apart : ∀ e ∈ catalog, e.fields.Pairwise (fun F G => F.ones &&& G.ones = 0#14) := by
  decide +kernel

theorem catalog_fields_under_mask : ∀ e ∈ catalog, ∀ F ∈ e.fields, F.ones &&& e.mask = 0#14 := by
  decide +kernel

theorem catalog_bits_in_mask : ∀ e ∈ catalog, e.bits &&& e.mask = e.bits := by decide +kernel

/-- Mask and fields together are all of the word. -/
theorem catalog_mask_fields_cover :
    ∀ e ∈ catalog, e.fields.foldl (fun m F => m ||| F.ones) e.mask = BitVec.allOnes 14 := by
  decide +kernel

/-- Only TRIS has a constraint, on its field f (R175). -/
theorem catalog_ok_eq :
    ∀ e ∈ catalog, ∀ w, e.ok w = (e.mnemonic != "TRIS" || decide (5 ≤ (w.extractLsb' 0 3).toNat)) := by
  rw [← List.forall_iff_forall_mem]
  repeat' apply And.intro
  all_goals exact fun w => rfl

theorem catalog_tris_field : ∀ e ∈ catalog, e.mnemonic = "TRIS" → (⟨.f, 2, 0⟩ : Field) ∈ e.fields := by
  decide +kernel

theorem catalog_mnemonics_capital :
    ∀ e ∈ catalog, e.mnemonic.toList.map Char.toUpper = e.mnemonic.toList := by
  decide +kernel

theorem catalog_mnemonics_apart : catalog.Pairwise (fun e e' => e.mnemonic.toList ≠ e'.mnemonic.toList) := by
  decide +kernel

theorem find_mnemonic {l : List Template} (hl : l.Pairwise (fun e e' => e.mnemonic.toList ≠ e'.mnemonic.toList))
    {e : Template} (he : e ∈ l) : l.find? (fun e' => e'.mnemonic.toList == e.mnemonic.toList) = some e := by
  induction l with
  | nil => cases he
  | cons x l ih =>
    obtain ⟨hx, hl⟩ := List.pairwise_cons.1 hl
    rcases List.mem_cons.1 he with rfl | he
    · exact List.find?_cons_of_pos (beq_self_eq_true _)
    · rw [List.find?_cons_of_neg (by simpa using hx e he), ih hl he]

section
variable {e : Template} (he : e ∈ catalog)
include he

/-- Looking a row's mnemonic up gives that row (R168). -/
theorem encodeNamed_of_mem (v : Fields) : encodeNamed e.mnemonic v = encodeFields v e.fields e.bits := by
  rw [encodeNamed, catalog_mnemonics_capital e he, find_mnemonic catalog_mnemonics_apart he]

theorem catalog_bits_clear {F : Field} (hF : F ∈ e.fields) : e.bits &&& F.ones = 0#14 := by
  rw [← catalog_bits_in_mask e he, BitVec.and_assoc, BitVec.and_comm e.mask,
    catalog_fields_under_mask e he F hF, BitVec.and_zero]

end

/-! ## A word and the field values it carries -/

/-- The word has the row's fixed bits, and `v` gives each field of the row the value it has in the word. -/
structure Template.Carries (e : Template) (w : Word) (v : Fields) : Prop where
  opcode : w &&& e.mask = e.bits
  values : ∀ F ∈ e.fields, v.get F.name = some ((F.read w).toNat : Int)

section
variable {e : Template} (he : e ∈ catalog) {w : Word} {v : Fields}
include he

/-- The encoder gives the word that carries the values it is given. -/
theorem Template.Carries.encodeNamed_eq (h : e.Carries w v) : encodeNamed e.mnemonic v = .ok w := by
  have hword : placeFields v e.fields e.bits = w := by
    rw [← h.opcode, placeFields_of_read h.values, catalog_mask_fields_cover e he, BitVec.and_allOnes]
  rw [encodeNamed_of_mem he, encodeFields_of_supplied (fun F hF => ⟨_, h.values F hF⟩), hword]

/-- A word carries what its view reads. -/
theorem Template.carries_viewFields (hw : e.matches w = true) : e.Carries w (viewFields w e.fields {}) :=
  ⟨(Template.matches_iff.1 hw).1, fun _ hF => viewFields_get_of_mem (catalog_fields_named_apart e he) hF w {}⟩

/-- Every legal instantiation is carried by a word: fields in range read back as placed. -/
theorem Template.exists_carries_of_legal (hv : Legal e v) : ∃ w, e.Carries w v := by
  obtain ⟨hrange, -, -⟩ := hv
  refine ⟨placeFields v e.fields e.bits, ?_, fun F hF => ?_⟩
  · rw [placeFields_and (catalog_fields_under_mask e he), catalog_bits_in_mask e he]
  · obtain ⟨n, hn, hlt⟩ := hrange F hF
    rw [← F.read_and_ones, placeFields_and_ones (catalog_fields_apart e he) (fun _ => catalog_bits_clear he) v hF,
      Field.read_placeField (catalog_fields_fit e he F hF), suppliedValue_of_get hn, hn, BitVec.ofInt_natCast,
      BitVec.toNat_ofNat, Nat.mod_eq_of_lt hlt]

/-- The word of a legal instantiation matches its row: for TRIS by the range of f. -/
theorem Template.Carries.matches_of_legal (h : e.Carries w v) (hv : Legal e v) : e.matches w = true := by
  refine Template.matches_iff.2 ⟨h.opcode, ?_⟩
  rw [catalog_ok_eq e he w, Bool.or_eq_true, bne_iff_ne, decide_eq_true_iff]
  refine or_iff_not_imp_left.2 fun hname => ?_
  have htris : e.mnemonic = "TRIS" := not_not.1 hname
  obtain ⟨-, -, hconstraint⟩ := hv
  obtain ⟨n, hn, hle⟩ := hconstraint htris
  have hread : v.f = some ((w.extractLsb' 0 3).toNat : Int) := h.values _ (catalog_tris_field e he htris)
  rw [hread, Option.some_inj] at hn
  omega

/-- Reading the word of a legal instantiation gives the instantiation back, absent fields absent. -/
theorem Template.Carries.viewFields_eq (h : e.Carries w v) (hv : Legal e v) : viewFields w e.fields {} = v := by
  obtain ⟨-, hlacks, -⟩ := hv
  refine Fields.eq_of_get fun name => ?_
  by_cases hname : ∃ F ∈ e.fields, F.name = name
  · obtain ⟨F, hF, rfl⟩ := hname
    rw [viewFields_get_of_mem (catalog_fields_named_apart e he) hF, h.values F hF]
  · have habsent : ∀ F ∈ e.fields, F.name ≠ name := fun F hF heq => hname ⟨F, hF, heq⟩
    rw [viewFields_get_of_absent habsent, hlacks name habsent]
    cases name <;> rfl

end

/-- Settles O3: a legal instantiation is carried by a word, which encoder and view agree on; a missing field
is met by the encoder; a word that decodes carries its own view. -/
theorem namedEncoderRoundTrip : Obligations.NamedEncoderRoundTrip := by
  refine ⟨fun e he v hv => ?_, fun e he v F hF hx hnone => ?_, fun w name v h => ?_⟩
  · obtain ⟨w, hw⟩ := Template.exists_carries_of_legal he hv
    refine ⟨w, hw.encodeNamed_eq he, ?_⟩
    rw [decodeView_eq_viewFields he (hw.matches_of_legal he hv), hw.viewFields_eq he hv]
  · rw [encodeNamed_of_mem he]
    exact encodeFields_of_missing hF hx hnone e.bits
  · obtain ⟨e, he, hw, rfl, rfl⟩ := decodeView_some h
    exact (Template.carries_viewFields he hw).encodeNamed_eq he

end Sys2Proof
end

section
/-! The whole rule of an instruction from the shape of its meaning: of a file instruction that writes a flag
(20_memory R110) and of a literal instruction, each with its encoding (30_encoding R163). -/

namespace Sys2Proof.Machine

open Sys2Proof.Claims Sys2Proof.Laws.EncodingFits

/-! ## The encoding, the fields put under the template's bits -/

/-- A legal instruction of the format byte_fd decodes from its template with d and f in place. -/
theorem decode_fd {i : Instr} (hi : Statement i) (hw : i.wellFormed = true) {op : BitVec 6} {d : Dest}
    {f : FileReg} (he : encode i = op ++ destBit d ++ f) :
    decode ((op ++ 0#1 ++ 0#7) ||| fdBits d f) = .ok i := by
  have hword : (op ++ 0#1 ++ 0#7) ||| fdBits d f = encode i := (or_three op (destBit d) f).trans he.symm
  rw [hword, hi.decodes hw]

/-- A legal instruction with an 8-bit literal decodes from its template with k in place. -/
theorem decode_lit8 {i : Instr} (hi : Statement i) (hw : i.wellFormed = true) {op : BitVec 6} {k : Byte}
    (he : encode i = op ++ k) : decode ((op ++ 0#8) ||| k.setWidth 14) = .ok i := by
  have hword : (op ++ 0#8) ||| k.setWidth 14 = encode i := (or_two op k).trans he.symm
  rw [hword, hi.decodes hw]

/-! ## The effect -/

/-- C, DC and Z after a flag write: a flag that is not written keeps its value (10_state R69). -/
def flagsAfter (s : State) (F : FlagWrite) : Bool × Bool × Bool :=
  (F.c.getD (flag s 0), F.dc.getD (flag s 1), F.z.getD (flag s 2))

section
variable {op : BitVec 6} {alu : State → Byte → AluResult} {res : State → Byte → Byte}
  {write : State → Byte → FlagWrite} {F : State → Byte → Bool × Bool × Bool}
  (halu : ∀ s v, alu s v = ⟨res s v, write s v⟩) (hF : ∀ s v, flagsAfter s (write s v) = F s v)
include halu hF

/-- An instruction whose meaning is `fileOp` has the whole rule: `fileOp_error` and `fileOp_flagged`. -/
theorem flaggedFileRule_of_fileOp {mk : Dest → FileReg → Instr}
    (hdecode : ∀ d f, decode ((op ++ 0#1 ++ 0#7) ||| fdBits d f) = .ok (mk d f))
    (hexec : ∀ d f s, exec (mk d f) s = s.fileOp d f (alu s)) (hany : ∀ s v, (write s v).any = true) :
    FlaggedFileRule (op ++ 0#1 ++ 0#7) mk res F := by
  intro s d f
  refine ⟨hdecode d f, fun e he => (hexec d f s).trans (State.fileOp_error he d (alu s)), fun t v hv => ?_⟩
  have hflags : (alu s v).flags.any = true := by rw [halu, hany]
  obtain ⟨u, hu, hb⟩ := State.fileOp_flagged hv d (alu s) hflags
  rw [halu] at hb
  rw [← hF]
  exact ⟨u, (hexec d f s).trans hu, hb⟩

/-- An instruction whose meaning is `literalOp` has the whole rule, by `literalOp_becomes`. -/
theorem literalRule_of_literalOp {mk : Byte → Instr}
    (hdecode : ∀ k : Byte, decode ((op ++ 0#8) ||| k.setWidth 14) = .ok (mk k))
    (hexec : ∀ k s, exec (mk k) s = s.literalOp (alu s k)) : LiteralRule (op ++ 0#8) mk res F := by
  intro s k
  obtain ⟨u, hu, hb⟩ := s.literalOp_becomes (alu s k)
  rw [halu] at hb
  rw [← hF]
  exact ⟨hdecode k, u, (hexec k s).trans hu, hb⟩

end

end Sys2Proof.Machine
end

section
/-! Add and subtract (40_add_sub R200 to R206): the adder as one equation for a sum and one for a difference,
and the rules of the instructions from them. -/

namespace Sys2Proof.Machine

open Sys2Proof.Claims Sys2Proof.Laws.EncodingFits

/-! ## The adder (R200) -/

/-- A carry is 0 or 1, so it is 1 iff the sum reaches the base. -/
theorem carry_beq_one {n m : Nat} (h : n < 2 * m) : (n / m == 1) = decide (m ≤ n) := by
  have hiff : n / m = 1 ↔ m ≤ n := by
    rw [Nat.div_eq_iff (by omega)]
    omega
  rw [Bool.eq_iff_iff, beq_iff_eq, hiff, decide_eq_true_iff]

theorem addC_value (a b : Byte) (cin : Bool) : (addC a b cin).value = a + b + (if cin then 1 else 0) := by
  apply BitVec.eq_of_toNat_eq
  cases cin <;> simp [addC]

/-- The adder as a sum: C and DC are the carries out of bit 7 and bit 3. -/
theorem addC_eq_add (a b : Byte) (cin : Bool) :
    addC a b cin = ⟨a + b + (if cin then 1 else 0),
      { c := some (decide (256 ≤ a.toNat + b.toNat + cin.toNat)),
        dc := some (decide (16 ≤ a.toNat % 16 + b.toNat % 16 + cin.toNat)),
        z := some (decide (a + b + (if cin then 1 else 0) = 0)) }⟩ := by
  have hcin := cin.toNat_lt
  have hc : ((a.toNat + b.toNat + cin.toNat) / 256 == 1) = _ := carry_beq_one (by omega)
  have hdc : ((a.toNat % 16 + b.toNat % 16 + cin.toNat) / 16 == 1) = _ := carry_beq_one (by omega)
  have hr : BitVec.ofNat 8 ((a.toNat + b.toNat + cin.toNat) % 256) = _ := addC_value a b cin
  rw [addC, hc, hdc, hr]
  rfl

/-- The adder as a difference: C and DC are 1 iff there is no borrow (out of bit 3). -/
theorem addC_not_eq_sub (a b : Byte) (cin : Bool) :
    addC a (~~~b) cin = ⟨a - b - (if cin then 0 else 1),
      { c := some (decide (b.toNat + (if cin then 0 else 1) ≤ a.toNat)),
        dc := some (decide (b.toNat % 16 + (if cin then 0 else 1) ≤ a.toNat % 16)),
        z := some (decide (a - b - (if cin then 0 else 1) = 0)) }⟩ := by
  have hvalue : a + ~~~b + (if cin then 1 else 0) = a - b - (if cin then 0 else 1) := by
    cases cin with
    | false => change a + ~~~b + 0 = a - b - 1; bv_omega
    | true => change a + ~~~b + 1 = a - b - 0; bv_omega
  have hnot : (~~~b).toNat = 255 - b.toNat := BitVec.toNat_not
  have hborrow : (if cin then 0 else 1) = 1 - cin.toNat := by cases cin <;> rfl
  have hcin := cin.toNat_lt
  have hc : 256 ≤ a.toNat + (~~~b).toNat + cin.toNat ↔ b.toNat + (if cin then 0 else 1) ≤ a.toNat := by
    rw [hnot, hborrow]
    omega
  have hdc : 16 ≤ a.toNat % 16 + (~~~b).toNat % 16 + cin.toNat ↔
      b.toNat % 16 + (if cin then 0 else 1) ≤ a.toNat % 16 := by
    rw [hnot, hborrow]
    omega
  simp only [addC_eq_add, hvalue, hc, hdc]

/-- The sum with no carry in. -/
theorem addC_false_eq_add (a b : Byte) :
    addC a b false = ⟨a + b,
      { c := some (decide (256 ≤ a.toNat + b.toNat)),
        dc := some (decide (16 ≤ a.toNat % 16 + b.toNat % 16)),
        z := some (decide (a + b = 0)) }⟩ := by
  simp [addC_eq_add]

/-- The difference with no borrow in. -/
theorem addC_not_true_eq_sub (a b : Byte) :
    addC a (~~~b) true = ⟨a - b,
      { c := some (decide (b ≤ a)),
        dc := some (decide (b.toNat % 16 ≤ a.toNat % 16)),
        z := some (decide (a = b)) }⟩ := by
  have hz : a - b = 0#8 ↔ a = b := sub_eq_zero
  simp [addC_not_eq_sub, BitVec.le_def, hz]

/-- Settles O12: the adder as a sum and as a difference. -/
theorem adderResult : Obligations.AdderResult := by
  intro a b cin
  rw [addC_not_eq_sub, addC_eq_add]
  exact ⟨rfl, rfl, rfl, rfl, rfl, rfl, rfl⟩

/-! ## The instructions (R201 to R206) -/

/-- Settles O13: ADDWF is the adder with no carry in, ADDWFC with the old C. -/
theorem addFileRules : Obligations.AddFileRules :=
  ⟨flaggedFileRule_of_fileOp (op := 0b000111) (fun s v => addC_false_eq_add v (s.stored .wreg)) (fun _ _ => rfl)
      (fun d f => decode_fd (addwf d f) rfl rfl) (fun _ _ _ => rfl) (fun _ _ => rfl),
    flaggedFileRule_of_fileOp (op := 0b111101) (fun s v => addC_eq_add v (s.stored .wreg) (flag s 0)) (fun _ _ => rfl)
      (fun d f => decode_fd (addwfc d f) rfl rfl) (fun _ _ _ => rfl) (fun _ _ => rfl)⟩

/-- Settles O14: SUBWF is the difference with no borrow in, SUBWFB with a borrow when the old C is 0. -/
theorem subtractFileRules : Obligations.SubtractFileRules :=
  ⟨flaggedFileRule_of_fileOp (op := 0b000010) (fun s v => addC_not_true_eq_sub v (s.stored .wreg)) (fun _ _ => rfl)
      (fun d f => decode_fd (subwf d f) rfl rfl) (fun _ _ _ => rfl) (fun _ _ => rfl),
    flaggedFileRule_of_fileOp (op := 0b111011) (fun s v => addC_not_eq_sub v (s.stored .wreg) (flag s 0)) (fun _ _ => rfl)
      (fun d f => decode_fd (subwfb d f) rfl rfl) (fun _ _ _ => rfl) (fun _ _ => rfl)⟩

/-- Settles O15: ADDLW adds to W, SUBLW takes W from the literal, with no carry or borrow in. -/
theorem addSubLiteralRules : Obligations.AddSubLiteralRules :=
  ⟨literalRule_of_literalOp (op := 0b111110) (fun s k => addC_false_eq_add (s.stored .wreg) k) (fun _ _ => rfl)
      (fun k => decode_lit8 (addlw k) rfl rfl) (fun _ _ => rfl),
    literalRule_of_literalOp (op := 0b111100) (fun s k => addC_not_true_eq_sub k (s.stored .wreg)) (fun _ _ => rfl)
      (fun k => decode_lit8 (sublw k) rfl rfl) (fun _ _ => rfl)⟩

end Sys2Proof.Machine
end

section
/-! AND, OR and XOR (41_logic R221 to R226): Z as a condition on the two operands, and the rules of the
instructions from it. -/

namespace Sys2Proof.Machine

open Sys2Proof.Claims Sys2Proof.Laws.EncodingFits

/-- The flags after a result that writes Z only: C and DC are kept, and Z is any condition that says when
the result is 0. -/
theorem flagsAfter_withZ (s : State) {r : Byte} {p : Prop} [Decidable p] (h : r = 0 ↔ p) :
    flagsAfter s (withZ r).flags = (flag s 0, flag s 1, decide p) := by
  have hz : (r == 0) = decide p := by rw [Bool.eq_iff_iff, beq_iff_eq, h, decide_eq_true_iff]
  rw [← hz]
  rfl

/-- Settles O16: an OR is 0 iff both operands are, an XOR iff they are equal. -/
theorem logicFileRules : Obligations.LogicFileRules :=
  ⟨flaggedFileRule_of_fileOp (op := 0b000101) (fun _ _ => rfl)
      (fun s _ => flagsAfter_withZ s Iff.rfl)
      (fun d f => decode_fd (andwf d f) rfl rfl) (fun _ _ _ => rfl) (fun _ _ => rfl),
    flaggedFileRule_of_fileOp (op := 0b000100) (fun _ _ => rfl)
      (fun s _ => flagsAfter_withZ s BitVec.or_eq_zero_iff)
      (fun d f => decode_fd (iorwf d f) rfl rfl) (fun _ _ _ => rfl) (fun _ _ => rfl),
    flaggedFileRule_of_fileOp (op := 0b000110) (fun _ _ => rfl)
      (fun s _ => flagsAfter_withZ s BitVec.xor_eq_zero_iff)
      (fun d f => decode_fd (xorwf d f) rfl rfl) (fun _ _ _ => rfl) (fun _ _ => rfl)⟩

/-- Settles O17: Z by the same conditions as in the file forms, on W and the literal. -/
theorem logicLiteralRules : Obligations.LogicLiteralRules :=
  ⟨literalRule_of_literalOp (op := 0b111001) (fun _ _ => rfl)
      (fun s _ => flagsAfter_withZ s Iff.rfl)
      (fun k => decode_lit8 (andlw k) rfl rfl) (fun _ _ => rfl),
    literalRule_of_literalOp (op := 0b111000) (fun _ _ => rfl)
      (fun s _ => flagsAfter_withZ s BitVec.or_eq_zero_iff)
      (fun k => decode_lit8 (iorlw k) rfl rfl) (fun _ _ => rfl),
    literalRule_of_literalOp (op := 0b111010) (fun _ _ => rfl)
      (fun s _ => flagsAfter_withZ s BitVec.xor_eq_zero_iff)
      (fun k => decode_lit8 (xorlw k) rfl rfl) (fun _ _ => rfl)⟩

end Sys2Proof.Machine
end

section
/-! Increment and decrement (42_incdec R241 to R244): when the result wraps to 0, and the whole rule of an
instruction that skips on a result of 0. -/

namespace Sys2Proof.Machine

open Sys2Proof.Claims Sys2Proof.Laws.EncodingFits

/-- An increment gives 0 only by wrapping. -/
theorem add_one_eq_zero_iff (v : Byte) : v + 1 = 0 ↔ v = 0xFF := add_eq_zero_iff_eq_neg

/-- An instruction whose meaning is `fileOpSkip` has the whole rule: `fileOpSkip_error` and
`fileOpSkip_plain`. -/
theorem skipFileRule_of_fileOpSkip {op : BitVec 6} {mk : Dest → FileReg → Instr} {res : Byte → Byte}
    (hdecode : ∀ d f, decode ((op ++ 0#1 ++ 0#7) ||| fdBits d f) = .ok (mk d f))
    (hexec : ∀ d f s, exec (mk d f) s = s.fileOpSkip d f (fun v => plain (res v))) :
    SkipFileRule (op ++ 0#1 ++ 0#7) mk res := by
  intro s d f
  refine ⟨hdecode d f, fun e he => (hexec d f s).trans (State.fileOpSkip_error he d _), fun t v hv => ?_⟩
  obtain ⟨u, hu, hb⟩ := State.fileOpSkip_plain hv d res
  exact ⟨u, (hexec d f s).trans hu, hb⟩

/-- Settles O18: Z says that an increment wrapped from 0xFF, or that a decrement left 1; C and DC are kept. -/
theorem incrementDecrementRules : Obligations.IncrementDecrementRules :=
  ⟨flaggedFileRule_of_fileOp (op := 0b001010) (fun _ _ => rfl)
      (fun s v => flagsAfter_withZ s (add_one_eq_zero_iff v))
      (fun d f => decode_fd (incf d f) rfl rfl) (fun _ _ _ => rfl) (fun _ _ => rfl),
    flaggedFileRule_of_fileOp (op := 0b000011) (fun _ _ => rfl)
      (fun s _ => flagsAfter_withZ s sub_eq_zero)
      (fun d f => decode_fd (decf d f) rfl rfl) (fun _ _ _ => rfl) (fun _ _ => rfl)⟩

/-- Settles O19: INCFSZ and DECFSZ write the result as it is and skip when it is 0. -/
theorem skipOnZeroRules : Obligations.SkipOnZeroRules :=
  ⟨skipFileRule_of_fileOpSkip (op := 0b001111) (fun d f => decode_fd (incfsz d f) rfl rfl) (fun _ _ _ => rfl),
    skipFileRule_of_fileOpSkip (op := 0b001011) (fun d f => decode_fd (decfsz d f) rfl rfl) (fun _ _ _ => rfl)⟩

end Sys2Proof.Machine
end

section
/-! Rotate and shift (43_rotate_shift R261 to R265): a shift by one as the bits it keeps next to the bit it
fills in, a rotate as a shift with the old C in the freed place, and the rules of the instructions from them. -/

namespace Sys2Proof.Machine

open Sys2Proof.Claims Sys2Proof.Laws.EncodingFits

/-! ## The shifts -/

/-- The low bits with a 0 under them: the shift left. -/
theorem low_append_zero_eq_shiftLeft (v : Byte) : v.extractLsb' 0 7 ++ 0#1 = v <<< 1 :=
  (BitVec.shiftLeft_eq_concat_of_lt (x := v) (n := 1) (by decide)).symm

/-- The high bits with a 0 above them: the logical shift right. -/
theorem zero_append_high_eq_ushiftRight (v : Byte) : 0#1 ++ v.extractLsb' 1 7 = v >>> 1 :=
  (BitVec.ushiftRight_eq_extractLsb'_of_lt (x := v) (n := 1) (by decide)).symm

/-- The high bits with the sign above them: the arithmetic shift right. -/
theorem sign_append_high_eq_sshiftRight (v : Byte) :
    v.extractLsb' 7 1 ++ v.extractLsb' 1 7 = v.sshiftRight 1 := by
  refine BitVec.eq_of_getLsbD_eq fun i hi => ?_
  rw [BitVec.getLsbD_append, BitVec.getLsbD_sshiftRight]
  by_cases hlow : i < 7
  · have hkept : 1 + i < 8 := by omega
    simp [hlow, hkept, hi]
  · obtain rfl : i = 7 := by omega
    simp [BitVec.msb_eq_getLsbD_last]

/-! ## The rotates -/

/-- The low bits with a bit under them: the shift left, and the bit in place 0. -/
theorem low_append_bit_eq_or (v : Byte) (b : Bool) :
    v.extractLsb' 0 7 ++ BitVec.ofBool b = (v <<< 1) ||| (if b then 0x01 else 0) := by
  have hbit : (if b then 0x01 else 0 : Byte) = 0#7 ++ BitVec.ofBool b := by cases b <;> rfl
  rw [hbit, ← low_append_zero_eq_shiftLeft, BitVec.or_append, BitVec.or_zero, BitVec.zero_or]

/-- The high bits with a bit above them: the shift right, and the bit in place 7. -/
theorem bit_append_high_eq_or (v : Byte) (b : Bool) :
    BitVec.ofBool b ++ v.extractLsb' 1 7 = (v >>> 1) ||| (if b then 0x80 else 0) := by
  have hbit : (if b then 0x80 else 0 : Byte) = BitVec.ofBool b ++ 0#7 := by cases b <;> rfl
  rw [hbit, ← zero_append_high_eq_ushiftRight, BitVec.or_append, BitVec.zero_or, BitVec.or_zero]

/-! ## The instructions -/

/-- Settles O20: a rotate writes C only, so DC and Z are kept. -/
theorem rotateRules : Obligations.RotateRules :=
  ⟨flaggedFileRule_of_fileOp (op := 0b001101)
      (fun s v => congrArg (withC · (v.getLsbD 7)) (low_append_bit_eq_or v (flag s 0))) (fun _ _ => rfl)
      (fun d f => decode_fd (rlf d f) rfl rfl) (fun _ _ _ => rfl) (fun _ _ => rfl),
    flaggedFileRule_of_fileOp (op := 0b001100)
      (fun s v => congrArg (withC · (v.getLsbD 0)) (bit_append_high_eq_or v (flag s 0))) (fun _ _ => rfl)
      (fun d f => decode_fd (rrf d f) rfl rfl) (fun _ _ _ => rfl) (fun _ _ => rfl)⟩

/-- Settles O21: a shift writes C and Z, so DC is kept; the old C does not enter the result. -/
theorem shiftRules : Obligations.ShiftRules :=
  ⟨flaggedFileRule_of_fileOp (op := 0b110101)
      (fun _ v => congrArg (withCZ · (v.getLsbD 7)) (low_append_zero_eq_shiftLeft v)) (fun _ _ => rfl)
      (fun d f => decode_fd (lslf d f) rfl rfl) (fun _ _ _ => rfl) (fun _ _ => rfl),
    flaggedFileRule_of_fileOp (op := 0b110110)
      (fun _ v => congrArg (withCZ · (v.getLsbD 0)) (zero_append_high_eq_ushiftRight v)) (fun _ _ => rfl)
      (fun d f => decode_fd (lsrf d f) rfl rfl) (fun _ _ _ => rfl) (fun _ _ => rfl),
    flaggedFileRule_of_fileOp (op := 0b110111)
      (fun _ v => congrArg (withCZ · (v.getLsbD 0)) (sign_append_high_eq_sshiftRight v)) (fun _ _ => rfl)
      (fun d f => decode_fd (asrf d f) rfl rfl) (fun _ _ _ => rfl) (fun _ _ => rfl)⟩

end Sys2Proof.Machine
end

section
/-! Bit operations (44_bit R281 to R284): a bit's value as the remainder of the byte shifted right, and the whole
rule of an instruction that changes a bit of its operand and of one that tests it. -/

namespace Sys2Proof.Machine

open Sys2Proof.Claims Sys2Proof.Laws.EncodingFits

/-! ## The encoding -/

/-- A legal instruction of the format bit_bf decodes from its template with b and f in place. -/
theorem decode_bf {i : Instr} (hi : Statement i) (hw : i.wellFormed = true) {op : BitVec 4} {b : BitVec 3}
    {f : FileReg} (he : encode i = op ++ b ++ f) :
    decode ((op ++ 0#3 ++ 0#7) ||| (b ++ f).setWidth 14) = .ok i := by
  have hword : (op ++ 0#3 ++ 0#7) ||| (b ++ f).setWidth 14 = encode i := (or_three op b f).trans he.symm
  rw [hword, hi.decodes hw]

/-! ## The value of a bit -/

/-- Bit i shifted down to place 0 is what is left modulo 2. -/
theorem ushiftRight_mod_two_eq_iff (v : Byte) (i : Nat) (on : Bool) :
    (v >>> i) % 2 = (if on then 1 else 0) ↔ v.getLsbD i = on := by
  have hbit : ((v >>> i) % 2).toNat = (v.getLsbD i).toNat := by
    rw [BitVec.toNat_umod, BitVec.toNat_ushiftRight, Nat.shiftRight_eq_div_pow]
    exact (Nat.toNat_testBit v.toNat i).symm
  rw [← BitVec.toNat_inj, hbit]
  cases v.getLsbD i <;> cases on <;> decide

/-! ## The effect -/

section
variable {op : BitVec 4} {mk : BitVec 3 → FileReg → Instr}
  (hdecode : ∀ b f, decode ((op ++ 0#3 ++ 0#7) ||| (b ++ f).setWidth 14) = .ok (mk b f))
include hdecode

/-- An instruction whose meaning is `fileOp` back to its operand, with a result that writes no flag, has the
whole rule: `fileOp_error` and `fileOp_plain`. -/
theorem bitChangeRule_of_fileOp {res : Byte → Nat → Byte}
    (hexec : ∀ b f s, exec (mk b f) s = s.fileOp .f f (fun v => plain (res v b.toNat))) :
    BitChangeRule (op ++ 0#3 ++ 0#7) mk res := by
  intro s b f
  refine ⟨hdecode b f, fun e he => (hexec b f s).trans (State.fileOp_error he .f _), fun t v hv => ?_⟩
  obtain ⟨u, hu, hb⟩ := State.fileOp_plain hv .f (res · b.toNat)
  exact ⟨u, (hexec b f s).trans hu, hb⟩

/-- An instruction whose meaning is `bitTest` has the whole rule: `bitTest_error` and `bitTest_becomes`. -/
theorem bitTestRule_of_bitTest {on : Bool} (hexec : ∀ b f s, exec (mk b f) s = s.bitTest b f on) :
    BitTestRule (op ++ 0#3 ++ 0#7) mk on := by
  intro s b f
  refine ⟨hdecode b f, fun e he => (hexec b f s).trans (State.bitTest_error he b on), fun t v hv => ?_⟩
  obtain ⟨u, hu, hb⟩ := State.bitTest_becomes hv b on
  simp only [ushiftRight_mod_two_eq_iff]
  exact ⟨u, (hexec b f s).trans hu, hb⟩

end

/-! ## The instructions -/

/-- Settles O22: BCF and BSF are a plain result written back to the operand, so STATUS as the operand takes the
bit through the data write: R110 protects it only from an instruction that writes a flag. -/
theorem bitChangeRules : Obligations.BitChangeRules :=
  ⟨bitChangeRule_of_fileOp (op := 0b0100) (fun b f => decode_bf (bcf b f) rfl rfl) (fun _ _ _ => rfl),
    bitChangeRule_of_fileOp (op := 0b0101) (fun b f => decode_bf (bsf b f) rfl rfl) (fun _ _ _ => rfl)⟩

/-- Settles O23: BTFSC skips on a clear bit, BTFSS on a set one, and the skip is the second cycle. -/
theorem bitTestRules : Obligations.BitTestRules :=
  ⟨bitTestRule_of_bitTest (op := 0b0110) (fun b f => decode_bf (btfsc b f) rfl rfl) (fun _ _ _ => rfl),
    bitTestRule_of_bitTest (op := 0b0111) (fun b f => decode_bf (btfss b f) rfl rfl) (fun _ _ _ => rfl)⟩

end Sys2Proof.Machine
end

section
/-! Move, complement and swap (45_move R301, R302, R304, R305): when a complement is 0, the swap of nibbles as two
shifts, and the rules of the instructions; MOVWF is a store, so its faults are those of its target alone. -/

namespace Sys2Proof.Machine

open Sys2Proof.Claims Sys2Proof.Laws.EncodingFits

/-- A legal instruction of the format byte_f decodes from its template with f in place. -/
theorem decode_f {i : Instr} (hi : Statement i) (hw : i.wellFormed = true) {op : BitVec 7} {f : FileReg}
    (he : encode i = op ++ f) : decode ((op ++ 0#7) ||| f.setWidth 14) = .ok i := by
  have hword : (op ++ 0#7) ||| f.setWidth 14 = encode i := (or_two op f).trans he.symm
  rw [hword, hi.decodes hw]

theorem not_eq_zero_iff (v : Byte) : ~~~v = 0 ↔ v = 0xFF := BitVec.not_eq_comm

/-- The two nibbles, exchanged: each shifted to the other's place. -/
theorem low_append_high_eq_swap (v : Byte) :
    v.extractLsb' 0 4 ++ v.extractLsb' 4 4 = (v <<< 4) ||| (v >>> 4) := by
  have hleft : v <<< 4 = v.extractLsb' 0 4 ++ 0#4 := BitVec.shiftLeft_eq_concat_of_lt (by decide)
  have hright : v >>> 4 = 0#4 ++ v.extractLsb' 4 4 := BitVec.ushiftRight_eq_extractLsb'_of_lt (by decide)
  rw [hleft, hright, BitVec.or_append, BitVec.or_zero, BitVec.zero_or]

/-- Settles O24: MOVF gives the operand as it is and COMF its complement; both write Z only. -/
theorem moveComplementRules : Obligations.MoveComplementRules :=
  ⟨flaggedFileRule_of_fileOp (op := 0b001000) (fun _ _ => rfl)
      (fun s _ => flagsAfter_withZ s Iff.rfl)
      (fun d f => decode_fd (movf d f) rfl rfl) (fun _ _ _ => rfl) (fun _ _ => rfl),
    flaggedFileRule_of_fileOp (op := 0b001001) (fun _ _ => rfl)
      (fun s v => flagsAfter_withZ s (not_eq_zero_iff v))
      (fun d f => decode_fd (comf d f) rfl rfl) (fun _ _ _ => rfl) (fun _ _ => rfl)⟩

/-- Settles O25: SWAPF is a plain result, so STATUS as the destination takes it through the data write. -/
theorem swapRule : Obligations.SwapRule := by
  intro s d f
  have hexec : exec (.swapf d f) s = s.fileOp d f (fun v => plain ((v <<< 4) ||| (v >>> 4))) := by
    simp only [← low_append_high_eq_swap]
    rfl
  rw [hexec]
  exact ⟨decode_fd (op := 0b001110) (swapf d f) rfl rfl, fun _ he => State.fileOp_error he d _,
    fun _ _ hv => State.fileOp_plain hv d _⟩

/-- Settles O26: the three outcomes of a store of W, by what the operand names: `fileStore_error`,
`fileStore_forbidden` and `fileStore_plain`. -/
theorem moveToFileRule : Obligations.MoveToFileRule := fun s f =>
  ⟨decode_f (op := 0b0000001) (movwf f) rfl rfl, fun _ he => State.fileStore_error he _,
    fun _ hc hforbidden => State.fileStore_forbidden hc hforbidden _,
    fun _ ht hallowed => State.fileStore_plain ht hallowed s.w⟩

end Sys2Proof.Machine
end

section
/-! Jumps, whole: GOTO and the relative branches, which write pc and nothing else (46_control R321, R324, R325). -/

namespace Sys2Proof.Machine

open Sys2Proof.Claims Sys2Proof.Laws.EncodingFits

/-- What the jumps without a push or a pop share: pc is the target and two cycles are charged. -/
theorem State.jump_becomes (s : State) (p : Pc) : s.Becomes ((s.setPc p).charge 2) s.stored p 2 :=
  ((State.Becomes.refl s).setPc p).charge 2

theorem execGoto_becomes (s : State) (k : BitVec 11) :
    ∃ u, exec (.goto k) s = .next u ∧
      s.Becomes u s.stored ((s.stored .pclath).extractLsb' 3 4 ++ k) 2 := by
  refine ⟨_, rfl, ?_⟩
  rw [← State.pageTarget_eq]
  exact s.jump_becomes _

theorem execBra_becomes (s : State) (k : BitVec 9) :
    ∃ u, exec (.bra k) s = .next u ∧ s.Becomes u s.stored (s.pc + k.signExtend 15) 2 :=
  ⟨_, rfl, s.jump_becomes _⟩

theorem execBrw_becomes (s : State) :
    ∃ u, exec .brw s = .next u ∧ s.Becomes u s.stored (s.pc + (s.stored .wreg).setWidth 15) 2 :=
  ⟨_, rfl, s.jump_becomes _⟩

/-- Adding a sign-extended offset is the signed sum of the numbers, modulo 2^n. -/
theorem add_signExtend_eq_ofInt {n m : Nat} (p : BitVec n) (k : BitVec m) :
    p + k.signExtend n = BitVec.ofInt n ((p.toNat : Int) + k.toInt) := by
  rw [BitVec.ofInt_add, BitVec.ofInt_natCast, BitVec.ofNat_toNat, BitVec.setWidth_eq, BitVec.signExtend]

/-- Adding a zero-extended offset is the sum of the numbers, modulo 2^n. -/
theorem add_setWidth_eq_ofNat {n m : Nat} (p : BitVec n) (k : BitVec m) :
    p + k.setWidth n = BitVec.ofNat n (p.toNat + k.toNat) := by
  rw [BitVec.ofNat_add, BitVec.ofNat_toNat, BitVec.setWidth_eq, BitVec.ofNat_toNat]

/-- Settles O29: the jump to the page target of `pageTarget_eq`. -/
theorem gotoRule : Obligations.GotoRule := fun s k =>
  ⟨(congrArg decode (or_two 0b101#3 k)).trans ((goto k).decodes rfl), execGoto_becomes s k⟩

/-- Settles O31: jumps to pc plus an offset, extended to 15 bits, as sums of numbers. -/
theorem relativeBranchRules : Obligations.RelativeBranchRules := by
  refine ⟨fun s k => ⟨(congrArg decode (or_two 0b11001#5 k)).trans ((bra k).decodes rfl), ?_⟩,
    fun s => ⟨brw.decodes rfl, ?_⟩⟩
  · rw [← add_signExtend_eq_ofInt]
    exact execBra_becomes s k
  · rw [← add_setWidth_eq_ofNat]
    exact execBrw_becomes s

end Sys2Proof.Machine
end

section
/-! Where pc and PCLATH change (46_control R320): a data write changes pc only through PCL, and PCLATH is a
register that only MOVLP and RETFIE write by themselves. -/

namespace Sys2Proof.Machine

open Sys2Proof.Claims

/-! ## pc after an instruction whose data target is not PCL -/

/-- pc after an instruction that skips when it is charged two cycles (00_scope R14). -/
def skipPc (s t : State) : Pc := if t.cycles = s.cycles + 2 then s.pc + 1 else s.pc

/-- A skip that comes with the second cycle can be read off the cycles. -/
theorem State.Becomes.pc_eq_skipPc {s t : State} {m : Cell → Byte} {P : Prop} [Decidable P]
    (hb : s.Becomes t m (s.pc + if P then 1 else 0) (if P then 2 else 1)) : t.pc = skipPc s t := by
  rw [skipPc, hb.pc, hb.cycles]
  by_cases hP : P <;> simp [hP]

section
variable {s t : State} {i : Instr} (hT : dataTarget s i ≠ some (.cell .pcl))
include hT

theorem targetPc_of_dataTarget {r : Target} (hr : dataTarget s i = some r) (v : Byte) :
    targetPc s r v = s.pc :=
  if_neg fun hpcl => hT (hr.trans (congrArg some hpcl))

/-- A file instruction's operand is its data target when it is the destination, so the result goes to no PCL. -/
theorem flaggedPc_of_operand {d : Dest} {f : FileReg} {r : Target} {x : Byte}
    (hf : d = .f → dataTarget s i = (s.fileTarget f).toOption) (ho : operand s f = .ok (r, x)) (v : Byte) :
    flaggedPc s d r v = s.pc := by
  cases d with
  | w => rfl
  | f => exact targetPc_of_dataTarget hT ((hf rfl).trans (congrArg Except.toOption (operand_ok ho).1)) v

theorem State.fileOp_pc {d : Dest} {f : FileReg} {op : Byte → AluResult} (h : s.fileOp d f op = .next t)
    (hf : d = .f → dataTarget s i = (s.fileTarget f).toOption) : t.pc = s.pc := by
  obtain ⟨r, v, ho, hb⟩ := State.fileOp_next h
  exact hb.pc.trans (flaggedPc_of_operand hT hf ho _)

theorem State.fileOpSkip_pc {d : Dest} {f : FileReg} {op : Byte → AluResult}
    (h : s.fileOpSkip d f op = .next t)
    (hf : d = .f → dataTarget s i = (s.fileTarget f).toOption) : t.pc = skipPc s t := by
  obtain ⟨r, v, ho, hb⟩ := State.fileOpSkip_next h
  rw [flaggedPc_of_operand hT hf ho] at hb
  exact hb.pc_eq_skipPc

theorem State.fileStore_pc {f : FileReg} {a : AluResult} (h : s.fileStore f a = .next t)
    (hf : dataTarget s i = (s.fileTarget f).toOption) : t.pc = s.pc := by
  obtain ⟨r, hr, hb⟩ := State.fileStore_next h
  exact hb.pc.trans (targetPc_of_dataTarget hT (hf.trans (congrArg Except.toOption hr)) _)

end

theorem State.bitTest_pc {s t : State} {b : BitVec 3} {f : FileReg} {on : Bool}
    (h : s.bitTest b f on = .next t) : t.pc = skipPc s t := by
  obtain ⟨r, v, -, hb⟩ := State.bitTest_next h
  exact hb.pc_eq_skipPc

/-- The target of a control transfer whose effect is known. -/
theorem pc_of_becomes {i : Instr} {s t : State} {m : Cell → Byte} {p : Pc} {n : Nat} {st : Vector Pc 16}
    (hex : ∃ u, exec i s = .next u ∧ s.Becomes u m p n st) (h : exec i s = .next t) : t.pc = p := by
  obtain ⟨u, hu, hb⟩ := hex
  cases hu.symm.trans h
  exact hb.pc

/-- RETFIE pops pc; the restore after it writes data memory only (46_control R328). -/
theorem execRetfie_pc {s t : State} (h : execRetfie s = .next t) : t.pc = popValue s := by
  cases h
  exact (s.popPc.restoreShadows_becomes.setGie.charge 2).pc.trans s.popPc_becomes.pc

/-- Settles O56, by the shape of each instruction's meaning. -/
theorem pcChangesOnlyByTransfer : Obligations.PcChangesOnlyByTransfer := by
  intro i s t h hT
  cases i with
  | goto k => exact pc_of_becomes (execGoto_becomes s k) h
  | call k => exact pc_of_becomes (execCall_becomes s k) h
  | callw => exact pc_of_becomes (execCallw_becomes s) h
  | bra k => exact pc_of_becomes (execBra_becomes s k) h
  | brw => exact pc_of_becomes (execBrw_becomes s) h
  | ret => exact pc_of_becomes (execReturn_becomes s) h
  | retlw k => exact pc_of_becomes (execRetlw_becomes s k) h
  | retfie => exact execRetfie_pc h
  | reset => cases h; rfl
  | incfsz d f | decfsz d f => exact State.fileOpSkip_pc hT h (by rintro rfl; rfl)
  | btfsc b f | btfss b f => exact State.bitTest_pc h
  | addwf d f | addwfc d f | subwf d f | subwfb d f | andwf d f | iorwf d f | xorwf d f | incf d f | decf d f
  | rlf d f | rrf d f | lslf d f | lsrf d f | asrf d f | movf d f | comf d f | swapf d f =>
    exact State.fileOp_pc hT h (by rintro rfl; rfl)
  | bcf b f | bsf b f => exact State.fileOp_pc hT h (fun _ => rfl)
  | movwf f | clrf f => exact State.fileStore_pc hT h rfl
  | addlw k | sublw k | andlw k | iorlw k | xorlw k | movlw k | clrw k => exact (State.literalOp_next h).pc
  | movlb k | movlp k | tris f => cases h; rfl
  | option | nop | sleep | clrwdt => cases h; rfl
  | moviw n m =>
    obtain ⟨v, -, hb⟩ := execMoviw_next h
    exact hb.pc
  | moviwk n k =>
    obtain ⟨v, -, hb⟩ := execMoviwk_next h
    exact hb.pc
  | movwi n m =>
    obtain ⟨r, hr, -, hb⟩ := execMovwi_next h
    exact hb.pc.trans (targetPc_of_dataTarget hT (congrArg Except.toOption hr) _)
  | movwik n k =>
    obtain ⟨r, hr, -, hb⟩ := execMovwik_next h
    exact hb.pc.trans (targetPc_of_dataTarget hT (congrArg Except.toOption hr) _)
  | addfsr n k => cases h; rfl

/-! ## PCLATH -/

theorem pclath_not_mem_destRegs (d : Dest) : .pclath ∉ destRegs d := by cases d <;> decide

theorem pclath_not_mem_fsrRegs (n : Fsr) : .pclath ∉ fsrRegs n := by cases n <;> decide

theorem pclath_ne_trisCell (f : BitVec 3) : .pclath ≠ trisCell f := by revert f; decide

/-- PCLATH is written as a register by MOVLP and by RETFIE's restore only (47_system R352, 46_control R328). -/
theorem eq_movlp_or_retfie_of_pclath_mem {i : Instr} (h : .pclath ∈ ownRegs i) :
    (∃ k, i = .movlp k) ∨ i = .retfie := by
  cases i with
  | movlp k => exact .inl ⟨k, rfl⟩
  | retfie => exact .inr rfl
  | addwf d f | addwfc d f | subwf d f | subwfb d f | andwf d f | iorwf d f | xorwf d f | incf d f | decf d f
  | incfsz d f | decfsz d f | rlf d f | rrf d f | lslf d f | lsrf d f | asrf d f | movf d f | comf d f
  | swapf d f => exact absurd h (pclath_not_mem_destRegs d)
  | moviw n m => exact absurd ((List.mem_cons.1 h).resolve_left (by decide)) (pclath_not_mem_fsrRegs n)
  | movwi n m | addfsr n m => exact absurd h (pclath_not_mem_fsrRegs n)
  | tris f => exact absurd (List.mem_singleton.1 h) (pclath_ne_trisCell f)
  | addlw k | sublw k | andlw k | iorlw k | xorlw k | movlw k | clrw k | call k | retlw k | movlb k =>
    simp [ownRegs] at h
  | moviwk n k => simp [ownRegs] at h
  | callw | ret | option | brw | nop | reset | sleep | clrwdt => simp [ownRegs] at h
  | bcf b f | bsf b f | btfsc b f | btfss b f | movwik b f => simp [ownRegs] at h
  | movwf f | clrf f | goto f | bra f => simp [ownRegs] at h

/-- Settles O57: PCLATH is neither a register that another instruction writes by itself nor STATUS, so all its
bits are kept (`exec_keepsBut`). -/
theorem pclathChangesOnlyBy : Obligations.PclathChangesOnlyBy := by
  intro i s t h hT hmovlp hretfie hreset
  refine BitVec.eq_of_getLsbD_eq fun b _ => exec_keepsBut h .pclath b ?_
  rintro (rfl | hreg | ⟨hstatus, -⟩ | ⟨htarget, -⟩)
  · exact hreset rfl
  · obtain ⟨k, rfl⟩ | rfl := eq_movlp_or_retfie_of_pclath_mem hreg
    · exact hmovlp k rfl
    · exact hretfie rfl
  · exact absurd hstatus (by decide)
  · exact hT htarget

end Sys2Proof.Machine
end

section
/-! Bank, page and system instructions, whole (47_system R351, R352, R355, R357, R358): each writes its register
directly, not through the data write (R350), and only NOP's own word is NOP. -/

namespace Sys2Proof.Machine

open Sys2Proof.Laws.EncodingFits

/-! ## MOVLB and MOVLP -/

/-- A register written directly, in one cycle: the byte is stored as it is and pc is kept, whatever the cell. -/
theorem State.registerWrite_becomes (s : State) (c : Cell) (v : Byte) :
    s.Becomes ((s.store c v).charge 1) (Function.update s.stored c v) s.pc 1 :=
  ((State.Becomes.refl s).store c v).charge 1

theorem execMovlb_becomes (s : State) (k : BitVec 5) :
    ∃ u, exec (.movlb k) s = .next u ∧
      s.Becomes u (Function.update s.stored .bsr (BitVec.ofNat 8 k.toNat)) s.pc 1 := by
  rw [BitVec.ofNat_toNat]
  exact ⟨_, rfl, s.registerWrite_becomes .bsr (k.setWidth 8)⟩

theorem execMovlp_becomes (s : State) (k : BitVec 7) :
    ∃ u, exec (.movlp k) s = .next u ∧
      s.Becomes u (Function.update s.stored .pclath (BitVec.ofNat 8 k.toNat)) s.pc 1 := by
  rw [BitVec.ofNat_toNat]
  exact ⟨_, rfl, s.registerWrite_becomes .pclath (k.setWidth 8)⟩

/-- Settles O36: direct writes of BSR and PCLATH with the literal, extended to a byte. -/
theorem bankPageRules : Obligations.BankPageRules :=
  ⟨fun s k => ⟨(congrArg decode (or_two 0b000000001#9 k)).trans ((movlb k).decodes rfl),
      execMovlb_becomes s k⟩,
    fun s k => ⟨(congrArg decode (or_two 0b1100011#7 k)).trans ((movlp k).decodes rfl),
      execMovlp_becomes s k⟩⟩

/-! ## NOP is one word -/

/-- The row of NOP is the one whose fixed bits are all 0 (30_encoding R171). -/
theorem decide_build_eq_nop : ∀ e ∈ catalog, ∀ w, decide (e.build w = .nop) = (e.bits == 0) := by
  rw [← List.forall_iff_forall_mem]
  repeat' apply And.intro
  all_goals exact fun w => rfl

/-- That row has no field, so it fixes every bit. -/
theorem catalog_mask_of_bits_zero : ∀ e ∈ catalog, e.bits = 0 → e.mask = 0x3FFF := by decide +kernel

theorem eq_zero_of_decode_nop {w : Word} (h : decode w = .ok .nop) : w = 0 := by
  obtain ⟨e, he, hmatch, hbuild⟩ := decode_ok h
  have hbits : e.bits = 0 :=
    eq_of_beq ((decide_build_eq_nop e he w).symm.trans (decide_eq_true hbuild))
  exact (Template.eq_bits_of_full (catalog_mask_of_bits_zero e he hbits) hmatch).trans hbits

/-! ## NOP, SLEEP and CLRWDT -/

theorem execNop_becomes (s : State) :
    ∃ u, exec .nop s = .next u ∧ s.Becomes u s.stored s.pc 1 :=
  ⟨_, rfl, (State.Becomes.refl s).charge 1⟩

/-- nPD cleared and nTO set, bits 3 and 4 of STATUS (10_state R44). -/
theorem clear_nPD_set_nTO_eq (v : Byte) : putBit (putBit v 3 false) 4 true = (v &&& 0xE7) ||| 0x10 := by
  revert v; decide +kernel

/-- nPD and nTO both set. -/
theorem set_nPD_set_nTO_eq (v : Byte) : putBit (putBit v 3 true) 4 true = v ||| 0x18 :=
  BitVec.or_assoc v 0x08 0x10

theorem State.setPdTo_becomes (s : State) (nPD nTO : Bool) :
    s.Becomes (s.setPdTo nPD nTO) (Function.update s.stored .status
      (putBit (putBit (s.stored .status) 3 nPD) 4 nTO)) s.pc 0 :=
  (State.Becomes.refl s).store .status _

theorem execSleep_becomes (s : State) :
    ∃ u, exec .sleep s = .next u ∧
      s.Becomes u (Function.update s.stored .status ((s.stored .status &&& 0xE7) ||| 0x10)) s.pc 1
        s.stack .asleep := by
  rw [← clear_nPD_set_nTO_eq]
  exact ⟨_, rfl, ((s.setPdTo_becomes false true).setMode .asleep).charge 1⟩

theorem execClrwdt_becomes (s : State) :
    ∃ u, exec .clrwdt s = .next u ∧
      s.Becomes u (Function.update s.stored .status (s.stored .status ||| 0x18)) s.pc 1 := by
  rw [← set_nPD_set_nTO_eq]
  exact ⟨_, rfl, (s.setPdTo_becomes true true).charge 1⟩

/-- Settles O38: NOP only counts its cycle, and its row fixes the whole word; SLEEP and CLRWDT write nPD and nTO
(`setPdTo_becomes`). -/
theorem nopSleepClrwdtRules : Obligations.NopSleepClrwdtRules :=
  ⟨fun s => ⟨nop.decodes rfl, execNop_becomes s⟩, fun _ => eq_zero_of_decode_nop,
    fun s => ⟨sleep.decodes rfl, execSleep_becomes s⟩, fun s => ⟨clrwdt.decodes rfl, execClrwdt_becomes s⟩⟩

end Sys2Proof.Machine
end

section
/-! Decode and encode as inverses (30_encoding §2 to §4): a word that matches a row is the row's opcode bits next to
its fields, so the encoder rebuilds it from the instruction those fields make. -/

namespace Sys2Proof

open Sys2Proof.Laws.EncodingFits

/-! ## Every instruction has a row -/

theorem encodingFits (i : Instr) : Statement i := by
  cases i with
  | addwf d f => exact addwf d f
  | addwfc d f => exact addwfc d f
  | addlw k => exact addlw k
  | subwf d f => exact subwf d f
  | subwfb d f => exact subwfb d f
  | sublw k => exact sublw k
  | andwf d f => exact andwf d f
  | andlw k => exact andlw k
  | iorwf d f => exact iorwf d f
  | iorlw k => exact iorlw k
  | xorwf d f => exact xorwf d f
  | xorlw k => exact xorlw k
  | incf d f => exact incf d f
  | decf d f => exact decf d f
  | incfsz d f => exact incfsz d f
  | decfsz d f => exact decfsz d f
  | rlf d f => exact rlf d f
  | rrf d f => exact rrf d f
  | lslf d f => exact lslf d f
  | lsrf d f => exact lsrf d f
  | asrf d f => exact asrf d f
  | bcf b f => exact bcf b f
  | bsf b f => exact bsf b f
  | btfsc b f => exact btfsc b f
  | btfss b f => exact btfss b f
  | movf d f => exact movf d f
  | movwf f => exact movwf f
  | movlw k => exact movlw k
  | comf d f => exact comf d f
  | swapf d f => exact swapf d f
  | clrf f => exact clrf f
  | clrw x => exact clrw x
  | goto k => exact goto k
  | call k => exact call k
  | callw => exact callw
  | bra k => exact bra k
  | brw => exact brw
  | ret => exact ret
  | retlw k => exact retlw k
  | retfie => exact retfie
  | movlb k => exact movlb k
  | movlp k => exact movlp k
  | option => exact option
  | tris f => exact tris f
  | nop => exact nop
  | reset => exact reset
  | sleep => exact sleep
  | clrwdt => exact clrwdt
  | moviw n m => exact moviw n m
  | moviwk n k => exact moviwk n k
  | movwi n m => exact movwi n m
  | movwik n k => exact movwik n k
  | addfsr n k => exact addfsr n k

/-! ## A word as its opcode bits and its fields (R161, R163) -/

/-- A word is the opcode that its masked bits are, over its low field. -/
theorem eq_opcode_append_low {a b : Nat} {w x : BitVec (a + b)} (h : w &&& (BitVec.allOnes a ++ 0#b) = x) :
    w = x.extractLsb' b a ++ w.extractLsb' 0 b := by
  have hop : x.extractLsb' b a = w.extractLsb' b a := by
    rw [← h, ← BitVec.extractLsb'_append_extractLsb' (x := w), mask_two, BitVec.extractLsb'_append_eq_left,
      BitVec.extractLsb'_append_eq_left]
  rw [hop, BitVec.extractLsb'_append_extractLsb']

/-- The same with two fields under the opcode. -/
theorem eq_opcode_append_middle_append_low {a b c : Nat} {w x : BitVec (a + b + c)}
    (h : w &&& (BitVec.allOnes a ++ 0#b ++ 0#c) = x) :
    w = (x.extractLsb' c (a + b)).extractLsb' b a ++ w.extractLsb' c b ++ w.extractLsb' 0 c := by
  have hhigh : w.extractLsb' c (a + b) &&& (BitVec.allOnes a ++ 0#b) = x.extractLsb' c (a + b) := by
    rw [← h, ← BitVec.extractLsb'_append_extractLsb' (x := w), BitVec.and_append,
      BitVec.extractLsb'_append_eq_left, BitVec.extractLsb'_append_eq_left]
  have hmiddle : (w.extractLsb' c (a + b)).extractLsb' 0 b = w.extractLsb' c b := by
    ext i hi
    simp [show i < a + b by omega]
  rw [← hmiddle, ← eq_opcode_append_low hhigh, BitVec.extractLsb'_append_extractLsb']

theorem destBit_destOfBit (x : BitVec 1) : destBit (destOfBit x) = x := by revert x; decide
theorem fsrBit_fsrOfBit (x : BitVec 1) : fsrBit (fsrOfBit x) = x := by revert x; decide
theorem modeBits_modeOfBits (x : BitVec 2) : modeBits (modeOfBits x) = x := by revert x; decide

/-! ## The rows give back the word they match (30_encoding §3) -/

/-- The encoder gives back a word that the row matches, and the instruction made from it is legal. -/
def Template.RoundTrips (e : Template) : Prop :=
  ∀ w, e.matches w = true → encode (e.build w) = w ∧ (e.build w).wellFormed = true


/-! The formats (R163): the encoder puts the opcode, as it stands in the row's bits, before the fields. -/

section
variable {name : String} {bits : Word} {cost : Cost} {flags : List FlagName}

theorem fmtByteFd_roundTrips {mk : Dest → FileReg → Instr}
    (h : ∀ d f, encode (mk d f) = (bits.extractLsb' 7 7).extractLsb' 1 6 ++ destBit d ++ f ∧
      (mk d f).wellFormed = true) :
    (fmtByteFd name bits cost flags mk).RoundTrips := fun w hm => by
  refine ⟨(h _ _).1.trans ?_, (h _ _).2⟩
  rw [destBit_destOfBit]
  exact (eq_opcode_append_middle_append_low (Template.matches_iff.1 hm).1).symm

theorem fmtBitBf_roundTrips {mk : BitVec 3 → FileReg → Instr}
    (h : ∀ b f, encode (mk b f) = (bits.extractLsb' 7 7).extractLsb' 3 4 ++ b ++ f ∧ (mk b f).wellFormed = true) :
    (fmtBitBf name bits cost mk).RoundTrips := fun _ hm =>
  ⟨(h _ _).1.trans (eq_opcode_append_middle_append_low (Template.matches_iff.1 hm).1).symm, (h _ _).2⟩

theorem fmtIndNm_roundTrips {mk : Fsr → PtrMode → Instr}
    (h : ∀ n m, encode (mk n m) = (bits.extractLsb' 2 12).extractLsb' 1 11 ++ fsrBit n ++ modeBits m ∧
      (mk n m).wellFormed = true) :
    (fmtIndNm name bits flags mk).RoundTrips := fun w hm => by
  refine ⟨(h _ _).1.trans ?_, (h _ _).2⟩
  rw [fsrBit_fsrOfBit, modeBits_modeOfBits]
  exact (eq_opcode_append_middle_append_low (Template.matches_iff.1 hm).1).symm

theorem fmtIndNk_roundTrips {mk : Fsr → BitVec 6 → Instr}
    (h : ∀ n k, encode (mk n k) = (bits.extractLsb' 6 8).extractLsb' 1 7 ++ fsrBit n ++ k ∧
      (mk n k).wellFormed = true) :
    (fmtIndNk name bits flags mk).RoundTrips := fun w hm => by
  refine ⟨(h _ _).1.trans ?_, (h _ _).2⟩
  rw [fsrBit_fsrOfBit]
  exact (eq_opcode_append_middle_append_low (Template.matches_iff.1 hm).1).symm

theorem fmtByteF_roundTrips {mk : FileReg → Instr}
    (h : ∀ f, encode (mk f) = bits.extractLsb' 7 7 ++ f ∧ (mk f).wellFormed = true) :
    (fmtByteF name bits flags mk).RoundTrips := fun _ hm =>
  ⟨(h _).1.trans (eq_opcode_append_low (Template.matches_iff.1 hm).1).symm, (h _).2⟩

theorem fmtClrw_roundTrips {mk : BitVec 2 → Instr}
    (h : ∀ x, encode (mk x) = bits.extractLsb' 2 12 ++ x ∧ (mk x).wellFormed = true) :
    (fmtClrw name bits flags mk).RoundTrips := fun _ hm =>
  ⟨(h _).1.trans (eq_opcode_append_low (Template.matches_iff.1 hm).1).symm, (h _).2⟩

theorem fmtLit8_roundTrips {mk : Byte → Instr}
    (h : ∀ k, encode (mk k) = bits.extractLsb' 8 6 ++ k ∧ (mk k).wellFormed = true) :
    (fmtLit8 name bits cost flags mk).RoundTrips := fun _ hm =>
  ⟨(h _).1.trans (eq_opcode_append_low (Template.matches_iff.1 hm).1).symm, (h _).2⟩

theorem fmtLit11_roundTrips {mk : BitVec 11 → Instr}
    (h : ∀ k, encode (mk k) = bits.extractLsb' 11 3 ++ k ∧ (mk k).wellFormed = true) :
    (fmtLit11 name bits mk).RoundTrips := fun _ hm =>
  ⟨(h _).1.trans (eq_opcode_append_low (Template.matches_iff.1 hm).1).symm, (h _).2⟩

theorem fmtRel9_roundTrips {mk : BitVec 9 → Instr}
    (h : ∀ k, encode (mk k) = bits.extractLsb' 9 5 ++ k ∧ (mk k).wellFormed = true) :
    (fmtRel9 name bits mk).RoundTrips := fun _ hm =>
  ⟨(h _).1.trans (eq_opcode_append_low (Template.matches_iff.1 hm).1).symm, (h _).2⟩

theorem fmtLit7_roundTrips {mk : BitVec 7 → Instr}
    (h : ∀ k, encode (mk k) = bits.extractLsb' 7 7 ++ k ∧ (mk k).wellFormed = true) :
    (fmtLit7 name bits mk).RoundTrips := fun _ hm =>
  ⟨(h _).1.trans (eq_opcode_append_low (Template.matches_iff.1 hm).1).symm, (h _).2⟩

theorem fmtLit5_roundTrips {mk : BitVec 5 → Instr}
    (h : ∀ k, encode (mk k) = bits.extractLsb' 5 9 ++ k ∧ (mk k).wellFormed = true) :
    (fmtLit5 name bits mk).RoundTrips := fun _ hm =>
  ⟨(h _).1.trans (eq_opcode_append_low (Template.matches_iff.1 hm).1).symm, (h _).2⟩

/-- The row's constraint is the instruction's legality (R175). -/
theorem fmtTris_roundTrips : (fmtTris "TRIS" 0x0060 .tris).RoundTrips := fun w hm => by
  obtain ⟨hmask, hok⟩ := Template.matches_iff.1 hm
  exact ⟨(eq_opcode_append_low (a := 11) (b := 3) hmask).symm, hok⟩

theorem fmtInherent_roundTrips {i : Instr} (h : encode i = bits ∧ i.wellFormed = true) :
    (fmtInherent name bits cost flags i).RoundTrips := fun _ hm =>
  ⟨h.1.trans (Template.eq_bits_of_full rfl hm).symm, h.2⟩

end

/-! The rows (R171), by family. -/

theorem catalogAddSub_roundTrips : catalogAddSub.Forall Template.RoundTrips :=
  ⟨fmtByteFd_roundTrips fun _ _ => ⟨rfl, rfl⟩,
    fmtByteFd_roundTrips fun _ _ => ⟨rfl, rfl⟩,
    fmtLit8_roundTrips fun _ => ⟨rfl, rfl⟩,
    fmtByteFd_roundTrips fun _ _ => ⟨rfl, rfl⟩,
    fmtByteFd_roundTrips fun _ _ => ⟨rfl, rfl⟩,
    fmtLit8_roundTrips fun _ => ⟨rfl, rfl⟩⟩

theorem catalogLogic_roundTrips : catalogLogic.Forall Template.RoundTrips :=
  ⟨fmtByteFd_roundTrips fun _ _ => ⟨rfl, rfl⟩,
    fmtLit8_roundTrips fun _ => ⟨rfl, rfl⟩,
    fmtByteFd_roundTrips fun _ _ => ⟨rfl, rfl⟩,
    fmtLit8_roundTrips fun _ => ⟨rfl, rfl⟩,
    fmtByteFd_roundTrips fun _ _ => ⟨rfl, rfl⟩,
    fmtLit8_roundTrips fun _ => ⟨rfl, rfl⟩⟩

theorem catalogIncDec_roundTrips : catalogIncDec.Forall Template.RoundTrips :=
  ⟨fmtByteFd_roundTrips fun _ _ => ⟨rfl, rfl⟩,
    fmtByteFd_roundTrips fun _ _ => ⟨rfl, rfl⟩,
    fmtByteFd_roundTrips fun _ _ => ⟨rfl, rfl⟩,
    fmtByteFd_roundTrips fun _ _ => ⟨rfl, rfl⟩⟩

theorem catalogRotateShift_roundTrips : catalogRotateShift.Forall Template.RoundTrips :=
  ⟨fmtByteFd_roundTrips fun _ _ => ⟨rfl, rfl⟩,
    fmtByteFd_roundTrips fun _ _ => ⟨rfl, rfl⟩,
    fmtByteFd_roundTrips fun _ _ => ⟨rfl, rfl⟩,
    fmtByteFd_roundTrips fun _ _ => ⟨rfl, rfl⟩,
    fmtByteFd_roundTrips fun _ _ => ⟨rfl, rfl⟩⟩

theorem catalogBit_roundTrips : catalogBit.Forall Template.RoundTrips :=
  ⟨fmtBitBf_roundTrips fun _ _ => ⟨rfl, rfl⟩,
    fmtBitBf_roundTrips fun _ _ => ⟨rfl, rfl⟩,
    fmtBitBf_roundTrips fun _ _ => ⟨rfl, rfl⟩,
    fmtBitBf_roundTrips fun _ _ => ⟨rfl, rfl⟩⟩

theorem catalogMove_roundTrips : catalogMove.Forall Template.RoundTrips :=
  ⟨fmtByteFd_roundTrips fun _ _ => ⟨rfl, rfl⟩,
    fmtByteF_roundTrips fun _ => ⟨rfl, rfl⟩,
    fmtLit8_roundTrips fun _ => ⟨rfl, rfl⟩,
    fmtByteFd_roundTrips fun _ _ => ⟨rfl, rfl⟩,
    fmtByteFd_roundTrips fun _ _ => ⟨rfl, rfl⟩,
    fmtByteF_roundTrips fun _ => ⟨rfl, rfl⟩,
    fmtClrw_roundTrips fun _ => ⟨rfl, rfl⟩⟩

theorem catalogControl_roundTrips : catalogControl.Forall Template.RoundTrips :=
  ⟨fmtLit11_roundTrips fun _ => ⟨rfl, rfl⟩,
    fmtLit11_roundTrips fun _ => ⟨rfl, rfl⟩,
    fmtInherent_roundTrips ⟨rfl, rfl⟩,
    fmtRel9_roundTrips fun _ => ⟨rfl, rfl⟩,
    fmtInherent_roundTrips ⟨rfl, rfl⟩,
    fmtInherent_roundTrips ⟨rfl, rfl⟩,
    fmtLit8_roundTrips fun _ => ⟨rfl, rfl⟩,
    fmtInherent_roundTrips ⟨rfl, rfl⟩⟩

theorem catalogSystem_roundTrips : catalogSystem.Forall Template.RoundTrips :=
  ⟨fmtLit5_roundTrips fun _ => ⟨rfl, rfl⟩,
    fmtLit7_roundTrips fun _ => ⟨rfl, rfl⟩,
    fmtInherent_roundTrips ⟨rfl, rfl⟩,
    fmtTris_roundTrips,
    fmtInherent_roundTrips ⟨rfl, rfl⟩,
    fmtInherent_roundTrips ⟨rfl, rfl⟩,
    fmtInherent_roundTrips ⟨rfl, rfl⟩,
    fmtInherent_roundTrips ⟨rfl, rfl⟩⟩

theorem catalogIndirect_roundTrips : catalogIndirect.Forall Template.RoundTrips :=
  ⟨fmtIndNm_roundTrips fun _ _ => ⟨rfl, rfl⟩,
    fmtIndNk_roundTrips fun _ _ => ⟨rfl, rfl⟩,
    fmtIndNm_roundTrips fun _ _ => ⟨rfl, rfl⟩,
    fmtIndNk_roundTrips fun _ _ => ⟨rfl, rfl⟩,
    fmtIndNk_roundTrips fun _ _ => ⟨rfl, rfl⟩⟩

theorem catalog_roundTrips : ∀ e ∈ catalog, e.RoundTrips := by
  simp only [catalog, List.forall_mem_append, ← List.forall_iff_forall_mem]
  exact ⟨⟨⟨⟨⟨⟨⟨⟨catalogAddSub_roundTrips, catalogLogic_roundTrips⟩, catalogIncDec_roundTrips⟩,
    catalogRotateShift_roundTrips⟩, catalogBit_roundTrips⟩, catalogMove_roundTrips⟩, catalogControl_roundTrips⟩,
    catalogSystem_roundTrips⟩, catalogIndirect_roundTrips⟩

/-- Settles O2: a legal instruction's word matches its row (`encodingFits`), and a row rebuilds the word that it
matches (`catalog_roundTrips`). -/
theorem decodeEncodeInverse : Obligations.DecodeEncodeInverse := by
  refine ⟨fun i hw => (encodingFits i).decodes hw, fun w i h => ?_⟩
  obtain ⟨e, he, hm, rfl⟩ := decode_ok h
  exact catalog_roundTrips e he w hm

/-! ## One row at most (30_encoding §2) -/

/-- Settles O5: no two rows overlap, so the rows that match are none or one (`filter_eq_singleton`). -/
theorem oneTemplateMatches : Obligations.OneTemplateMatches := by
  refine fun w => ⟨?_, fun i => ⟨decode_ok, ?_⟩⟩
  · cases hrows : catalog.filter (·.matches w) with
    | nil => exact Nat.zero_le 1
    | cons e rest =>
      obtain ⟨he, hm⟩ := List.mem_filter.1 (hrows ▸ List.mem_cons_self : e ∈ catalog.filter (·.matches w))
      rw [← hrows, filter_eq_singleton catalog_apart he hm]
      exact Nat.le_refl 1
  · rintro ⟨e, he, hm, rfl⟩
    exact decode_of_matches he hm

/-- Settles O1: each word is evaluated against the catalog. -/
theorem sampleWordsDecode : Obligations.SampleWordsDecode := by
  unfold Obligations.SampleWordsDecode
  decide +kernel

end Sys2Proof
end

section
/-! CLRF, MOVLW, CLRW, RETFIE, OPTION, TRIS and ADDFSR, whole (45_move R303, R306, R307; 46_control R328; 47_system
R353, R354; 48_indirect R385). -/

namespace Sys2Proof.Machine

open Sys2Proof.Claims Sys2Proof.Laws.EncodingFits

/-! ## CLRF, MOVLW and CLRW -/

/-- Settles O27: the three outcomes of a store of 0 that writes Z, by what the operand names. -/
theorem clearFileRule : Obligations.ClearFileRule := fun _ f =>
  ⟨decode_f (op := 0b0000011) (clrf f) rfl rfl, fun _ he => State.fileStore_error he _,
    fun _ hc hforbidden => State.fileStore_forbidden hc hforbidden _,
    fun _ ht hallowed => State.fileStore_flagged ht hallowed (withZ 0) rfl⟩

theorem execMovlw_becomes (s : State) (k : Byte) :
    ∃ u, exec (.movlw k) s = .next u ∧ s.Becomes u (Function.update s.stored .wreg k) s.pc 1 :=
  ⟨_, rfl, s.registerWrite_becomes .wreg k⟩

theorem execClrw_becomes (s : State) (x : BitVec 2) :
    ∃ u, exec (.clrw x) s = .next u ∧
      s.Becomes u (withFlags (Function.update s.stored .wreg 0) (flag s 0, flag s 1, true)) s.pc 1 :=
  s.literalOp_becomes (withZ 0)

/-- Settles O28: MOVLW writes W and no flag; CLRW is a literal result of 0, the same for each value of x. -/
theorem moveLiteralClearRules : Obligations.MoveLiteralClearRules :=
  ⟨fun s k => ⟨decode_lit8 (op := 0b110000) (movlw k) rfl rfl, execMovlw_becomes s k⟩,
    fun s x => ⟨(congrArg decode (or_two 0b000001000000#12 x)).trans ((clrw x).decodes rfl),
      execClrw_becomes s x⟩⟩

/-! ## RETFIE -/

/-- No register that RETFIE reads is one that its Pop writes (`popCells_of_ne`). -/
theorem execRetfie_becomes (s : State) :
    ∃ u, exec .retfie s = .next u ∧ s.Becomes u (retfieCells s) (popValue s) 2 := by
  have hrestore := s.popPc_becomes.trans s.popPc.restoreShadows_becomes
  refine ⟨_, rfl, (hrestore.setGie.charge 2).congr (fun c => ?_) s.popPc_becomes.pc rfl rfl rfl⟩
  by_cases hc : c = .intcon
  · subst hc
    simp (disch := decide) [retfieCells, s.popPc_becomes.cells, popCells_of_ne]
  · simp (disch := decide) only [Function.update_of_ne hc, retfieCells, hc, if_false, s.popPc_becomes.cells,
      popCells_of_ne]

/-- Settles O33: Pop, the restore from the shadow registers and GIE, one after the other. -/
theorem retfieRule : Obligations.RetfieRule := fun s => ⟨retfie.decodes rfl, execRetfie_becomes s⟩

/-! ## OPTION and TRIS -/

theorem execOption_becomes (s : State) :
    ∃ u, exec .option s = .next u ∧
      s.Becomes u (Function.update s.stored .optionReg (s.stored .wreg)) s.pc 1 :=
  ⟨_, rfl, s.registerWrite_becomes .optionReg _⟩

theorem execTris_becomes (s : State) (f : BitVec 3) :
    ∃ u, exec (.tris f) s = .next u ∧
      s.Becomes u (Function.update s.stored (trisCell f) (s.stored .wreg)) s.pc 1 :=
  ⟨_, rfl, s.registerWrite_becomes (trisCell f) _⟩

/-- The registers that the f of a legal TRIS selects (47_system R354, D14). -/
theorem trisCell_eq {f : BitVec 3} (h : 5 ≤ f.toNat) :
    trisCell f = if f = 5 then .trisa else if f = 6 then .trisb else .trisc := by
  revert f; decide

/-- Settles O37: OPTION and TRIS write W into the register directly. -/
theorem legacyRules : Obligations.LegacyRules := by
  refine ⟨fun s => ⟨option.decodes rfl, execOption_becomes s⟩, fun s f hf => ?_⟩
  rw [← trisCell_eq hf]
  exact ⟨(congrArg decode (or_two 0b00000001100#11 f)).trans ((tris f).decodes (decide_eq_true hf)),
    execTris_becomes s f⟩

/-! ## ADDFSR -/

/-- A legal instruction of the format ind_nk decodes from its template with n and k in place. -/
theorem decode_nk {i : Instr} (hi : Statement i) (hw : i.wellFormed = true) {op : BitVec 7} {n : Fsr}
    {k : BitVec 6} (he : encode i = op ++ fsrBit n ++ k) :
    decode ((op ++ 0#1 ++ 0#6) ||| (fsrBit n ++ k).setWidth 14) = .ok i := by
  have hword : (op ++ 0#1 ++ 0#6) ||| (fsrBit n ++ k).setWidth 14 = encode i :=
    (or_three op (fsrBit n) k).trans he.symm
  rw [hword, hi.decodes hw]

/-- The address of an indexed access, as the signed sum modulo 2^16 (48_indirect R382). -/
theorem State.indexed_eq_ofInt (s : State) (n : Fsr) (k : BitVec 6) :
    s.indexed n k = BitVec.ofInt 16 ((pointer s n).toNat + k.toInt) :=
  add_signExtend_eq_ofInt (pointer s n) k

theorem execAddfsr_becomes (s : State) (n : Fsr) (k : BitVec 6) :
    ∃ u, exec (.addfsr n k) s = .next u ∧
      s.Becomes u (pointerCells s.stored n (BitVec.ofInt 16 ((pointer s n).toNat + k.toInt))) s.pc 1 := by
  rw [← State.indexed_eq_ofInt]
  exact ⟨_, rfl, ((State.Becomes.refl s).setFsr n _).charge 1⟩

/-- Settles O44: FSRn takes the indexed address. -/
theorem addFsrRule : Obligations.AddFsrRule := fun s n k =>
  ⟨decode_nk (op := 0b1100010) (addfsr n k) rfl rfl, execAddfsr_becomes s n k⟩

end Sys2Proof.Machine
end

section
/-! What an instruction that completes costs and leaves of the stores outside data memory (70_reset_and_hazards R454,
20_memory R118, R123, 10_state R62): said once per instruction (`exec_completesAs`). -/

namespace Sys2Proof.Machine

open Sys2Proof.Claims

/-- The cost column of the opcode table, by instruction (70_reset_and_hazards R454, 30_encoding R171). -/
def catalogCost : Instr → Cost
  | .incfsz _ _ | .decfsz _ _ | .btfsc _ _ | .btfss _ _ => .two 1 2
  | .goto _ | .call _ | .callw | .bra _ | .brw | .ret | .retlw _ | .retfie => .one 2
  | _ => .one 1

/-- `catalogCost` is that column. -/
theorem catalogCost_build : ∀ e ∈ catalog, ∀ w, catalogCost (e.build w) = e.cost := by
  rw [← List.forall_iff_forall_mem]
  repeat' apply And.intro
  all_goals exact fun w => rfl

/-- The stack slots after an instruction: CALL and CALLW push pc (46_control R322, R323). -/
def stackAfter (s : State) : Instr → Vector Pc 16
  | .call _ | .callw => pushStack s s.pc
  | _ => s.stack

/-- The mode after an instruction other than RESET that completes: SLEEP enters Asleep (47_system R357). -/
def modeAfter (s : State) : Instr → Mode
  | .sleep => .asleep
  | _ => s.mode

/-- The instruction's effect has its cost, and its stack and mode are those of `stackAfter` and `modeAfter`. -/
def CompletesAs (s : State) (i : Instr) (t : State) : Prop :=
  ∃ m p skipped, s.Becomes t m p ((catalogCost i).cycles skipped) (stackAfter s i) (modeAfter s i)

/-- The cost of a skip row is its second value when the instruction skips. -/
theorem skipCost_cycles (P : Prop) [Decidable P] : (Cost.two 1 2).cycles (decide P) = if P then 2 else 1 := by
  by_cases h : P <;> simp [h, Cost.cycles]

theorem CompletesAs.of_skip {s t : State} {i : Instr} {m : Cell → Byte} {p : Pc} {P : Prop} [Decidable P]
    (hcost : catalogCost i = .two 1 2) (hstack : stackAfter s i = s.stack) (hmode : modeAfter s i = s.mode)
    (hb : s.Becomes t m p (if P then 2 else 1)) : CompletesAs s i t :=
  ⟨m, p, decide P, hb.congr (fun _ => rfl) rfl (by rw [hcost, skipCost_cycles]) hstack.symm hmode.symm⟩

/-- An instruction whose whole effect is known, completed. -/
theorem becomes_of_next {i : Instr} {s t : State} {m : Cell → Byte} {p : Pc} {n : Nat} {st : Vector Pc 16}
    {mo : Mode} (hex : ∃ u, exec i s = .next u ∧ s.Becomes u m p n st mo) (h : exec i s = .next t) :
    s.Becomes t m p n st mo := by
  obtain ⟨u, hu, hb⟩ := hex
  cases hu.symm.trans h
  exact hb

/-- Every instruction but RESET, which starts all registers anew. -/
theorem exec_completesAs {i : Instr} {s t : State} (hreset : i ≠ .reset) (h : exec i s = .next t) :
    CompletesAs s i t := by
  cases i with
  | addwf d f | addwfc d f | subwf d f | subwfb d f | andwf d f | iorwf d f | xorwf d f | incf d f | decf d f
  | rlf d f | rrf d f | lslf d f | lsrf d f | asrf d f | movf d f | comf d f | swapf d f =>
    obtain ⟨_, _, _, hb⟩ := State.fileOp_next h
    exact ⟨_, _, false, hb⟩
  | bcf b f | bsf b f =>
    obtain ⟨_, _, _, hb⟩ := State.fileOp_next h
    exact ⟨_, _, false, hb⟩
  | incfsz d f | decfsz d f =>
    obtain ⟨_, _, _, hb⟩ := State.fileOpSkip_next h
    exact .of_skip rfl rfl rfl hb
  | btfsc b f | btfss b f =>
    obtain ⟨_, _, _, hb⟩ := State.bitTest_next h
    exact .of_skip rfl rfl rfl hb
  | movwf f | clrf f =>
    obtain ⟨_, _, hb⟩ := State.fileStore_next h
    exact ⟨_, _, false, hb⟩
  | addlw k | sublw k | andlw k | iorlw k | xorlw k | movlw k | clrw k =>
    exact ⟨_, _, false, State.literalOp_next h⟩
  | goto k => exact ⟨_, _, false, becomes_of_next (execGoto_becomes s k) h⟩
  | call k => exact ⟨_, _, false, becomes_of_next (execCall_becomes s k) h⟩
  | callw => exact ⟨_, _, false, becomes_of_next (execCallw_becomes s) h⟩
  | bra k => exact ⟨_, _, false, becomes_of_next (execBra_becomes s k) h⟩
  | brw => exact ⟨_, _, false, becomes_of_next (execBrw_becomes s) h⟩
  | ret => exact ⟨_, _, false, becomes_of_next (execReturn_becomes s) h⟩
  | retlw k => exact ⟨_, _, false, becomes_of_next (execRetlw_becomes s k) h⟩
  | retfie => exact ⟨_, _, false, becomes_of_next (execRetfie_becomes s) h⟩
  | movlb k => exact ⟨_, _, false, becomes_of_next (execMovlb_becomes s k) h⟩
  | movlp k => exact ⟨_, _, false, becomes_of_next (execMovlp_becomes s k) h⟩
  | option => exact ⟨_, _, false, becomes_of_next (execOption_becomes s) h⟩
  | tris f => exact ⟨_, _, false, becomes_of_next (execTris_becomes s f) h⟩
  | nop => exact ⟨_, _, false, becomes_of_next (execNop_becomes s) h⟩
  | reset => exact absurd rfl hreset
  | sleep => exact ⟨_, _, false, becomes_of_next (execSleep_becomes s) h⟩
  | clrwdt => exact ⟨_, _, false, becomes_of_next (execClrwdt_becomes s) h⟩
  | moviw n m =>
    obtain ⟨_, _, hb⟩ := execMoviw_next h
    exact ⟨_, _, false, hb⟩
  | moviwk n k =>
    obtain ⟨_, _, hb⟩ := execMoviwk_next h
    exact ⟨_, _, false, hb⟩
  | movwi n m =>
    obtain ⟨_, _, _, hb⟩ := execMovwi_next h
    exact ⟨_, _, false, hb⟩
  | movwik n k =>
    obtain ⟨_, _, _, hb⟩ := execMovwik_next h
    exact ⟨_, _, false, hb⟩
  | addfsr n k => exact ⟨_, _, false, becomes_of_next (execAddfsr_becomes s n k) h⟩

/-- Settles O54, from `exec_completesAs` and the cost column of the catalog. -/
theorem cyclesFollowCatalog : Obligations.CyclesFollowCatalog := by
  intro e he w s t h
  rw [← catalogCost_build e he w]
  by_cases hreset : e.build w = .reset
  · rw [hreset] at h ⊢
    cases h
    exact ⟨false, rfl⟩
  · obtain ⟨_, _, skipped, hb⟩ := exec_completesAs hreset h
    exact ⟨skipped, hb.cycles⟩

theorem stackAfter_of_ne (s : State) {i : Instr} (hcall : ∀ k, i ≠ .call k) (hcallw : i ≠ .callw) :
    stackAfter s i = s.stack := by
  unfold stackAfter
  split
  · next k => exact absurd rfl (hcall k)
  · exact absurd rfl hcallw
  · rfl

theorem modeAfter_of_ne (s : State) {i : Instr} (h : i ≠ .sleep) : modeAfter s i = s.mode := by
  unfold modeAfter
  split
  · exact absurd rfl h
  · rfl

/-- Settles O58: RESET by its own definition, every other instruction by `exec_completesAs`. -/
theorem privateStoresKept : Obligations.PrivateStoresKept := by
  intro i s t h
  by_cases hreset : i = .reset
  · subst hreset
    cases h
    exact ⟨rfl, fun _ _ => rfl, fun _ hne => absurd rfl hne⟩
  · obtain ⟨_, _, _, hb⟩ := exec_completesAs hreset h
    exact ⟨hb.pmem, fun hcall hcallw => hb.stack.trans (stackAfter_of_ne s hcall hcallw),
      fun hsleep _ => hb.mode.trans (modeAfter_of_ne s hsleep)⟩

end Sys2Proof.Machine
end

section
/-! Reset (10_state R70, 70_reset_and_hazards R441): with no cell written yet, each holds its value of the reset table,
which meets the invariant. -/

namespace Sys2Proof.Machine

open Sys2Proof.Claims Sys2Proof.Laws.EncodingFits

/-! ## The registers after a reset (10_state R70) -/

/-- With no cell listed, each holds its value after the last reset. -/
theorem State.stored_of_mem_nil {s : State} (h : s.mem = []) (c : Cell) : s.stored c = resetValue s.resets c := by
  rw [State.stored, h, Memory.read, Assoc.find, Option.getD_none, resetBase, Cell.ofKey_key]

theorem resetValue_status (n : Nat) : resetValue n .status = 0x18 ||| (resetDraw n .status &&& 0x07) := rfl

theorem resetValue_intcon (n : Nat) : resetValue n .intcon = resetDraw n .intcon &&& 0x01 := rfl

theorem resetValue_pcon (n : Nat) : resetValue n .pcon = 0#4 ++ pconResetLow n := rfl

theorem resetValue_stkptr (n : Nat) : resetValue n .stkptr = 0x1F := rfl

theorem resetValue_zeros (n : Nat) :
    ∀ c ∈ [Cell.wreg, .bsr, .pclath, .fsr0l, .fsr0h, .fsr1l, .fsr1h], resetValue n c = 0 := by
  rw [← List.forall_iff_forall_mem]
  exact ⟨rfl, rfl, rfl, rfl, rfl, rfl, rfl⟩

theorem resetValue_ones (n : Nat) : ∀ c ∈ [Cell.optionReg, .trisa, .trisb], resetValue n c = 0xFF := by
  rw [← List.forall_iff_forall_mem]
  exact ⟨rfl, rfl, rfl⟩

/-- The registers of the reset table but for the shadow registers (10_state R70). -/
abbrev tableRegs : List Cell :=
  [.wreg, .bsr, .pclath, .fsr0l, .fsr0h, .fsr1l, .fsr1h, .pcl, .status, .intcon, .pcon, .stkptr, .optionReg, .trisa,
    .trisb]

/-- A cell that the table does not list takes its power-on value (70_reset_and_hazards R441). -/
theorem resetValue_others (n : Nat) {c : Cell} (hc : c ∉ tableRegs) (hshad : c ∉ Cell.shadows) :
    resetValue n c = powerOnValue n c := by
  have ne : ∀ {a}, a ∈ tableRegs → c ≠ a := fun ha h => hc (h ▸ ha)
  have not_mem : ∀ {l}, l ⊆ tableRegs → c ∉ l := fun hl h => hc (hl h)
  rw [resetValue, if_neg (ne (by decide)), if_neg (not_mem (by decide)), if_neg (ne (by decide)),
    if_neg (ne (by decide)), if_neg (ne (by decide)), if_neg (not_mem (by decide)), if_neg hshad]

/-- The flags drawn are inside STATUS's low three bits (10_state R44). -/
theorem resetStatus_bits (v : Byte) :
    (0x18 ||| (v &&& 0x07)) &&& 0xF8 = (0x18 : Byte) ∧ (0x18 ||| (v &&& 0x07)) &&& 0xE0 = (0 : Byte) := by
  revert v; decide +kernel

/-- A state right after a reset meets the invariant. -/
theorem State.inv_of_mem_nil {s : State} (h : s.mem = []) (hp : Pmem.wf s.pmem) : s.Inv where
  mem := by rw [h]; exact ⟨List.Pairwise.nil, nofun⟩
  pmem := hp
  widths := by
    constructor <;> rw [State.stored_of_mem_nil h]
    · rw [resetValue_status]
      exact (resetStatus_bits _).2
    · rw [resetValue_zeros _ .bsr (by decide)]; rfl
    · rw [resetValue_zeros _ .pclath (by decide)]; rfl
    · rw [resetValue_stkptr]; rfl

/-- Settles O52: no cell is listed and no word loaded. -/
theorem resetMeetsInvariant : Obligations.ResetMeetsInvariant :=
  State.inv_of_mem_nil rfl ⟨List.Pairwise.nil, nofun⟩

/-- Settles O53, by the reset table (`resetValue`). -/
theorem resetStateValues : Obligations.ResetStateValues := by
  have hstored := State.stored_of_mem_nil (s := State.reset) rfl
  refine ⟨rfl, rfl, rfl, fun c hc => ?_, ?_, ?_, ?_, ?_, fun c hc => ?_, fun a => rfl⟩
  · rw [hstored, resetValue_zeros _ c hc]
  · rw [hstored]; rfl
  · rw [hstored]; rfl
  · rw [hstored]; rfl
  · rw [hstored]; rfl
  · rw [hstored, resetValue_ones _ c hc]

/-! ## Both resets (70_reset_and_hazards R441) -/

/-- What a reset leaves in the registers. -/
theorem resetRegisters_of_mem_nil {u : State} (hmem : u.mem = []) (hresets : u.resets ≠ 0) (hpc : u.pc = 0)
    (hmode : u.mode = .running) : ResetRegisters u := by
  have hstored := State.stored_of_mem_nil hmem
  refine ⟨hpc, hmode, fun c hc => ?_, ?_, ?_, ?_, ?_, fun c hc => ?_,
    fun c hc hshad => ?_⟩
  · rw [hstored, resetValue_zeros _ c hc]
  · rw [hstored, resetValue_status]
    exact (resetStatus_bits _).1
  · rw [hstored, resetValue_intcon, BitVec.and_assoc]
    exact BitVec.and_zero
  · rw [hstored, resetValue_pcon, pconResetLow, if_neg hresets]
  · rw [hstored, resetValue_stkptr]
  · rw [hstored, resetValue_ones _ c hc]
  · rw [hstored, resetValue_others _ hc hshad, powerOnValue, if_neg hresets]
    cases Config.powerOnDefault c <;> rfl

/-- Settles O39: both resets empty the list of written cells and count on (`resetRegisters_of_mem_nil`). -/
theorem resetEffects : Obligations.ResetEffects := fun _ =>
  ⟨reset.decodes rfl,
    ⟨_, rfl, resetRegisters_of_mem_nil rfl (Nat.succ_ne_zero _) rfl rfl, rfl, rfl, rfl⟩,
    resetRegisters_of_mem_nil rfl (Nat.succ_ne_zero _) rfl rfl, rfl, rfl⟩

end Sys2Proof.Machine
end

section
/-! The step (70_reset_and_hazards R447): its cases, its outcomes, and the faults and interrupts it takes (60_exceptions
R401 to R408). -/

namespace Sys2Proof.Machine

open Sys2Proof.Claims

/-! ## The step, case by case (70_reset_and_hazards R447) -/

theorem step_of_faulted {s : State} {f : Fault} (hm : s.mode = .faulted f) : step s = .next s := by
  simp only [step, State.cycle, hm]

theorem step_of_asleep_pending {s : State} (hm : s.mode = .asleep) (hp : s.pending = true) :
    step s = .next (s.takeFault (.interruptNotModelled s.intcon)) := by
  simp only [step, State.cycle, hm, hp, if_true]

theorem step_of_asleep_idle {s : State} (hm : s.mode = .asleep) (hp : s.pending = false) : step s = .next s := by
  simp only [step, State.cycle, hm, hp, Bool.false_eq_true, if_false]

section
variable {s : State} (hm : s.mode = .running)
include hm

theorem step_of_interrupt (hi : (s.gie && s.pending) = true) :
    step s = .next (s.takeFault (.interruptNotModelled s.intcon)) := by
  simp only [step, State.cycle, hm, hi, if_true]

theorem step_of_fetch_error {f : Fault} (hi : noInterrupt s) (hf : s.fetch = .error f) :
    step s = .next (s.takeFault f) := by
  have hi' : (s.gie && s.pending) = false := hi
  simp only [step, State.cycle, hm, hi', hf, Bool.false_eq_true, if_false]

theorem step_of_fetch_ok {i : Instr} (hi : noInterrupt s) (hf : s.fetch = .ok i) :
    step s = s.settle (exec i s.advance) := by
  have hi' : (s.gie && s.pending) = false := hi
  simp only [step, State.cycle, hm, hi', hf, Bool.false_eq_true, if_false]

end

/-! ## The fetch (70_reset_and_hazards R447) -/

theorem fetchAddr_toNat (s : State) : s.fetchAddr.toNat = s.pc.toNat % 2048 := by
  rw [State.fetchAddr, BitVec.extractLsb'_toNat, Nat.shiftRight_zero]

theorem fetch_unloaded {s : State} (h : fetched s = none) : s.fetch = .error (.unloadedProgramWord s.fetchAddr) := by
  rw [fetched, ← fetchAddr_toNat] at h
  simp only [State.fetch, State.pmRead, h]

section
variable {s : State} {w : Word} (h : fetched s = some w)
include h

theorem fetch_undecodable {r : DecodeReject} (hr : decode w = .error r) :
    s.fetch = .error (.decodeError s.fetchAddr w) := by
  rw [fetched, ← fetchAddr_toNat] at h
  simp only [State.fetch, State.pmRead, h, hr]

theorem fetch_decodable {i : Instr} (hi : decode w = .ok i) : s.fetch = .ok i := by
  rw [fetched, ← fetchAddr_toNat] at h
  simp only [State.fetch, State.pmRead, h, hi]

end

/-- Settles O49: nothing is loaded at pc[10:0], so the fetch faults. -/
theorem unloadedFetchFaults : Obligations.UnloadedFetchFaults := fun _ hm hi hf =>
  step_of_fetch_error hm hi (fetch_unloaded hf)

/-- Settles O45: the step settles what the decoded instruction answers. -/
theorem stepRunsDecoded : Obligations.StepRunsDecoded := fun _ _ _ hm hi hf hd => by
  refine ⟨rfl, fun t ht => ?_, fun e he => ?_⟩
  · rw [step_of_fetch_ok hm hi (fetch_decodable hf hd), ht]; rfl
  · rw [step_of_fetch_ok hm hi (fetch_decodable hf hd), he]; rfl

/-! ## What follows an access: the changes of the state when it gives a value, its fault when not -/

section
variable {α : Type} {a : Except Fault α}

theorem outcome_bind_error {e : Fault} (h : a = .error e) (k : α → Except Fault State) :
    outcome (a >>= k) = .fault e := by
  rw [h]; rfl

theorem outcome_bind_ok {x : α} (h : a = .ok x) (g : α → State) :
    outcome (a >>= fun x => pure (g x)) = .next (g x) := by
  rw [h]; rfl

/-- An access that completed, followed by changes of the state. -/
theorem outcome_bind_next {g : α → State} {u : State} (h : outcome (a >>= fun x => pure (g x)) = .next u) :
    ∃ x, a = .ok x ∧ u = g x := by
  cases a with
  | error e => cases h
  | ok x => cases h; exact ⟨x, rfl, rfl⟩

end

/-! ## A step always answers a next state (log entries 6 and 8) -/

theorem outcome_ne_refused (a : Except Fault State) (r : Refusal) : outcome a ≠ .refused r := by
  cases a <;> exact nofun

/-- Every meaning answers a next state or the outcome of an access. -/
theorem exec_ne_refused (i : Instr) (s : State) (r : Refusal) : exec i s ≠ .refused r := by
  cases i with
  | addwf d f | addwfc d f | subwf d f | subwfb d f | andwf d f | iorwf d f | xorwf d f | incf d f | decf d f
  | incfsz d f | decfsz d f | rlf d f | rrf d f | lslf d f | lsrf d f | asrf d f | movf d f | comf d f
  | swapf d f => exact outcome_ne_refused _ r
  | bcf b f | bsf b f | btfsc b f | btfss b f => exact outcome_ne_refused _ r
  | movwf f | clrf f => exact outcome_ne_refused _ r
  | moviw n m | movwi n m => exact outcome_ne_refused _ r
  | moviwk n k | movwik n k => exact outcome_ne_refused _ r
  | addlw k | sublw k | andlw k | iorlw k | xorlw k | movlw k | clrw k | goto k | call k | bra k | retlw k
  | movlb k | movlp k | tris k => exact nofun
  | callw | brw | ret | retfie | option | nop | reset | sleep | clrwdt => exact nofun
  | addfsr n k => exact nofun

/-- Every outcome of a step: nothing, a fault taken, or an instruction that completes. -/
theorem step_outcomes (s : State) :
    (s.mode ≠ .running ∧ step s = .next s) ∨ (∃ f, step s = .next (s.takeFault f)) ∨
    (∃ i t, s.mode = .running ∧ exec i s.advance = .next t ∧ step s = .next t) := by
  cases hm : s.mode with
  | faulted f => exact .inl ⟨nofun, step_of_faulted hm⟩
  | asleep =>
    cases hp : s.pending with
    | true => exact .inr (.inl ⟨_, step_of_asleep_pending hm hp⟩)
    | false => exact .inl ⟨nofun, step_of_asleep_idle hm hp⟩
  | running =>
    cases hi : s.gie && s.pending with
    | true => exact .inr (.inl ⟨_, step_of_interrupt hm hi⟩)
    | false =>
      cases hf : s.fetch with
      | error f => exact .inr (.inl ⟨f, step_of_fetch_error hm hi hf⟩)
      | ok i =>
        have hstep := step_of_fetch_ok hm hi hf
        cases he : exec i s.advance with
        | next t => exact .inr (.inr ⟨i, t, rfl, he, by rw [hstep, he]; rfl⟩)
        | fault f => exact .inr (.inl ⟨f, by rw [hstep, he]; rfl⟩)
        | refused r => exact absurd he (exec_ne_refused i _ r)

/-- What a step's next state can be. -/
theorem step_next {s t : State} (h : step s = .next t) :
    (s.mode ≠ .running ∧ t = s) ∨ (∃ f, t = s.takeFault f) ∨
    (∃ i, s.mode = .running ∧ exec i s.advance = .next t) := by
  obtain ⟨hm, hs⟩ | ⟨f, hs⟩ | ⟨i, u, hm, he, hs⟩ := step_outcomes s <;> cases hs.symm.trans h
  · exact .inl ⟨hm, rfl⟩
  · exact .inr (.inl ⟨f, rfl⟩)
  · exact .inr (.inr ⟨i, hm, he⟩)

/-- Settles O50, from `exec_ne_refused` and `step_outcomes`. -/
theorem stepAnswersNext : Obligations.StepAnswersNext := by
  refine ⟨exec_ne_refused, fun s => ?_⟩
  obtain ⟨-, hs⟩ | ⟨f, hs⟩ | ⟨i, t, -, -, hs⟩ := step_outcomes s
  · exact ⟨s, hs⟩
  · exact ⟨_, hs⟩
  · exact ⟨t, hs⟩

/-! ## Faults (60_exceptions R401, R402) -/

/-- An instruction that completes leaves a running core running or asleep. -/
theorem exec_mode_ne_faulted {i : Instr} {s t : State} (hm : s.mode = .running) (h : exec i s = .next t)
    (e : Fault) : t.mode ≠ .faulted e := by
  by_cases hreset : i = .reset
  · subst hreset
    cases h
    exact nofun
  · obtain ⟨_, _, _, hb⟩ := exec_completesAs hreset h
    rw [hb.mode]
    unfold modeAfter
    split
    · exact nofun
    · rw [hm]; exact nofun

/-- Settles O46: of the outcomes of a step only a fault taken leaves Faulted, and it changes the mode only. -/
theorem faultUndoesStep : Obligations.FaultUndoesStep := by
  intro s t e hs h ht
  obtain ⟨-, rfl⟩ | ⟨f, rfl⟩ | ⟨i, hm, he⟩ := step_next h
  · exact absurd ht (hs e)
  · cases ht
    exact ⟨rfl, fun _ => rfl, rfl, rfl, rfl, rfl⟩
  · exact absurd ht (exec_mode_ne_faulted (s := s.advance) hm he e)

/-- A run of a faulted core stops where it starts (70_reset_and_hazards R448). -/
theorem runLoop_of_faulted {s : State} {e : Fault} (hm : s.mode = .faulted e) (halt : Option Pc) (n : Nat) :
    runLoop halt n s = .next s := by
  cases n with
  | zero => rfl
  | succ n => simp only [runLoop, step_of_faulted hm, hm, reduceCtorEq, if_false, ite_self]

theorem State.load_mode {s u : State} {base : Nat} {words : List Nat} (h : s.load base words = .ok u) :
    u.mode = s.mode := by
  unfold State.load at h
  split at h
  · cases h
  · cases h; rfl

theorem State.memWrite_mode {s u : State} {a : Addr} {v : Byte} (h : s.memWrite a v = .ok u) :
    u.mode = s.mode := by
  cases hc : translateAddr a with
  | error e => rw [State.memWrite, hc] at h; cases h
  | ok c =>
    rw [s.memWrite_cell hc] at h
    exact (State.tWrite_next (t := .cell c) h).2.mode

/-- A named write that is accepted is a write at some address (70_reset_and_hazards R449). -/
theorem State.namedWrite_ok {s u : State} {map : NameMap} {name : String} {v : Byte}
    (h : s.namedWrite map name v = .ok u) : ∃ a, s.memWrite a v = .ok u := by
  simp only [State.namedWrite, bind, Except.bind] at h
  split at h
  · cases h
  split at h
  · cases h
  next a _ =>
  cases hw : s.memWrite a v with
  | error e => rw [hw] at h; cases h
  | ok u' => rw [hw] at h; cases h; exact ⟨a, hw⟩

/-- Settles O47: in mode Faulted a step answers its own state, and neither a load nor a write touches the mode. -/
theorem faultedIsTerminal : Obligations.FaultedIsTerminal := by
  refine fun s e hm => ⟨step_of_faulted hm, fun n halt => runLoop_of_faulted hm halt n,
    fun base words u h => (State.load_mode h).trans hm, fun map name v u h => ?_, rfl⟩
  obtain ⟨a, ha⟩ := State.namedWrite_ok h
  exact (State.memWrite_mode ha).trans hm

/-! ## Interrupts (60_exceptions R406 to R408) -/

/-- An enable in bits 5:3 of INTCON and its flag in bits 2:0 (10_state R49). -/
theorem enabled_and_flagged (v : Byte) :
    ((v.extractLsb' 3 3 &&& v.extractLsb' 0 3) != 0) = true ↔
      (v.getLsbD 5 = true ∧ v.getLsbD 2 = true) ∨ (v.getLsbD 4 = true ∧ v.getLsbD 1 = true) ∨
      (v.getLsbD 3 = true ∧ v.getLsbD 0 = true) := by
  revert v; decide +kernel

/-- Settles O48: the pending test by bits of INTCON, then the cases of the step. -/
theorem interruptChecks : Obligations.InterruptChecks := by
  refine fun s => ⟨?_, fun hm hgie hp => step_of_interrupt hm ?_, step_of_asleep_pending, step_of_asleep_idle⟩
  · rw [State.pending, Bool.or_eq_true, enabled_and_flagged, Bool.and_eq_true, State.intcon_eq]
  · rw [State.gie, State.intcon_eq, hgie, hp]; rfl

end Sys2Proof.Machine
end

section
/-! The invariant, kept by every instruction and so by every step. -/

namespace Sys2Proof.Machine

open Sys2Proof.Claims

/-- A reset keeps the invariant whatever the state was, program memory aside. -/
theorem State.Inv.resetState {s : State} (h : s.Inv) (cause : ResetCause) : (s.resetState cause).Inv := by
  cases cause <;> exact State.inv_of_mem_nil rfl h.pmem

theorem State.Inv.literalOp {s u : State} (h : s.Inv) {r : AluResult} (hu : s.literalOp r = .next u) : u.Inv := by
  cases hu
  exact ((h.setW _).setFlags _).charge 1

theorem trisCell_plain (f : BitVec 3) :
    trisCell f ≠ .status ∧ trisCell f ≠ .bsr ∧ trisCell f ≠ .stkptr ∧ trisCell f ≠ .pclath := by
  revert f; decide

/-- Every instruction keeps the invariant, by the operation that its meaning is made of. -/
theorem State.Inv.exec {i : Instr} {s t : State} (h : s.Inv) (ht : exec i s = .next t) : t.Inv := by
  cases i with
  | addwf d f | addwfc d f | subwf d f | subwfb d f | andwf d f | iorwf d f | xorwf d f | incf d f | decf d f
  | rlf d f | rrf d f | lslf d f | lsrf d f | asrf d f | movf d f | comf d f | swapf d f => exact h.fileOp ht
  | bcf b f | bsf b f => exact h.fileOp ht
  | incfsz d f | decfsz d f => exact h.fileOpSkip ht
  | btfsc b f | btfss b f => exact h.bitTest ht
  | movwf f | clrf f => exact h.fileStore ht
  | addlw k | sublw k | andlw k | iorlw k | xorlw k | movlw k | clrw k => exact h.literalOp ht
  | goto k | bra k => cases ht; exact (h.setPc _).charge 2
  | brw => cases ht; exact (h.setPc _).charge 2
  | call k => cases ht; exact ((h.push _).setPc _).charge 2
  | callw => cases ht; exact ((h.push _).setPc _).charge 2
  | ret => cases ht; exact h.popPc.charge 2
  | retlw k => cases ht; exact (h.setW k).popPc.charge 2
  | retfie => cases ht; exact h.popPc.restoreShadows.setGie.charge 2
  | movlb k => cases ht; exact (h.setBsr k).charge 1
  | movlp k => cases ht; exact (h.setPclath k).charge 1
  | option => cases ht; exact (h.store (Fits.of_plain _ (by decide))).charge 1
  | tris f => cases ht; exact (h.store (Fits.of_plain _ (trisCell_plain f))).charge 1
  | nop => cases ht; exact h.charge 1
  | reset => cases ht; exact (h.resetState .software).charge 1
  | sleep => cases ht; exact ((h.setPdTo _ _).setMode _).charge 1
  | clrwdt => cases ht; exact (h.setPdTo _ _).charge 1
  | moviw n m =>
    obtain ⟨v, -, rfl⟩ := outcome_bind_next ht
    exact ((((h.beforeAccess n m).setW v).setFlags _).afterAccess n m _).charge 1
  | moviwk n k =>
    obtain ⟨v, -, rfl⟩ := outcome_bind_next ht
    exact ((h.setW v).setFlags _).charge 1
  | movwi n m =>
    obtain ⟨u, hu, rfl⟩ := outcome_bind_next ht
    exact (((h.beforeAccess n m).indWrite hu).afterAccess n m _).charge 1
  | movwik n k =>
    obtain ⟨u, hu, rfl⟩ := outcome_bind_next ht
    exact (h.indWrite hu).charge 1
  | addfsr n k => cases ht; exact (h.setFsr n _).charge 1

/-- Settles O51: by the outcomes of a step; the fetch's advance and a fault taken write no cell. -/
theorem stepKeepsInvariant : Obligations.StepKeepsInvariant := by
  intro s t h hstep
  obtain ⟨-, rfl⟩ | ⟨f, rfl⟩ | ⟨i, -, he⟩ := step_next hstep
  · exact h
  · exact h.setMode _
  · exact (h.setPc _).exec he

end Sys2Proof.Machine
end

section
/-! MOVIW and MOVWI, whole (48_indirect R380 to R384): an access at the pointer, then what follows it. -/

namespace Sys2Proof.Machine

open Sys2Proof.Claims Sys2Proof.Laws.EncodingFits

/-! ## The encoding -/

/-- A legal instruction of the format ind_nm decodes from its template with n and m in place. -/
theorem decode_nm {i : Instr} (hi : Statement i) (hw : i.wellFormed = true) {op : BitVec 11} {n : Fsr}
    {m : PtrMode} (he : encode i = op ++ fsrBit n ++ modeBits m) :
    decode ((op ++ 0#1 ++ 0#2) ||| (fsrBit n ++ modeBits m).setWidth 14) = .ok i := by
  have hword : (op ++ 0#1 ++ 0#2) ||| (fsrBit n ++ modeBits m).setWidth 14 = encode i :=
    (or_three op (fsrBit n) (modeBits m)).trans he.symm
  rw [hword, hi.decodes hw]

/-! ## W and Z -/

/-- A byte put into W with its Z keeps C and DC, where STATUS is still the old one. -/
theorem flagCells_wreg_withZ {s : State} {cells : Cell → Byte} (h : cells .status = s.stored .status) (v : Byte) :
    flagCells (Function.update cells .wreg v) (withZ v).flags =
      withFlags (Function.update cells .wreg v) (flag s 0, flag s 1, decide (v = 0)) := by
  have hstatus : Function.update cells .wreg v .status = s.stored .status :=
    (Function.update_of_ne (by decide) _ _).trans h
  rw [← flagsAfter_withZ s Iff.rfl, flagCells, hstatus]
  rfl

section
variable (s : State) (n : Fsr)

/-- Only FSRn is written before the access. -/
theorem cellsBefore_status (m : PtrMode) : cellsBefore s n m .status = s.stored .status := by
  cases m <;> cases n <;> rfl

/-! ## MOVIW (R381, R382) -/

theorem execMoviw_fault {m : PtrMode} {e : Fault}
    (h : (s.beforeAccess n m).indRead (accessedAddr m (pointer s n)) = .error e) :
    exec (.moviw n m) s = .fault e := by
  rw [← accessPointer_eq] at h
  exact outcome_bind_error h _

theorem execMoviw_becomes {m : PtrMode} {v : Byte}
    (h : (s.beforeAccess n m).indRead (accessedAddr m (pointer s n)) = .ok v) :
    ∃ u, exec (.moviw n m) s = .next u ∧
      s.Becomes u (cellsLast s n m (withFlags (Function.update (cellsBefore s n m) .wreg v)
        (flag s 0, flag s 1, decide (v = 0)))) s.pc 1 := by
  rw [← accessPointer_eq] at h
  rw [← flagCells_wreg_withZ (cellsBefore_status s n m)]
  exact ⟨_, outcome_bind_ok h _,
    ((((s.beforeAccess_becomes n m).store .wreg v).setFlags _).afterAccess n m).charge 1⟩

theorem execMoviwk_fault {k : BitVec 6} {e : Fault} (h : s.indRead (s.indexed n k) = .error e) :
    exec (.moviwk n k) s = .fault e :=
  outcome_bind_error h _

theorem execMoviwk_becomes {k : BitVec 6} {v : Byte} (h : s.indRead (s.indexed n k) = .ok v) :
    ∃ u, exec (.moviwk n k) s = .next u ∧
      s.Becomes u (withFlags (Function.update s.stored .wreg v) (flag s 0, flag s 1, decide (v = 0))) s.pc 1 := by
  rw [← flagCells_wreg_withZ rfl]
  exact ⟨_, outcome_bind_ok h _, (((State.Becomes.refl s).store .wreg v).setFlags _).charge 1⟩

/-! ## MOVWI (R383, R384) -/

theorem State.indWrite_forbidden {p : Addr} {c : Cell} (h : indTarget p = .ok (.cell c)) (hc : forbidden (.cell c))
    (v : Byte) : s.indWrite p v = .error (.unmodelledRegister c) :=
  (s.indWrite_target h v).trans (State.cellWrite_forbidden hc)

theorem State.indWrite_allowed {p : Addr} {t : Target} (h : indTarget p = .ok t) (ht : ¬ forbidden t) (v : Byte) :
    ∃ u, s.indWrite p v = .ok u := by
  obtain ⟨u, hu, -⟩ := s.tWrite_becomes t v ht
  exact ⟨u, (s.indWrite_target h v).trans hu⟩

/-- MOVWI with a mode raises the fault of its write, in the state after a pre-mode's update. -/
theorem execMovwi_fault {m : PtrMode} {e : Fault}
    (h : (s.beforeAccess n m).indWrite (accessedAddr m (pointer s n)) (s.beforeAccess n m).w = .error e) :
    exec (.movwi n m) s = .fault e := by
  rw [← accessPointer_eq] at h
  exact outcome_bind_error h _

theorem execMovwi_becomes {m : PtrMode} {t : Target} (h : indTarget (accessedAddr m (pointer s n)) = .ok t)
    (ht : ¬ forbidden t) :
    ∃ u, exec (.movwi n m) s = .next u ∧
      s.Becomes u (cellsLast s n m (targetCells (cellsBefore s n m) t (s.stored .wreg)))
        (targetPc s t (s.stored .wreg)) 1 := by
  obtain ⟨u, hu⟩ := (s.beforeAccess n m).indWrite_allowed h ht (s.beforeAccess n m).w
  rw [← accessPointer_eq] at hu
  have hnext : exec (.movwi n m) s = .next _ := outcome_bind_ok hu _
  obtain ⟨t', ht', -, hb⟩ := execMovwi_next hnext
  cases h.symm.trans ht'
  exact ⟨_, hnext, hb⟩

theorem execMovwik_fault {k : BitVec 6} {e : Fault} (h : s.indWrite (s.indexed n k) s.w = .error e) :
    exec (.movwik n k) s = .fault e :=
  outcome_bind_error h _

theorem execMovwik_becomes {k : BitVec 6} {t : Target} (h : indTarget (s.indexed n k) = .ok t)
    (ht : ¬ forbidden t) :
    ∃ u, exec (.movwik n k) s = .next u ∧
      s.Becomes u (targetCells s.stored t (s.stored .wreg)) (targetPc s t (s.stored .wreg)) 1 := by
  obtain ⟨u, hu⟩ := s.indWrite_allowed h ht s.w
  have hnext : exec (.movwik n k) s = .next _ := outcome_bind_ok hu _
  obtain ⟨t', ht', -, hb⟩ := execMovwik_next hnext
  cases h.symm.trans ht'
  exact ⟨_, hnext, hb⟩

end

/-! ## The rules -/

/-- Settles O40: the read in the state after a pre-mode's update, then W and Z, then a post-mode's update. -/
theorem moveIndirectToWRule : Obligations.MoveIndirectToWRule := fun s n m =>
  ⟨decode_nm (op := 0b00000000010) (moviw n m) rfl rfl, fun _ => execMoviw_fault s n,
    fun _ => execMoviw_becomes s n⟩

/-- Settles O41: the address is the signed sum of `indexed_eq_ofInt`, and FSRn is not written. -/
theorem moveIndexedToWRule : Obligations.MoveIndexedToWRule := fun s n k => by
  rw [← State.indexed_eq_ofInt]
  exact ⟨decode_nk (op := 0b1111110) (moviwk n k) rfl rfl, fun _ => execMoviwk_fault s n,
    fun _ => execMoviwk_becomes s n⟩

/-- Settles O42: the write in the state after a pre-mode's update, then a post-mode's update. -/
theorem moveWToIndirectRule : Obligations.MoveWToIndirectRule := fun s n m =>
  ⟨decode_nm (op := 0b00000000011) (movwi n m) rfl rfl,
    fun _ he => execMovwi_fault s n (State.indWrite_fault _ he _),
    fun _ hc hforbidden => execMovwi_fault s n (State.indWrite_forbidden _ hc hforbidden _),
    fun _ ht hallowed => execMovwi_becomes s n ht hallowed⟩

/-- Settles O43: the write at the signed sum; FSRn is written only as the target. -/
theorem moveWToIndexedRule : Obligations.MoveWToIndexedRule := fun s n k => by
  rw [← State.indexed_eq_ofInt]
  exact ⟨decode_nk (op := 0b1111111) (movwik n k) rfl rfl,
    fun _ he => execMovwik_fault s n (s.indWrite_fault he _),
    fun _ hc hforbidden => execMovwik_fault s n (s.indWrite_forbidden hc hforbidden _),
    fun _ ht hallowed => execMovwik_becomes s n ht hallowed⟩

end Sys2Proof.Machine
end

section
/-! The host's program load (70_reset_and_hazards R446). -/

namespace Sys2Proof.Machine

/-- What program memory lists after a load: the words in its range, and the old word at every other address. -/
theorem Pmem.find_load (words : List Nat) (base : Nat) (m : List (Nat × Word)) (a : Nat) :
    Assoc.find (Pmem.load base words m) a =
      if base ≤ a ∧ a < base + words.length then (words[a - base]?).map (BitVec.ofNat 14) else Assoc.find m a := by
  induction words generalizing base m with
  | nil => rw [Pmem.load, if_neg (by simp)]
  | cons w ws ih =>
    rw [Pmem.load, ih, Assoc.find_insert, List.length_cons]
    by_cases hbase : a = base
    · subst hbase
      simp
    · by_cases hrange : base + 1 ≤ a ∧ a < base + 1 + ws.length
      · rw [if_pos hrange, if_pos (by omega), List.getElem?_cons, if_neg (by omega), Nat.sub_add_eq]
      · rw [if_neg hrange, if_neg hbase, if_neg (by omega)]

/-- Settles O60: the load's own test, then `find_load`. -/
theorem loadAllOrNothing : Obligations.LoadAllOrNothing := by
  intro s base words
  have hwide : words.any (· > 0x3FFF) = true ↔ ∃ w ∈ words, 0x3FFF < w := by simp
  simp only [State.load, hwide]
  split
  · rfl
  · exact ⟨_, rfl, rfl, Pmem.find_load words base s.pmem⟩

end Sys2Proof.Machine
end

section
/-! The return-address stack as a ring of sixteen slots (10_state R66 to R68): where the pushes of a list leave their
values, and in which order pops read them. -/

namespace Sys2Proof.Machine

open Sys2Proof.Claims

/-- The slot at a place of the ring. -/
def ringSlot (s : State) (k : Nat) : Pc := s.stack[k % 16]'(Nat.mod_lt _ (by decide))

theorem ringSlot_congr (s : State) {j k : Nat} (h : j % 16 = k % 16) : ringSlot s j = ringSlot s k := by
  simp only [ringSlot, h]

/-! ## Pops -/

theorem popValue_eq_ringSlot (s : State) : popValue s = ringSlot s (spNat s) := rfl

theorem State.pop_ringSlot (s : State) (k : Nat) : ringSlot s.pop k = ringSlot s k := by
  have hstack : s.pop.stack = s.stack := s.pop_becomes.stack
  simp only [ringSlot, hstack]

/-- Pops read the ring downwards from the stack pointer; 15 is one slot down modulo 16. -/
theorem popList_eq_map (n : Nat) (s : State) :
    popList n s = (List.range n).map fun i => ringSlot s (spNat s + 15 * i) := by
  induction n generalizing s with
  | zero => rfl
  | succ n ih =>
    rw [popList, ih, List.range_succ_eq_map, List.map_cons, List.map_map, popValue_eq_ringSlot, s.pop_spNat]
    congr 1
    refine List.map_congr_left fun i _ => (s.pop_ringSlot _).trans (ringSlot_congr s ?_)
    omega

/-! ## Pushes -/

/-- A push fills the slot above the stack pointer and leaves the others. -/
theorem State.push_ringSlot (s : State) (v : Pc) (k : Nat) :
    ringSlot (s.push v) k = if (spNat s + 1) % 16 = k % 16 then v else ringSlot s k := by
  have hstack : (s.push v).stack = pushStack s v := (s.push_becomes v).stack
  simp only [ringSlot, hstack, pushStack, Vector.getElem_set]

theorem foldl_push_spNat (s : State) (vs : List Pc) :
    spNat (vs.foldl State.push s) % 16 = (spNat s + vs.length) % 16 := by
  induction vs using List.reverseRecOn with
  | nil => rfl
  | append_singleton vs v ih =>
    rw [List.foldl_append, List.foldl_cons, List.foldl_nil, State.push_spNat, List.length_append,
      List.length_singleton]
    omega

/-- After a push the stack pointer is a slot number, so its remainder says what it is. -/
theorem foldl_push_spNat_of_pos (s : State) {vs : List Pc} (h : 0 < vs.length) :
    spNat (vs.foldl State.push s) = (spNat s + vs.length) % 16 := by
  rw [← foldl_push_spNat]
  cases vs using List.reverseRecOn with
  | nil => exact absurd h (Nat.lt_irrefl 0)
  | append_singleton us u =>
    rw [List.foldl_append, List.foldl_cons, List.foldl_nil, State.push_spNat, Nat.mod_mod]

/-- Up to sixteen pushes fill slots of their own, upwards from above the stack pointer. -/
theorem foldl_push_ringSlot (s : State) (vs : List Pc) (hlen : vs.length ≤ 16) (j : Nat) (hj : j < vs.length) :
    ringSlot (vs.foldl State.push s) (spNat s + 1 + j) = vs[j] := by
  induction vs using List.reverseRecOn with
  | nil => exact absurd hj (Nat.not_lt_zero j)
  | append_singleton vs v ih =>
    have hsp := foldl_push_spNat s vs
    rw [List.length_append, List.length_singleton] at hlen hj
    rw [List.foldl_append, List.foldl_cons, List.foldl_nil, State.push_ringSlot]
    by_cases hlast : j = vs.length
    · subst hlast
      rw [if_pos (by omega), List.getElem_concat_length rfl]
    · rw [if_neg (by omega), ih (by omega) (by omega), List.getElem_append_left]

/-- Settles O34: pops read downwards the slots that the pushes filled upwards. -/
theorem pushesPopInOrder : Obligations.PushesPopInOrder := by
  intro s vs hlen
  have hsp := foldl_push_spNat s vs
  rw [popList_eq_map]
  refine List.ext_getElem (by simp) fun i hi hi' => ?_
  rw [List.length_map, List.length_range] at hi
  rw [List.getElem_map, List.getElem_range, List.getElem_reverse,
    ← foldl_push_ringSlot s vs hlen (vs.length - 1 - i) (by omega)]
  exact ringSlot_congr _ (by omega)

/-! ## Overflow (R66, R68) -/

/-- STKOVF, bit 7 of PCON, is set by a push at STKPTR = 15 and is sticky (10_state R55, R66). -/
theorem State.push_stkovf (s : State) (v : Pc) :
    ((s.push v).stored .pcon).getLsbD 7 = ((s.stored .pcon).getLsbD 7 || decide (spNat s = 15)) := by
  rw [(s.push_becomes v).cells, pushCells, Function.update_of_ne (by decide)]
  by_cases h : spNat s = 15
  · simp [h]
  · simp [h]

/-- From the idle stack pointer no push before the seventeenth finds STKPTR = 15. -/
theorem foldl_push_stkovf (s : State) (vs : List Pc) (hidle : spNat s = 31) (hlen : vs.length ≤ 16) :
    ((vs.foldl State.push s).stored .pcon).getLsbD 7 = (s.stored .pcon).getLsbD 7 := by
  induction vs using List.reverseRecOn with
  | nil => rfl
  | append_singleton vs v ih =>
    rw [List.length_append, List.length_singleton] at hlen
    have hsp : spNat (vs.foldl State.push s) ≠ 15 := by
      rcases Nat.eq_zero_or_pos vs.length with hnil | hpos
      · rw [List.length_eq_zero_iff.1 hnil, List.foldl_nil, hidle]
        decide
      · rw [foldl_push_spNat_of_pos s hpos]
        omega
    rw [List.foldl_append, List.foldl_cons, List.foldl_nil, State.push_stkovf, ih (by omega)]
    simp [hsp]

/-- Settles O35: from 31 the sixteenth push leaves STKPTR at 15, so the next one overflows into slot 0. -/
theorem seventeenthPushOverflows : Obligations.SeventeenthPushOverflows := by
  intro s vs v hstkptr hlen hclear
  have hidle : spNat s = 31 := by rw [spNat, hstkptr]; rfl
  have hsp : spNat (vs.foldl State.push s) = 15 := by rw [foldl_push_spNat_of_pos s (by omega), hidle, hlen]
  have hflag := foldl_push_stkovf s vs hidle hlen.le
  refine ⟨hflag.trans hclear, ?_, ?_, ?_⟩
  · rw [State.push_stkovf, hsp]
    simp
  · have hfirst := foldl_push_ringSlot s vs hlen.le 0 (by omega)
    rw [hidle] at hfirst
    cases vs with
    | nil => cases hlen
    | cons x xs => exact hfirst
  · have hsecond := State.push_ringSlot (vs.foldl State.push s) v 0
    rw [hsp] at hsecond
    exact hsecond

end Sys2Proof.Machine
end

section
/-! The reserved words (30_encoding R173): each row matches an interval of words, and the rows' intervals and the five
reserved ranges tile the words. -/

namespace Sys2Proof

open Sys2Proof.Claims Sys2Proof.Machine

/-! ## The words of a row as an interval -/

/-- An interval of word numbers, its end not in it. -/
abbrev Span := Nat × Nat

def Span.Has (I : Span) (n : Nat) : Prop := I.1 ≤ n ∧ n < I.2

/-- The words that match a row: those over its opcode bits, for TRIS from f = 5 on (R175). -/
def Template.span (e : Template) : Span :=
  (e.bits.toNat + if e.mnemonic = "TRIS" then 5 else 0, e.bits.toNat + (2 ^ 14 - e.mask.toNat))

/-- A mask that clears the low `b` bits rounds a word down to a multiple of 2^b. -/
theorem toNat_and_mask {b : Nat} (w : Word) : (w &&& BitVec.allOnes 14 <<< b).toNat = w.toNat / 2 ^ b * 2 ^ b := by
  rw [← BitVec.shiftLeft_ushiftRight, BitVec.toNat_shiftLeft, BitVec.toNat_ushiftRight, Nat.shiftLeft_eq,
    Nat.shiftRight_eq_div_pow]
  exact Nat.mod_eq_of_lt ((Nat.div_mul_le_self _ _).trans_lt w.isLt)

/-- So it keeps the words from the opcode bits up to 2^b further. -/
theorem and_mask_eq_iff {b : Nat} {bits : Word} (hbits : bits &&& BitVec.allOnes 14 <<< b = bits) (w : Word) :
    w &&& BitVec.allOnes 14 <<< b = bits ↔ bits.toNat ≤ w.toNat ∧ w.toNat < bits.toNat + 2 ^ b := by
  have hmultiple : bits.toNat / 2 ^ b * 2 ^ b = bits.toNat := by rw [← toNat_and_mask, hbits]
  have hdiv := Nat.div_add_mod' w.toNat (2 ^ b)
  have hmod := Nat.mod_lt w.toNat (Nat.two_pow_pos b)
  rw [← BitVec.toNat_inj, toNat_and_mask]
  refine ⟨fun h => by omega, fun ⟨hlo, hhi⟩ => ?_⟩
  rw [← hmultiple] at hlo hhi ⊢
  rw [Nat.div_eq_of_lt_le hlo (by rwa [Nat.succ_mul])]

/-- Every mask clears a number of low bits and keeps the others (R163). -/
theorem catalog_mask_shape :
    ∀ e ∈ catalog, ∃ b ∈ List.range 14, e.mask = BitVec.allOnes 14 <<< b ∧ 2 ^ 14 - e.mask.toNat = 2 ^ b := by
  decide +kernel

theorem catalog_tris_bits : ∀ e ∈ catalog, e.mnemonic = "TRIS" → e.bits = 0x0060 ∧ e.mask = 0x3FF8 := by
  decide +kernel

/-- A row matches the words of its span. -/
theorem Template.matches_iff_span {e : Template} (he : e ∈ catalog) (w : Word) :
    e.matches w = true ↔ e.span.Has w.toNat := by
  obtain ⟨b, -, hmask, hsize⟩ := catalog_mask_shape e he
  have hbits := catalog_bits_in_mask e he
  rw [hmask] at hbits
  rw [Template.matches_iff, catalog_ok_eq e he, hmask, and_mask_eq_iff hbits, Span.Has, Template.span, hsize]
  by_cases htris : e.mnemonic = "TRIS"
  · obtain ⟨hopcode, hfull⟩ := catalog_tris_bits e he htris
    have hb : 2 ^ b = 8 := by rw [← hsize, hfull]; rfl
    have hop : e.bits.toNat = 0x60 := by rw [hopcode]; rfl
    have hlow : (w.extractLsb' 0 3).toNat = w.toNat % 8 := by
      rw [BitVec.extractLsb'_toNat, Nat.shiftRight_zero]
    simp only [htris, bne_self_eq_false, Bool.false_or, decide_eq_true_eq, if_true, hlow, hb, hop]
    omega
  · simp [htris]

/-! ## Tiles -/

/-- The spans follow one another without a gap, from one number to another. -/
def tiles : Nat → List Span → Nat → Bool
  | a, [], b => a == b
  | a, I :: l, b => I.1 == a && tiles I.2 l b

theorem exists_span_of_tiles {l : List Span} {a b n : Nat} (h : tiles a l b = true) (ha : a ≤ n) (hb : n < b) :
    ∃ I ∈ l, I.Has n := by
  induction l generalizing a with
  | nil =>
    have := eq_of_beq h
    omega
  | cons I l ih =>
    obtain ⟨hI, hl⟩ := Bool.and_eq_true_iff.1 h
    by_cases hn : n < I.2
    · exact ⟨I, List.mem_cons_self, (eq_of_beq hI).le.trans ha, hn⟩
    · obtain ⟨J, hJ, hhas⟩ := ih hl (Nat.le_of_not_lt hn)
      exact ⟨J, List.mem_cons_of_mem _ hJ, hhas⟩

/-- The reserved ranges (R173), as spans. -/
def reservedSpans : List Span :=
  [(0x0002, 0x0008), (0x000C, 0x0010), (0x0040, 0x0062), (0x0068, 0x0080), (0x0104, 0x0180)]

theorem reservedWord_iff (n : Nat) : reservedWord n = true ↔ ∃ I ∈ reservedSpans, I.Has n := by
  simp only [reservedWord, reservedSpans, Span.Has, List.mem_cons, List.not_mem_nil, or_false, exists_eq_or_imp,
    exists_eq_left, Bool.or_eq_true, Bool.and_eq_true, decide_eq_true_eq]
  omega

/-- In order of their starts, the rows' spans and the reserved ones tile all words. -/
theorem catalog_reserved_tile :
    tiles 0 ((catalog.map Template.span ++ reservedSpans).insertionSort (fun I J => I.1 ≤ J.1)) (2 ^ 14) = true := by
  decide +kernel

theorem catalog_reserved_disjoint :
    ∀ e ∈ catalog, ∀ I ∈ reservedSpans, e.span.2 ≤ I.1 ∨ I.2 ≤ e.span.1 := by
  decide +kernel

/-- A word decodes iff it is in none of the reserved ranges. -/
theorem decodes_iff_not_reserved (w : Word) : (∃ i, decode w = .ok i) ↔ reservedWord w.toNat = false := by
  rw [← Bool.not_eq_true, reservedWord_iff]
  constructor
  · rintro ⟨i, hi⟩ ⟨I, hI, hlo, hhi⟩
    obtain ⟨e, he, hm, -⟩ := decode_ok hi
    obtain ⟨hlo', hhi'⟩ := (Template.matches_iff_span he w).1 hm
    have := catalog_reserved_disjoint e he I hI
    omega
  · intro hfree
    obtain ⟨I, hI, hhas⟩ := exists_span_of_tiles catalog_reserved_tile (Nat.zero_le _) w.isLt
    rcases List.mem_append.1 ((List.mem_insertionSort _).1 hI) with hrow | hres
    · obtain ⟨e, he, rfl⟩ := List.mem_map.1 hrow
      exact ⟨e.build w, decode_of_matches he ((Template.matches_iff_span he w).2 hhas)⟩
    · exact absurd ⟨I, hres, hhas⟩ hfree

theorem decode_of_reserved {w : Word} (h : reservedWord w.toNat = true) : ∃ r, decode w = .error r := by
  cases hd : decode w with
  | error r => exact ⟨r, rfl⟩
  | ok i => exact absurd ((decodes_iff_not_reserved w).1 ⟨i, hd⟩) (by simp [h])

/-! ## Their number -/

/-- The reserved words as a finite set. -/
def reservedFinset : Finset Nat :=
  Finset.Ico 0x0002 0x0008 ∪ Finset.Ico 0x000C 0x0010 ∪ Finset.Ico 0x0040 0x0062 ∪ Finset.Ico 0x0068 0x0080 ∪
    Finset.Ico 0x0104 0x0180

theorem countP_reservedWord : (List.range 16384).countP reservedWord = 192 := by
  have hset : (Finset.range 16384).filter (fun n => reservedWord n = true) = reservedFinset := by
    ext n
    simp only [reservedWord, reservedFinset, Finset.mem_filter, Finset.mem_range, Finset.mem_union, Finset.mem_Ico,
      Bool.or_eq_true, Bool.and_eq_true, decide_eq_true_eq]
    omega
  have hcount := Nat.count_eq_card_filter_range (fun n => reservedWord n = true) 16384
  rw [hset] at hcount
  have hcard : reservedFinset.card = 192 := by decide +kernel
  rw [← hcard, ← hcount, Nat.count]
  simp

/-- Settles O4: the words of no row are the reserved ranges, and the fetch of one gives no instruction. -/
theorem reservedWordsFault : Obligations.ReservedWordsFault := by
  refine ⟨decodes_iff_not_reserved, countP_reservedWord, fun s w hm hi hf hw => ?_⟩
  obtain ⟨r, hr⟩ := decode_of_reserved hw
  exact step_of_fetch_error hm hi (fetch_undecodable hf hr)

end Sys2Proof
end

section
/-! The translator by bank and location, and the linear regime over it (20_memory R101, R102, R105, R106). -/

namespace Sys2Proof.Machine

open Sys2Proof.Claims

/-! ## The traditional regime by bank and location (R101) -/

section
variable {a : BitVec 12} {b l : Nat} (ha : a.toNat = b * 128 + l)
include ha

theorem translateTraditional_core (hl : l ≤ 0x0B) : translateTraditional a = .sfr 0 ⟨l, by omega⟩ := by
  have hloc : a.toNat % 128 = l := by omega
  simp only [translateTraditional, hloc, hl, dite_true]

theorem translateTraditional_special (hlo : 0x0B < l) (hhi : l < 0x20) :
    translateTraditional a = .sfr ⟨b, by omega⟩ ⟨l, by omega⟩ := by
  have hbank : a.toNat / 128 = b := by omega
  have hloc : a.toNat % 128 = l := by omega
  simp only [translateTraditional, hbank, hloc, hlo.not_ge, hhi, dite_true, dite_false]

/-- Bank 0 and common RAM, of every bank, are the start of the general store. -/
theorem translateTraditional_low (hlo : 0x20 ≤ l) (hhi : l < 0x80) (h : b = 0 ∨ 0x70 ≤ l) :
    translateTraditional a = .gpr ⟨l - 0x20, by omega⟩ := by
  have hbank : a.toNat / 128 = b := by omega
  have hloc : a.toNat % 128 = l := by omega
  simp only [translateTraditional, hbank, hloc, show ¬ l ≤ 0x0B by omega, hlo.not_gt, h, ge_iff_le, dite_true,
    dite_false]

theorem translateTraditional_banked (hb : 1 ≤ b) (hlo : 0x20 ≤ l) (hhi : l < 0x70) (h : b ≠ 31 ∨ l < 0x60) :
    translateTraditional a = .gpr ⟨0x10 + b * 0x50 + (l - 0x20), by omega⟩ := by
  have hbank : a.toNat / 128 = b := by omega
  have hloc : a.toNat % 128 = l := by omega
  simp only [translateTraditional, hbank, hloc, show ¬ l ≤ 0x0B by omega, hlo.not_gt,
    show ¬ (b = 0 ∨ l ≥ 0x70) by omega, show ¬ (b = 31 ∧ l ≥ 0x60) by omega, dite_false]

end

/-- Bank 31 has the special registers a second time in place of the end of its general cells. -/
theorem translateTraditional_mirror {a : BitVec 12} {l : Nat} (ha : a.toNat = 31 * 128 + l) (hlo : 0x60 ≤ l)
    (hhi : l < 0x70) : translateTraditional a = .sfr 31 ⟨l - 0x50, by omega⟩ := by
  have hbank : a.toNat / 128 = 31 := by omega
  have hloc : a.toNat % 128 = l := by omega
  simp only [translateTraditional, hbank, hloc, show ¬ l ≤ 0x0B by omega, show ¬ l < 0x20 by omega,
    show ¬ (31 = 0 ∨ l ≥ 0x70) by omega, ge_iff_le, hlo, and_self, dite_true, dite_false]

theorem toNat_ofNat_bank {b l : Nat} (hb : b < 32) (hl : l < 128) :
    (BitVec.ofNat 12 (b * 128 + l)).toNat = b * 128 + l := by
  rw [BitVec.toNat_ofNat, Nat.mod_eq_of_lt (by omega)]

/-! ## The linear regime (R102) -/

/-- The linear addresses run through the general store but for common RAM, which stands after bank 0's cells. -/
theorem translateLinear_eq (o : Fin 0x9B0) :
    translateLinear o = .gpr ⟨if o.val < 0x50 then o.val else o.val + 0x10, by split <;> omega⟩ := by
  by_cases h : o.val < 0x50
  · have hbank : o.val / 0x50 = 0 := by omega
    have hloc : o.val % 0x50 = o.val := by omega
    simp [translateLinear, h, hbank, hloc]
  · have hbank : o.val / 0x50 ≠ 0 := by omega
    simp [translateLinear, h, hbank]

section
variable {a : Nat} (hlo : 0x2000 ≤ a) (hhi : a ≤ 0x29AF)
include hlo hhi

theorem translateAddr_ofNat_linear :
    translateAddr (BitVec.ofNat 16 a) =
      .ok (.gpr ⟨if a - 0x2000 < 0x50 then a - 0x2000 else a - 0x2000 + 0x10, by split <;> omega⟩) := by
  have ha : (BitVec.ofNat 16 a).toNat = a := by rw [BitVec.toNat_ofNat, Nat.mod_eq_of_lt (by omega)]
  rw [translateAddr, if_neg (by omega), dif_pos (by omega), translateLinear_eq]
  simp only [ha]

/-- A linear address is the address of bank `o / 0x50` and location 0x20 + `o % 0x50`. -/
theorem translateAddr_linear_eq_traditional :
    translateAddr (BitVec.ofNat 16 a) = .ok (translateTraditional
      (BitVec.ofNat 12 ((a - 0x2000) / 0x50 * 128 + 0x20 + (a - 0x2000) % 0x50))) := by
  have haddr : (BitVec.ofNat 12 ((a - 0x2000) / 0x50 * 128 + 0x20 + (a - 0x2000) % 0x50)).toNat =
      (a - 0x2000) / 0x50 * 128 + (0x20 + (a - 0x2000) % 0x50) := by
    rw [Nat.add_assoc]
    exact toNat_ofNat_bank (by omega) (by omega)
  rw [translateAddr_ofNat_linear hlo hhi]
  by_cases h : a - 0x2000 < 0x50
  · rw [translateTraditional_low haddr (by omega) (by omega) (by omega)]
    refine congrArg Except.ok (congrArg Cell.gpr (Fin.ext ?_))
    dsimp only
    split <;> omega
  · rw [translateTraditional_banked haddr (by omega) (by omega) (by omega) (by omega)]
    refine congrArg Except.ok (congrArg Cell.gpr (Fin.ext ?_))
    dsimp only
    split <;> omega

end

/-- Settles O6: each law is the translator at that bank and location. -/
theorem translatorAliases : Obligations.TranslatorAliases := by
  refine ⟨fun b1 b2 l hb1 hb2 hl => ?_, fun b l hb hlo hhi => ?_, fun a hlo hhi => ⟨?_, fun i hi => ?_⟩,
    fun l hlo hhi => ?_, fun b l hlo hhi hl hl' => ?_, fun l hlo hhi => ?_⟩
  · have h1 := translateTraditional_core (toNat_ofNat_bank hb1 (by omega)) hl
    have h2 := translateTraditional_core (toNat_ofNat_bank hb2 (by omega)) hl
    exact ⟨h1, h1.trans h2.symm⟩
  · exact translateTraditional_low (toNat_ofNat_bank hb (by omega)) (by omega) (by omega) (.inr hlo)
  · exact translateAddr_linear_eq_traditional hlo hhi
  · rw [translateAddr_ofNat_linear hlo hhi] at hi
    have hval := congrArg Fin.val (Cell.gpr.inj (Except.ok.inj hi))
    dsimp only at hval
    split at hval <;> omega
  · have haddr : (BitVec.ofNat 12 l).toNat = 0 * 128 + l := by
      rw [Nat.zero_mul, Nat.zero_add, BitVec.toNat_ofNat, Nat.mod_eq_of_lt (by omega)]
    exact translateTraditional_low haddr hlo (by omega) (.inl rfl)
  · exact translateTraditional_banked (toNat_ofNat_bank (by omega) (by omega)) hlo hl (by omega) (by omega)
  · exact translateTraditional_banked (b := 31) (toNat_ofNat_bank (b := 31) (by omega) (by omega)) (by omega) hlo
      (by omega) (by omega)

/-- Settles O7: the two windows are the special registers of bank 31 and their mirror. -/
theorem bankThirtyOneSharesCells : Obligations.BankThirtyOneSharesCells := by
  refine ⟨fun k => ⟨?_, ?_⟩, by decide, by decide, by decide, by decide⟩
  · have haddr : (BitVec.ofNat 12 (0xF90 + k.val)).toNat = 31 * 128 + (0x10 + k.val) := by
      rw [BitVec.toNat_ofNat]
      omega
    exact translateTraditional_special (b := 31) haddr (by omega) (by omega)
  · have haddr : (BitVec.ofNat 12 (0xFE0 + k.val)).toNat = 31 * 128 + (0x60 + k.val) := by
      rw [BitVec.toNat_ofNat]
      omega
    rw [translateTraditional_mirror haddr (by omega) (by omega)]
    simp only [Cell.sfr.injEq, Fin.mk.injEq, true_and]
    omega

end Sys2Proof.Machine
end

section
/-! When a file operand cannot be read (40_add_sub R207): by what it names, directly or through INDF. -/

namespace Sys2Proof.Machine

open Sys2Proof.Claims

/-! ## Which addresses are TOSL, TOSH and INDF (20_memory R101, R106) -/

theorem translateTraditional_eq_tos_iff (a : BitVec 12) {l : Fin 32} (hl : 0x1E ≤ l.val) :
    translateTraditional a = .sfr 31 l ↔ a.toNat = 0xF80 + l.val ∨ a.toNat = 0xFD0 + l.val := by
  have := a.isLt
  have h31 : (31 : Fin 32).val = 31 := rfl
  simp only [translateTraditional]
  split_ifs <;> simp only [Cell.sfr.injEq, reduceCtorEq, Fin.ext_iff, h31, Fin.val_zero, false_iff, true_and] <;> omega

theorem translateTraditional_eq_indf_iff (a : BitVec 12) {l : Fin 32} (hl : l.val ≤ 1) :
    translateTraditional a = .sfr 0 l ↔ a.toNat % 128 = l.val := by
  have := a.isLt
  have h31 : (31 : Fin 32).val = 31 := rfl
  simp only [translateTraditional]
  split_ifs <;> simp only [Cell.sfr.injEq, reduceCtorEq, Fin.ext_iff, h31, Fin.val_zero, false_iff, true_and] <;> omega

/-! ## Where a file operand is (20_memory R107, R111) -/

theorem State.fileAddr_toNat (s : State) (f : FileReg) : (s.fileAddr f).toNat = s.bsr.toNat * 128 + f.toNat := by
  rw [State.fileAddr, BitVec.toNat_append, ← Nat.shiftLeft_add_eq_or_of_lt f.isLt, Nat.shiftLeft_eq]

section
variable (s : State) (f : FileReg)

theorem State.fileAddr_eq_indf_iff {l : Fin 32} (hl : l.val ≤ 1) :
    translateTraditional (s.fileAddr f) = .sfr 0 l ↔ f.toNat = l.val := by
  have := f.isLt
  rw [translateTraditional_eq_indf_iff _ hl, s.fileAddr_toNat]
  omega

theorem State.fileAddr_eq_tos_iff {l : Fin 32} (hl : 0x1E ≤ l.val) :
    translateTraditional (s.fileAddr f) = .sfr 31 l ↔
      s.bsr.toNat = 31 ∧ (f.toNat = l.val ∨ f.toNat = l.val + 0x50) := by
  have := f.isLt
  have := s.bsr.isLt
  rw [translateTraditional_eq_tos_iff _ hl, s.fileAddr_toNat]
  omega

theorem State.fileAddr_eq_tosl_iff :
    translateTraditional (s.fileAddr f) = .tosl ↔ s.bsr = 31 ∧ (f = 0x1E ∨ f = 0x6E) := by
  rw [s.fileAddr_eq_tos_iff f (by decide)]
  simp only [← BitVec.toNat_inj]
  rfl

theorem State.fileAddr_eq_tosh_iff :
    translateTraditional (s.fileAddr f) = .tosh ↔ s.bsr = 31 ∧ (f = 0x1F ∨ f = 0x6F) := by
  rw [s.fileAddr_eq_tos_iff f (by decide)]
  simp only [← BitVec.toNat_inj]
  rfl

end

section
variable (s : State) {f : FileReg}

/-- INDF0 and INDF1 go through their pointer. -/
theorem State.fileTarget_indf (h : f = 0 ∨ f = 1) :
    s.fileTarget f = indTarget (pointer s (if f = 0 then .fsr0 else .fsr1)) := by
  rcases h with rfl | rfl
  · have hindf : translateTraditional (s.fileAddr 0) = .indf0 := (s.fileAddr_eq_indf_iff 0 (by decide)).2 rfl
    simp only [State.fileTarget, hindf, if_true]
    rfl
  · have hindf : translateTraditional (s.fileAddr 1) = .indf1 := (s.fileAddr_eq_indf_iff 1 (by decide)).2 rfl
    simp only [State.fileTarget, hindf, if_true]
    rfl

theorem State.fileTarget_direct (h : ¬ (f = 0 ∨ f = 1)) :
    s.fileTarget f = .ok (.cell (translateTraditional (s.fileAddr f))) := by
  have h0 : translateTraditional (s.fileAddr f) ≠ .indf0 := fun hc =>
    h (.inl (BitVec.eq_of_toNat_eq ((s.fileAddr_eq_indf_iff f (by decide)).1 hc)))
  have h1 : translateTraditional (s.fileAddr f) ≠ .indf1 := fun hc =>
    h (.inr (BitVec.eq_of_toNat_eq ((s.fileAddr_eq_indf_iff f (by decide)).1 hc)))
  simp only [State.fileTarget, h0, h1, if_false]

/-! ## Reading the operand (20_memory R113) -/

theorem operand_of_target {t : Target} (h : s.fileTarget f = .ok t) :
    operand s f = (s.tRead t).map (t, ·) := by
  simp only [operand, h]
  cases s.tRead t <;> rfl

theorem operand_of_tos {c : Cell} (h : s.fileTarget f = .ok (.cell c)) (hc : c = .tosl ∨ c = .tosh) :
    operand s f = .error (.unmodelledRegister c) := by
  rw [operand_of_target s h, State.tRead, s.cellRead_forbidden hc]
  rfl

theorem operand_of_cell {c : Cell} (h : s.fileTarget f = .ok (.cell c)) (hc : ¬ (c = .tosl ∨ c = .tosh)) :
    ∃ t v, operand s f = .ok (t, v) ∧ ¬ forbidden t := by
  rw [operand_of_target s h, State.tRead, s.cellRead_ok hc]
  exact ⟨.cell c, _, rfl, fun hf => hc (hf.imp Target.cell.inj Target.cell.inj)⟩

/-- Through INDF the operand is what the pointer reads. -/
theorem operand_of_pointer {p : Addr} {a : BitVec 15} (h : s.fileTarget f = indTarget p)
    (ht : indTarget p = .ok (.prog a)) : operand s f = (s.indRead p).map (.prog a, ·) := by
  rw [operand_of_target s (h.trans ht), s.indRead_target ht]

end

theorem indTarget_tosl {p : Addr} (h : p = 0x0F9E ∨ p = 0x0FEE) : indTarget p = .ok (.cell .tosl) := by
  rcases h with rfl | rfl <;> rfl

theorem indTarget_tosh {p : Addr} (h : p = 0x0F9F ∨ p = 0x0FEF) : indTarget p = .ok (.cell .tosh) := by
  rcases h with rfl | rfl <;> rfl

/-- A pointer that reaches no TOSL and no TOSH, is in no gap and not in the program window, reaches a cell that reads
or the null region. -/
theorem operand_of_data_pointer (s : State) {f : FileReg} {p : Addr} (h : s.fileTarget f = indTarget p)
    (hgap : ¬ (0x1000 ≤ p.toNat ∧ p.toNat ≤ 0x1FFF)) (hprog : p.toNat < 0x8000)
    (htosl : ¬ (p = 0x0F9E ∨ p = 0x0FEE)) (htosh : ¬ (p = 0x0F9F ∨ p = 0x0FEF)) :
    ∃ t v, operand s f = .ok (t, v) ∧ ¬ forbidden t := by
  by_cases hlow : p.toNat ≤ 0x0FFF
  · have ht := indTarget_cell (.inl hlow) (translateAddr_traditional hlow)
    have haddr : (p.extractLsb' 0 12).toNat = p.toNat := by
      rw [BitVec.extractLsb'_toNat, Nat.shiftRight_zero, Nat.mod_eq_of_lt (by omega)]
    refine operand_of_cell s (h.trans ht) (not_or.2 ⟨fun hc => htosl ?_, fun hc => htosh ?_⟩)
    · rw [translateTraditional_eq_tos_iff _ (by decide), haddr] at hc
      exact hc.imp BitVec.eq_of_toNat_eq BitVec.eq_of_toNat_eq
    · rw [translateTraditional_eq_tos_iff _ (by decide), haddr] at hc
      exact hc.imp BitVec.eq_of_toNat_eq BitVec.eq_of_toNat_eq
  by_cases hlin : p.toNat ≤ 0x29AF
  · have hregion : 0x2000 ≤ p.toNat ∧ p.toNat ≤ 0x29AF := by omega
    obtain ⟨i, hi⟩ := translateAddr_linear hregion
    exact operand_of_cell s (h.trans (indTarget_cell (.inr hregion) hi)) (by simp)
  · have ht : indTarget p = .ok .null := indTarget_null (by omega)
    exact ⟨.null, 0, operand_of_target s (h.trans ht), by simp [forbidden]⟩

/-- Settles O11: a direct operand by BSR and f; through INDF by the region of the pointer, a read of the program window
by `programWindowRead`. -/
theorem fileOperandFaults : Obligations.FileOperandFaults := by
  intro s f
  split
  · next hf =>
    have htarget := s.fileTarget_indf hf
    extract_lets p
    change s.fileTarget f = indTarget p at htarget
    clear_value p
    split
    · next h =>
      have ht := htarget.trans (indTarget_tosl h)
      exact ⟨operand_of_tos s ht (.inl rfl), ht⟩
    split
    · next h =>
      have ht := htarget.trans (indTarget_tosh h)
      exact ⟨operand_of_tos s ht (.inr rfl), ht⟩
    split
    · next h => exact htarget.trans (indTarget_addressError h)
    split
    · next hout =>
      have hp : 0x8000 ≤ p.toNat := by omega
      have hread := programWindowRead s p hp
      rw [if_pos hout] at hread
      exact ⟨by rw [operand_of_pointer s htarget (indTarget_prog hp), hread]; rfl, _,
        htarget.trans (indTarget_prog hp)⟩
    split
    · next hin hp =>
      have hread := programWindowRead s p hp
      rw [if_neg hin] at hread
      refine ⟨⟨_, htarget.trans (indTarget_prog hp)⟩, ?_⟩
      rw [operand_of_pointer s htarget (indTarget_prog hp)]
      cases hw : Assoc.find s.pmem (p.toNat - 0x8000) with
      | none =>
        rw [hw] at hread
        exact congrArg (Except.map _) hread
      | some w =>
        rw [hw] at hread
        obtain ⟨hundecodable, hdecodable⟩ := hread
        dsimp only
        split
        · next hres =>
          obtain ⟨r, hr⟩ := decode_of_reserved hres
          exact congrArg (Except.map _) (hundecodable r hr)
        · next hres =>
          obtain ⟨i, hi⟩ := (decodes_iff_not_reserved w).2 (Bool.eq_false_of_not_eq_true hres)
          exact ⟨_, _, congrArg (Except.map _) (hdecodable i hi)⟩
    · next htosl htosh hgap _ hprog =>
      exact operand_of_data_pointer s htarget hgap (by omega) htosl htosh
  · next hf =>
    have htarget := s.fileTarget_direct hf
    split
    · next h =>
      rw [(s.fileAddr_eq_tosl_iff f).2 h] at htarget
      exact ⟨operand_of_tos s htarget (.inl rfl), htarget⟩
    split
    · next h =>
      rw [(s.fileAddr_eq_tosh_iff f).2 h] at htarget
      exact ⟨operand_of_tos s htarget (.inr rfl), htarget⟩
    · next hl hh =>
      exact operand_of_cell s htarget
        (not_or.2 ⟨mt (s.fileAddr_eq_tosl_iff f).1 hl, mt (s.fileAddr_eq_tosh_iff f).1 hh⟩)

end Sys2Proof.Machine
end
